-- ==== Sys2Proof/Word.lean ====
section
/-! DEFINITION. The word types of SPIMSEQ: 8-bit bytes and 32-bit packet and register words (R74, R100). -/

namespace Sys2Proof

/-- One byte: a frame, a buffer byte, a cause code (R8, R74). -/
abbrev Byte := BitVec 8

/-- One 32-bit word: a packet word, a buffer reference or length, a register of the controller (R9, R100). -/
abbrev Word := BitVec 32

end Sys2Proof
end

