-- ==== Sys2Proof/Syntax.lean ====
section
/-! DEFINITION. The instructions of SPIMSEQ: five host commands and twenty sequencer phases, one constructor per
row of spec/opcode_table.json (R2), and the command packet that carries a host command (R22, R101). -/

namespace Sys2Proof

/-- What takes the place of instructions (R2): five host commands, then the twenty phases in the order of their
codes (R116). The operands of a command are the fields of its packet (R101, R107); a phase has none, it works on the
registers of the machine. -/
inductive Instr where
  /-- INIT, format N (R280). -/
  | init
  /-- VALIDATE, format V: the 24-bit operating-mode descriptor (R104, R284). -/
  | validate (desc : BitVec 24)
  /-- TRANSCEIVE, format T: pair count, descriptor, and the two (pointer, length) pairs (R107, R285). -/
  | transceive (cnt : BitVec 4) (desc : BitVec 24) (txPtr txLen rxPtr rxLen : Word)
  /-- TRANSCEIVE_ASYNC, format T (R287). -/
  | transceiveAsync (cnt : BitVec 4) (desc : BitVec 24) (txPtr txLen rxPtr rxLen : Word)
  /-- CANRELEASE, format N (R288). -/
  | canRelease
  /-- Phase IDLE (R291). -/
  | idle
  /-- Phase VALIDATE, called VALIDATE_PH in the table (R153). -/
  | validatePh
  /-- Phase CFG_CTRL (R154). -/
  | cfgCtrl
  /-- Phase CFG_FRAME (R155). -/
  | cfgFrame
  /-- Phase SETUP (R195). -/
  | setup
  /-- Phase CS_ASSERT (R211). -/
  | csAssert
  /-- Phase TX_FETCH (R212). -/
  | txFetch
  /-- Phase TX_WRITE (R213). -/
  | txWrite
  /-- Phase POLL_TXC (R214). -/
  | pollTxc
  /-- Phase RX_READ (R215). -/
  | rxRead
  /-- Phase RX_STORE (R216). -/
  | rxStore
  /-- Phase CS_DEASSERT (R217). -/
  | csDeassert
  /-- Phase COMPLETE (R197). -/
  | complete
  /-- Phase INIT_CLOCK (R281). -/
  | initClock
  /-- Phase INIT_PINS (R282). -/
  | initPins
  /-- Phase ROUTE_DISABLE (R171). -/
  | routeDisable
  /-- Phase ROUTE_LOC0 (R172). -/
  | routeLoc0
  /-- Phase ROUTE_LOC1 (R173). -/
  | routeLoc1
  /-- Phase ROUTE_ENABLE (R174). -/
  | routeEnable
  /-- Phase INIT_CONTEXT (R283). -/
  | initContext
  deriving DecidableEq, Repr, Inhabited

/-- The five words of a command packet, and of the latch CMDBUF (R22, R101). A packet of one word has only `w0`; the
other four are then no part of it and nothing reads them (R102; log 27). -/
structure Packet where
  w0 : Word
  w1 : Word
  w2 : Word
  w3 : Word
  w4 : Word
  deriving DecidableEq, Repr, Inhabited

end Sys2Proof
end

