-- ==== Sys2Proof/Config.lean ====
section
/-! DEFINITION. What is fixed for one SPIMSEQ instance (R8, R9): the constants the source fixes, the parameters it
leaves to the platform as a plain record, the register layout REGLAYOUT (R52), the moves the agents of the system can
make (R15), and the free values the spec leaves open, as constants without a body. -/

namespace Sys2Proof

/-- DUMMY_BYTE, the byte sent when the transmit buffer is exhausted (R8). -/
def dummyByte : Byte := 0x00#8

/-- CS_COUNT, the number of chip-select lines (R8). -/
def csCount : Nat := 3

/-- PAIR_COUNT, the only accepted number of buffer pairs per set (R8, R108). -/
def pairCount : BitVec 4 := 1#4

/-- FRAME_BITS, the only accepted word size (R8). -/
def frameBits : BitVec 7 := 8#7

/-- 2^ADDR_BITS with ADDR_BITS = 32 (R9, D3): buffer memory has the addresses below it (R71; log 3). -/
def addrSpace : Nat := 4294967296

/-- The eight registers of the consumed serial controller, by name (R40). -/
inductive Reg where
  | ctrl | frame | status | txdata | rxdata | routepen | routeloc0 | routeloc1
  deriving DecidableEq, Repr, Inhabited

/-- A field of a register, bits `hi` down to `lo` (R11). -/
structure BitRange where
  hi : Nat
  lo : Nat
  deriving DecidableEq, Repr, Inhabited

/-- REGLAYOUT: the offsets, bit positions, field ranges and constants of the controller's registers (R52). -/
structure RegLayout where
  offCtrl : Nat
  offFrame : Nat
  offStatus : Nat
  offTxdata : Nat
  offRxdata : Nat
  offRoutepen : Nat
  offRouteloc0 : Nat
  offRouteloc1 : Nat
  /-- CTRL.LOOPBK and CTRL.AUTOCS (R41). -/
  loopbkBit : Nat
  autocsBit : Nat
  /-- STATUS.TXC and STATUS.TXIDLE (R43). -/
  txcBit : Nat
  txidleBit : Nat
  /-- The four signal-enable bits of ROUTEPEN (R46). -/
  rxpenBit : Nat
  txpenBit : Nat
  cspenBit : Nat
  clkpenBit : Nat
  /-- The fields of FRAME (R42); their contents are in the constant `frameValue`. -/
  dataBits : BitRange
  parity : BitRange
  stopBits : BitRange
  /-- The four location fields of ROUTELOC0 (R47). -/
  rxLoc : BitRange
  txLoc : BitRange
  csLoc : BitRange
  clkLoc : BitRange
  /-- FRAME_VALUE, the frame-format value (R110). -/
  frameValue : BitVec 16
  /-- ROUTELOC1_DEFAULT (R48). -/
  routeloc1Default : Word
  /-- ROUTEPEN_ALL (R121). -/
  routepenAll : Word
  deriving DecidableEq, Repr, Inhabited

/-- The defaults of REGLAYOUT (R52). -/
def RegLayout.default : RegLayout where
  offCtrl := 0x00
  offFrame := 0x04
  offStatus := 0x08
  offTxdata := 0x0C
  offRxdata := 0x10
  offRoutepen := 0x14
  offRouteloc0 := 0x18
  offRouteloc1 := 0x1C
  loopbkBit := 0
  autocsBit := 1
  txcBit := 0
  txidleBit := 1
  rxpenBit := 0
  txpenBit := 1
  cspenBit := 2
  clkpenBit := 3
  dataBits := { hi := 3, lo := 0 }
  parity := { hi := 9, lo := 8 }
  stopBits := { hi := 13, lo := 12 }
  rxLoc := { hi := 7, lo := 0 }
  txLoc := { hi := 15, lo := 8 }
  csLoc := { hi := 23, lo := 16 }
  clkLoc := { hi := 31, lo := 24 }
  frameValue := 0x1008#16
  routeloc1Default := 0x00000000#32
  routepenAll := 0x0000000F#32

/-- One role of PINBINDING: the opaque pin identifier and the 8-bit location code (R9). -/
structure PinLoc where
  pin : Nat
  loc : Byte
  deriving DecidableEq, Repr, Inhabited

/-- PINBINDING: the four roles (R9, R170). -/
structure PinBinding where
  clk : PinLoc
  dout : PinLoc
  din : PinLoc
  cs : PinLoc
  deriving DecidableEq, Repr, Inhabited

/-- The OPEN parameters of an instance (R9). `pollLimit = none` is INFINITE. ADDR_BITS and LEN_BITS are 32 (log 3).
The record stands in State as a field no step changes, so every statement over all states is over all parameters
(log 2). -/
structure Config where
  base : Word
  clockId : Nat
  pins : PinBinding
  pollLimit : Option Nat
  nonblocking : Bool
  lay : RegLayout
  nCallers : Nat
  deriving DecidableEq, Repr, Inhabited

/-- DESIGN CHOICE (log 2): the parameter set State.reset carries, that of spec/95_test_vectors.md. No rule and no
statement rests on it. -/
def Config.reference : Config where
  base := 0x40010000#32
  clockId := 7
  pins := { clk := { pin := 34, loc := 0x0B#8 }, dout := { pin := 32, loc := 0x0A#8 },
            din := { pin := 33, loc := 0x09#8 }, cs := { pin := 35, loc := 0x0C#8 } }
  pollLimit := some 1000
  nonblocking := false
  lay := RegLayout.default
  nCallers := 2

/-- One step of one agent of the system (R15), with the data that comes from outside (log 1, log 22). -/
inductive Move where
  /-- The Sequencer performs the phase PH names. -/
  | sequencer
  /-- The host port answers the packet that caller `c` has submitted, if it needs no phase (R15, R290). -/
  | hostPort (c : Nat)
  /-- The serial controller takes its own step, frame completion (R252). -/
  | controller
  /-- Caller `c` submits a packet (R73, R292). An INIT is pending from then on, and a TRANSCEIVE that waits has joined
  WAITERS (R38, R285, R291; log 33). -/
  | submit (c : Nat) (p : Packet)
  /-- An agent other than SPIMSEQ writes a byte of buffer memory (R71, U7). -/
  | callerStore (a : Word) (b : Byte)
  /-- An agent other than SPIMSEQ writes a register of the controller (R51, R366). -/
  | platformWrite (r : Reg) (v : Word)
  /-- An agent other than SPIMSEQ reads a register of the controller (R366). -/
  | platformRead (r : Reg)
  /-- The platform brings the controller back to the state R355 (b), (c) asks for (R352, R365), with `v`, a value that
  puts it in the operation (b) asks for, in CTRL. -/
  | platformRestore (v : Word)
  /-- The reset input is asserted (R350, R352). -/
  | reset
  deriving DecidableEq, Repr, Inhabited

/-- FREE VALUE (log 1): which agent moves next when the agenda has no entry (R15, U14). -/
opaque Config.freeMove : Nat → Move

/-- FREE VALUE (log 7): the byte a slave returns (`SlaveByte()`, R262, U15). -/
opaque Config.freeByte : Nat → Byte

/-- FREE VALUE (log 7, log 8): a register value the contract leaves open (U4, U8, U11, U16). -/
opaque Config.freeWord : Nat → Word

/-- FREE VALUE (log 7): the arbitration among several waiters (R194, U13). -/
opaque Config.freePick : Nat → Nat

end Sys2Proof
end

