-- ==== Sys2Proof/WellFormed.lean ====
section
/-! DEFINITION. Well-formedness: which parameter records the spec admits (R9, R52, R79, U19), which packets carry no
word beyond their length (R102), which instructions are well formed. -/

namespace Sys2Proof

/-- The eight offsets of a layout (R52). -/
def RegLayout.offsets (l : RegLayout) : List Nat :=
  [l.offCtrl, l.offFrame, l.offStatus, l.offTxdata, l.offRxdata, l.offRoutepen, l.offRouteloc0, l.offRouteloc1]

/-- The four enable bits of a layout (R52). -/
def RegLayout.penBits (l : RegLayout) : List Nat := [l.rxpenBit, l.txpenBit, l.cspenBit, l.clkpenBit]

/-- The four location fields of a layout (R52). -/
def RegLayout.locFields (l : RegLayout) : List BitRange := [l.rxLoc, l.txLoc, l.csLoc, l.clkLoc]

/-- A location field is eight bits wide and lies in a 32-bit register (R47, R120). -/
def BitRange.isByteField (r : BitRange) : Bool := decide (r.hi = r.lo + 7) && decide (r.hi < 32)

/-- Two fields share no bit (R52). -/
def BitRange.apart (r q : BitRange) : Bool := decide (r.hi < q.lo) || decide (q.hi < r.lo)

/-- The constraints a substituted layout must meet (R52): the offsets are distinct (and multiples of 4, R79, that an
address of ADDR_BITS bits can hold), LOOPBK
and AUTOCS are distinct bits of CTRL, TXC and TXIDLE of STATUS, the four enable bits are distinct and ROUTEPEN_ALL is
exactly these four (R121), the four location fields do not overlap (log 19). -/
def RegLayout.wf (l : RegLayout) : Bool :=
  decide l.offsets.Nodup && l.offsets.all (fun o => decide (o % 4 = 0) && decide (o < addrSpace)) &&
  decide (l.loopbkBit ≠ l.autocsBit) && decide (l.loopbkBit < 32) && decide (l.autocsBit < 32) &&
  decide (l.txcBit ≠ l.txidleBit) && decide (l.txcBit < 32) && decide (l.txidleBit < 32) &&
  decide l.penBits.Nodup && l.penBits.all (fun b => decide (b < 32)) &&
  decide (l.routepenAll = 1#32 <<< l.rxpenBit ||| 1#32 <<< l.txpenBit ||| 1#32 <<< l.cspenBit ||| 1#32 <<< l.clkpenBit) &&
  l.locFields.all BitRange.isByteField && decide (l.locFields.Pairwise (fun r q => r.apart q = true))

/-- The admitted parameter values (U19): BASE is a multiple of 4 (R79), POLL_LIMIT is positive or INFINITE, N_CALLERS
is positive (R9), the layout meets R52. -/
def Config.wf (c : Config) : Bool :=
  decide (c.base.toNat % 4 = 0) && decide (c.pollLimit ≠ some 0) && decide (0 < c.nCallers) && c.lay.wf

/-- The opcode of a packet, `W0[31:28]` (R101). -/
def Packet.op (p : Packet) : BitVec 4 := p.w0.extractLsb' 28 4

/-- A packet has five words exactly when its opcode is 0x3 or 0x4 (R102). -/
def Packet.isLong (p : Packet) : Bool := p.op == 0x3#4 || p.op == 0x4#4

/-- A one-word packet carries nothing in the places of the other four words (R102). -/
def Packet.wf (p : Packet) : Bool :=
  p.isLong || (p.w1 == 0#32 && p.w2 == 0#32 && p.w3 == 0#32 && p.w4 == 0#32)

/-- Every operand of an instruction is a bit vector of exactly the width its packet field has (R101, R104, R107), and
no value of CNT, DESC or a length is ill formed at the packet level (R117: "no value of W0 to W4 is illegal at the
packet level"), so every term of `Instr` is well formed. -/
def Instr.wf : Instr → Bool
  | .init => true
  | .validate _ => true
  | .transceive _ _ _ _ _ _ => true
  | .transceiveAsync _ _ _ _ _ _ => true
  | .canRelease => true
  | .idle => true
  | .validatePh => true
  | .cfgCtrl => true
  | .cfgFrame => true
  | .setup => true
  | .csAssert => true
  | .txFetch => true
  | .txWrite => true
  | .pollTxc => true
  | .rxRead => true
  | .rxStore => true
  | .csDeassert => true
  | .complete => true
  | .initClock => true
  | .initPins => true
  | .routeDisable => true
  | .routeLoc0 => true
  | .routeLoc1 => true
  | .routeEnable => true
  | .initContext => true

end Sys2Proof
end

