-- ==== Sys2Proof/Decode.lean ====
section
/-! DEFINITION. The decoder of command packets and phase codes, total on any words and rejecting by name (R102, R103,
R116, R117, R119), the encoder from the same tables, and the host's numbering of the opcode table. -/

namespace Sys2Proof

/-- Why some words are no instruction. -/
inductive Reject where
  /-- OP is 0x0 or 0x6 to 0xF (R103, R117). -/
  | reservedOpcode
  /-- A must-be-zero bit of INIT, VALIDATE or CANRELEASE is set (R117). -/
  | mustBeZero
  /-- Fewer words than the packet's length (R73, R102). -/
  | missingWords
  /-- More words than the packet's length, where exactly one packet is asked for (R102). -/
  | trailingWords
  /-- A phase code from 20 to 31 (R116, U3). -/
  | reservedPhase
  deriving DecidableEq, Repr, Inhabited

/-- What the decoder answers. -/
inductive Decoded where
  | instr (i : Instr)
  | reject (r : Reject)
  deriving DecidableEq, Repr, Inhabited

/-- An encoded instruction: the words of a command packet, or the 5-bit phase code (R100). -/
inductive Code where
  | packet (ws : List Word)
  | phase (code : BitVec 5)
  deriving DecidableEq, Repr, Inhabited

/-- `W0[27:24]`, CNT (R101). -/
def Packet.cnt (p : Packet) : BitVec 4 := p.w0.extractLsb' 24 4

/-- `W0[23:0]`, DESC (R101). -/
def Packet.desc (p : Packet) : BitVec 24 := p.w0.extractLsb' 0 24

/-- The words of the packet, as many as its opcode gives it (R102). -/
def Packet.words (p : Packet) : List Word := if p.isLong then [p.w0, p.w1, p.w2, p.w3, p.w4] else [p.w0]

/-- The decoder of R119 on one whole packet. -/
def decodePacket (p : Packet) : Decoded :=
  if p.op = 0x3#4 then .instr (.transceive p.cnt p.desc p.w1 p.w2 p.w3 p.w4)
  else if p.op = 0x4#4 then .instr (.transceiveAsync p.cnt p.desc p.w1 p.w2 p.w3 p.w4)
  else if p.op = 0x1#4 then (if p.w0.extractLsb' 0 28 = 0#28 then .instr .init else .reject .mustBeZero)
  else if p.op = 0x5#4 then (if p.w0.extractLsb' 0 28 = 0#28 then .instr .canRelease else .reject .mustBeZero)
  else if p.op = 0x2#4 then (if p.cnt = 0#4 then .instr (.validate p.desc) else .reject .mustBeZero)
  else .reject .reservedOpcode

/-- The packet at the front of a stream of words, with the rest (R102: the length is a function of OP alone). -/
def takePacketWords : List Word → Option (Packet × List Word)
  | [] => none
  | w0 :: rest =>
    if (Packet.mk w0 0 0 0 0).isLong then
      match rest with
      | w1 :: w2 :: w3 :: w4 :: rest' => some ({ w0 := w0, w1 := w1, w2 := w2, w3 := w3, w4 := w4 }, rest')
      | _ => none
    else some ({ w0 := w0, w1 := 0#32, w2 := 0#32, w3 := 0#32, w4 := 0#32 }, rest)

/-- The decoder on a stream of words: the instruction at its front and the words after it (R119). -/
def decodeWords (ws : List Word) : Decoded × List Word :=
  match takePacketWords ws with
  | none => (.reject .missingWords, ws)
  | some (p, rest) => (decodePacket p, rest)

/-- The twenty phase codes, the values of PH (R116). -/
abbrev Ph.idle : BitVec 5 := 0#5
abbrev Ph.validate : BitVec 5 := 1#5
abbrev Ph.cfgCtrl : BitVec 5 := 2#5
abbrev Ph.cfgFrame : BitVec 5 := 3#5
abbrev Ph.setup : BitVec 5 := 4#5
abbrev Ph.csAssert : BitVec 5 := 5#5
abbrev Ph.txFetch : BitVec 5 := 6#5
abbrev Ph.txWrite : BitVec 5 := 7#5
abbrev Ph.pollTxc : BitVec 5 := 8#5
abbrev Ph.rxRead : BitVec 5 := 9#5
abbrev Ph.rxStore : BitVec 5 := 10#5
abbrev Ph.csDeassert : BitVec 5 := 11#5
abbrev Ph.complete : BitVec 5 := 12#5
abbrev Ph.initClock : BitVec 5 := 13#5
abbrev Ph.initPins : BitVec 5 := 14#5
abbrev Ph.routeDisable : BitVec 5 := 15#5
abbrev Ph.routeLoc0 : BitVec 5 := 16#5
abbrev Ph.routeLoc1 : BitVec 5 := 17#5
abbrev Ph.routeEnable : BitVec 5 := 18#5
abbrev Ph.initContext : BitVec 5 := 19#5

/-- The phase a value of PH names (R116); 20 to 31 name none (U3). -/
def decodePhase (ph : BitVec 5) : Decoded :=
  match ph.toNat with
  | 0 => .instr .idle
  | 1 => .instr .validatePh
  | 2 => .instr .cfgCtrl
  | 3 => .instr .cfgFrame
  | 4 => .instr .setup
  | 5 => .instr .csAssert
  | 6 => .instr .txFetch
  | 7 => .instr .txWrite
  | 8 => .instr .pollTxc
  | 9 => .instr .rxRead
  | 10 => .instr .rxStore
  | 11 => .instr .csDeassert
  | 12 => .instr .complete
  | 13 => .instr .initClock
  | 14 => .instr .initPins
  | 15 => .instr .routeDisable
  | 16 => .instr .routeLoc0
  | 17 => .instr .routeLoc1
  | 18 => .instr .routeEnable
  | 19 => .instr .initContext
  | _ => .reject .reservedPhase

/-- The decoder on any encoded value: exactly one packet, or one phase code (R116, R119). -/
def decode : Code → Decoded
  | .phase c => decodePhase c
  | .packet ws =>
    match takePacketWords ws with
    | none => .reject .missingWords
    | some (p, []) => decodePacket p
    | some (_, _ :: _) => .reject .trailingWords

/-- The first word of a packet, from OP, CNT and DESC (R101). -/
def firstWord (op cnt : BitVec 4) (desc : BitVec 24) : Word := op ++ cnt ++ desc

/-- A packet of format T (R100, R107). -/
def transferPacket (op cnt : BitVec 4) (desc : BitVec 24) (txPtr txLen rxPtr rxLen : Word) : Packet where
  w0 := firstWord op cnt desc
  w1 := txPtr
  w2 := txLen
  w3 := rxPtr
  w4 := rxLen

/-- A packet of one word (R100). -/
def shortPacket (op : BitVec 4) (desc : BitVec 24) : Packet where
  w0 := firstWord op 0#4 desc
  w1 := 0#32
  w2 := 0#32
  w3 := 0#32
  w4 := 0#32

/-- The encoder, from the tables of R103 and R116. -/
def encode : Instr → Code
  | .init => .packet (shortPacket 0x1#4 0#24).words
  | .validate desc => .packet (shortPacket 0x2#4 desc).words
  | .transceive cnt desc tp tl rp rl => .packet (transferPacket 0x3#4 cnt desc tp tl rp rl).words
  | .transceiveAsync cnt desc tp tl rp rl => .packet (transferPacket 0x4#4 cnt desc tp tl rp rl).words
  | .canRelease => .packet (shortPacket 0x5#4 0#24).words
  | .idle => .phase Ph.idle
  | .validatePh => .phase Ph.validate
  | .cfgCtrl => .phase Ph.cfgCtrl
  | .cfgFrame => .phase Ph.cfgFrame
  | .setup => .phase Ph.setup
  | .csAssert => .phase Ph.csAssert
  | .txFetch => .phase Ph.txFetch
  | .txWrite => .phase Ph.txWrite
  | .pollTxc => .phase Ph.pollTxc
  | .rxRead => .phase Ph.rxRead
  | .rxStore => .phase Ph.rxStore
  | .csDeassert => .phase Ph.csDeassert
  | .complete => .phase Ph.complete
  | .initClock => .phase Ph.initClock
  | .initPins => .phase Ph.initPins
  | .routeDisable => .phase Ph.routeDisable
  | .routeLoc0 => .phase Ph.routeLoc0
  | .routeLoc1 => .phase Ph.routeLoc1
  | .routeEnable => .phase Ph.routeEnable
  | .initContext => .phase Ph.initContext

/-- The packet whose words are the 32-bit pieces of `w`, the first the least significant (log 28). -/
def packetOfTableWord (w : Nat) : Packet where
  w0 := BitVec.ofNat 32 w
  w1 := BitVec.ofNat 32 (w / 2 ^ 32)
  w2 := BitVec.ofNat 32 (w / 2 ^ 64)
  w3 := BitVec.ofNat 32 (w / 2 ^ 96)
  w4 := BitVec.ofNat 32 (w / 2 ^ 128)

/-- The PH value of a phase row's word; a word that is no 5-bit code goes to the reserved code 31 (log 28). -/
def phaseOfTableWord (w : Nat) : BitVec 5 := if w < 32 then BitVec.ofNat 5 w else 31#5

/-- A row of fewer than 32 bits is a phase row (its format is PH, its encoding a 5-bit code), any other a packet
(R116; log 28). -/
def isPhaseRow (nbits : Nat) : Bool := decide (nbits < 32)

/-- The instruction the decoder reads from a row of spec/opcode_table.json whose bits are `w` (log 28). -/
def decodeTableWord (nbits w : Nat) : Option Instr :=
  match (if isPhaseRow nbits then decodePhase (phaseOfTableWord w) else decodePacket (packetOfTableWord w)) with
  | .instr i => some i
  | .reject _ => none

end Sys2Proof
end

