-- ==== Sys2Proof/Machine/State.lean ====
section
/-! DEFINITION. The state of one SPIMSEQ instance and of what it works on: its own registers (R22 to R38), the
registers and hidden state of the consumed serial controller (R40 to R49), buffer memory (R71), the packets in the
host port, the event history (R90), and the model's own fields that say what the outside world does next. Plain data
throughout. Also the reasons a step can stop, and the state right after reset (R53, R350). -/

namespace Sys2Proof.Machine

/-- Why the machine stops with a fault. -/
inductive Fault where
  /-- A buffer access at an address beyond 2^ADDR_BITS, which does not exist (R71, R75, U23). Raised by TX_FETCH and
  RX_STORE. SAFE: the hardware never makes it, no admitted transaction wraps (log 26). -/
  | outsideMemory
  deriving DecidableEq, Repr, Inhabited

/-- Why the model gives a step no meaning. -/
inductive Refusal where
  /-- The instruction has no meaning in the model yet. Raised by exec only. SAFE. -/
  | notModelled (mnemonic : String)
  /-- PH holds a value from 20 to 31 (U3: refuse). Raised by the fetch. SAFE (log 20). -/
  | reservedPhase
  /-- A packet other than INIT while INITED = 0 (U1: refuse). Raised when it is submitted. SAFE (log 13). -/
  | notInitialised
  /-- An INIT while INITED = 1, or a second INIT (U1, R369: refuse). Raised by INIT. SAFE (log 13). -/
  | initAgain
  /-- A TRANSCEIVE whose buffer would wrap the address space (R75, U5: refuse). Raised by TRANSCEIVE. SAFE (log 15). -/
  | bufferWraps
  /-- A write of TXDATA while a frame is in flight and the contract holds (R251, U10: refuse). Raised by TX_WRITE.
  SAFE (log 18). -/
  | txdataInFlight
  /-- A caller submits a packet before the response to its first (R292, U18: refuse). Raised by a submission. SAFE (log 17). -/
  | secondPacket
  /-- The parameters are outside the admitted values (U19: refuse). Raised by every step. SAFE (log 19). -/
  | parametersNotAdmitted
  deriving DecidableEq, Repr, Inhabited

/-- The electrical modes of the pin collaborator (R282). -/
inductive PinMode where
  | input | pushPull | openDrain
  deriving DecidableEq, Repr, Inhabited

/-- Where the controller's signals of the four roles are connected: the location code of the pin an enabled role is
connected to, none for a role that is disconnected from every pin (R46, R47, R259). -/
structure Route where
  clk : Option Byte
  dout : Option Byte
  din : Option Byte
  cs : Option Byte
  deriving DecidableEq, Repr, Inhabited

/-- One event of the history (R90, R263), as spec/95_test_vectors.md writes traces. `Select` and `Deselect` of R263
are the `csn` events. -/
inductive Event where
  /-- A caller submits a packet. -/
  | submit (c : Nat) (words : List Word)
  /-- The response packet to caller `c` (R112). -/
  | resp (c : Nat) (r0 r1 : Word)
  /-- The collaborator call `enableClock` (R281). -/
  | enableClock (id : Nat)
  /-- The collaborator call `configurePin` (R282). -/
  | configurePin (pin : Nat) (mode : PinMode)
  /-- A read through the register port, with the register's address (R13, R76). -/
  | regRead (r : Reg) (addr : Word) (v : Word)
  /-- A write through the register port. -/
  | regWrite (r : Reg) (addr : Word) (v : Word)
  /-- A one-byte read of buffer memory (R74). -/
  | memRead (a : Nat) (v : Byte)
  /-- A one-byte write of buffer memory. -/
  | memWrite (a : Nat) (v : Byte)
  /-- A change of the chip-select outputs (R34). -/
  | csn (v : BitVec 3)
  /-- A frame on the wire, with the chip-select outputs at its completion (R252, R263), and the pins the controller's
  signals were connected to (R259; log 25). -/
  | frame (csn : BitVec 3) (mosi miso : Byte) (route : Route)
  deriving DecidableEq, Repr, Inhabited

/-- ENC, the latched control encoding (R24). -/
structure Enc where
  frame : BitVec 16
  loopbk : Bool
  autocs : Bool
  deriving DecidableEq, Repr, Inhabited

/-- CTX, the transfer context (R25 to R28). -/
structure Ctx where
  txPtr : Word
  txLen : Word
  rxPtr : Word
  rxLen : Word
  status : Byte
  done : Bool
  lock : Bool
  deriving DecidableEq, Repr, Inhabited

/-- The serial controller (R40 to R49, R250). -/
structure Controller where
  ctrl : Word
  frame : Word
  txc : Bool
  txidle : Bool
  routepen : Word
  routeloc0 : Word
  routeloc1 : Word
  inflight : Bool
  txframe : Byte
  rxh : Byte
  rxready : Bool
  /-- The two halves of the shift register SR (R49; log 21). -/
  srOut : Byte
  srIn : Byte
  /-- MODEL'S OWN: a value of CTRL whose platform's bits put the controller in the operation R355 (b) asks for; (b)
  holds while CTRL agrees with it in these bits (log 22). -/
  mode : Word
  /-- MODEL'S OWN: the contract of file 45 is void until the platform restores the controller (R265, R352; log 8). -/
  isVoid : Bool
  /-- MODEL'S OWN: the contract is void for the transaction accepted last, and until the next acceptance tests R355
  again (R366; log 8). -/
  txnVoid : Bool
  deriving DecidableEq, Repr, Inhabited

/-- MODEL'S OWN: what the outside world answers where the spec leaves a value open (log 7). The lists are values
supplied from outside, used first; when a list is empty the value is an opaque constant of Config at `drawn`. -/
structure Oracle where
  slave : List Byte
  reads : List Word
  picks : List Nat
  drawn : Nat
  deriving DecidableEq, Repr, Inhabited

/-- A packet a caller has submitted (R73). -/
structure Pending where
  caller : Nat
  packet : Packet
  deriving DecidableEq, Repr, Inhabited

/-- Buffer memory: address and byte pairs, addresses strictly rising, no byte equal to what an unlisted address reads
as (log 4). -/
abbrev Memory := List Host.Cell

/-- The state of the machine. -/
structure State where
  /-- The parameters of the instance (R9), never written (log 2). -/
  cfg : Config
  /-- CMDBUF, the latched packet (R22); DESC is its field (R23). -/
  cmdbuf : Packet
  /-- ENC (R24). -/
  enc : Enc
  /-- CTX (R25 to R28). -/
  ctx : Ctx
  /-- PH, the phase register (R29). -/
  ph : BitVec 5
  /-- IDX, the frame index (R30). -/
  idx : Word
  /-- TXB and RXB (R31). -/
  txb : Byte
  rxb : Byte
  /-- POLLCNT (R32). -/
  pollcnt : Nat
  /-- XSTAT (R33). -/
  xstat : Byte
  /-- CSN, the chip-select outputs, active low (R34). -/
  csn : BitVec 3
  /-- INITED (R35). -/
  inited : Bool
  /-- FAULT_HANG, sticky (R36). -/
  faultHang : Bool
  /-- RESULT and RDATA (R37). -/
  result : Word
  rdata : Word
  /-- OWNER (R38). -/
  owner : Nat
  /-- WAITERS, a set held as a list with rising callers, each with its packet (R38, R86; log 29). Empty when
  NONBLOCKING = 1 (log 12). -/
  waiters : List Pending
  /-- MODEL'S OWN: with NONBLOCKING = 1, the callers whose TRANSCEIVE has found the guard free and whom a later IDLE step
  accepts (R193, R285), each with its packet; they stand here because WAITERS is empty then (R38; log 12). -/
  offered : List Pending
  /-- The caller whose INIT the IDLE step will accept (R291; log 13). -/
  initPending : Option Nat
  /-- Packets submitted that the host port is to answer and has not answered yet (R290, R292; log 11). -/
  pending : List Pending
  /-- MODEL'S OWN: the caller whose command the step runs (log 11). -/
  portCaller : Nat
  /-- The serial controller (R250). -/
  ctl : Controller
  /-- Buffer memory (R71). -/
  mem : Memory
  /-- MODEL'S OWN: which agents step next (log 1). -/
  agenda : List Move
  /-- MODEL'S OWN: the open values (log 7). -/
  oracle : Oracle
  /-- The event history, the latest event first (R90). -/
  history : List Event
  deriving DecidableEq, Repr, Inhabited

/-- The controller at first use (R53, R355): TXC = 0, TXIDLE = 1, nothing in flight, nothing unread. What the spec
leaves unspecified is zero, DESIGN CHOICE (log 5); that the requirement is met, DESIGN CHOICE (log 6). -/
def Controller.boot : Controller where
  ctrl := 0#32
  frame := 0#32
  txc := false
  txidle := true
  routepen := 0#32
  routeloc0 := 0#32
  routeloc1 := 0#32
  inflight := false
  txframe := 0#8
  rxh := 0#8
  rxready := false
  srOut := 0#8
  srIn := 0#8
  mode := 0#32
  isVoid := false
  txnVoid := false

/-- The state right after reset of an instance with parameters `cfg` (R53, R350). OWNER is unspecified there and zero
here, DESIGN CHOICE (log 5). -/
def State.resetWith (cfg : Config) : State where
  cfg := cfg
  cmdbuf := { w0 := 0#32, w1 := 0#32, w2 := 0#32, w3 := 0#32, w4 := 0#32 }
  enc := { frame := 0#16, loopbk := false, autocs := false }
  ctx := { txPtr := 0#32, txLen := 0#32, rxPtr := 0#32, rxLen := 0#32, status := 0#8, done := false, lock := false }
  ph := Ph.idle
  idx := 0#32
  txb := 0#8
  rxb := 0#8
  pollcnt := 0
  xstat := 0#8
  csn := 0b111#3
  inited := false
  faultHang := false
  result := 0#32
  rdata := 0#32
  owner := 0
  waiters := []
  offered := []
  initPending := none
  pending := []
  portCaller := 0
  ctl := Controller.boot
  mem := []
  agenda := []
  oracle := { slave := [], reads := [], picks := [], drawn := 0 }
  history := []

/-- The machine right after reset (R53, R350), with the parameters of spec/95_test_vectors.md (log 2). -/
def State.reset : State := State.resetWith Config.reference

end Sys2Proof.Machine
end

