-- ==== Sys2Proof/Machine/Operands.lean ====
section
/-! DEFINITION. Operands: the fields of the descriptor and of CMDBUF (R22, R104), effective addresses (R75), the
longest length (R196), the address-space and window tests of an admission (R75, U5, U6), the register values the block
assembles (R109, R120, R122), and the error codes (R113, R114). -/

namespace Sys2Proof.Machine

/-- The fields of the operating-mode descriptor (R104), each the plain unsigned value of its bits (R105). -/
def descRole (d : BitVec 24) : BitVec 1 := d.extractLsb' 0 1
def descCpol (d : BitVec 24) : BitVec 1 := d.extractLsb' 1 1
def descCpha (d : BitVec 24) : BitVec 1 := d.extractLsb' 2 1
def descLoop (d : BitVec 24) : BitVec 1 := d.extractLsb' 3 1
def descLsbf (d : BitVec 24) : BitVec 1 := d.extractLsb' 4 1
def descWsize (d : BitVec 24) : BitVec 7 := d.extractLsb' 5 7
def descLines (d : BitVec 24) : BitVec 2 := d.extractLsb' 12 2
def descLockon (d : BitVec 24) : BitVec 1 := d.extractLsb' 14 1
def descCshigh (d : BitVec 24) : BitVec 1 := d.extractLsb' 15 1
def descCsidx (d : BitVec 24) : BitVec 8 := d.extractLsb' 16 8

/-- The fields of CMDBUF (R22); CNT and DESC are `Packet.cnt` and `Packet.desc`. -/
def cmdTxPtr (p : Packet) : Word := p.w1
def cmdTxLen (p : Packet) : Word := p.w2
def cmdRxPtr (p : Packet) : Word := p.w3
def cmdRxLen (p : Packet) : Word := p.w4

/-- The DESC register, the field of CMDBUF (R23). -/
def desc (s : State) : BitVec 24 := s.cmdbuf.desc

/-- The larger of two lengths, unsigned (R14). -/
def maxLen (a b : Word) : Word := if b.toNat ≤ a.toNat then a else b

/-- `longestLength()` (R196). -/
def longest (s : State) : Word := maxLen s.ctx.txLen s.ctx.rxLen

/-- Where the transmit byte of the frame in progress stands (R75), as a mathematical integer. -/
def txAddr (s : State) : Nat := s.ctx.txPtr.toNat + s.idx.toNat

/-- Where the receive byte of the frame in progress goes (R75). -/
def rxAddr (s : State) : Nat := s.ctx.rxPtr.toNat + s.idx.toNat

/-- The buffer does not extend past the top of the address space (R75, U5). -/
def bufferFits (ptr len : Word) : Bool := decide (ptr.toNat + len.toNat ≤ addrSpace)

/-- Neither buffer of a transfer wraps (R75). -/
def transferFits (txPtr txLen rxPtr rxLen : Word) : Bool := bufferFits txPtr txLen && bufferFits rxPtr rxLen

/-- One past the last byte of the register window, counted from BASE: 0x20 with the default layout (R72). -/
def windowSize (l : RegLayout) : Nat := l.offsets.foldr Nat.max 0 + 4

/-- A buffer that is accessed at all overlaps the register window (R71, R75, U6). DESIGN CHOICE (log 32): of a window
that passes the top of the address space the spec says nothing; its part beyond the top is taken to lie at the lowest
addresses, as `regAddr` has it. -/
def overlapsWindow (c : Config) (ptr len : Word) : Bool :=
  decide (0 < len.toNat) &&
  ((decide (ptr.toNat < c.base.toNat + windowSize c.lay) && decide (c.base.toNat < ptr.toNat + len.toNat)) ||
    decide (addrSpace + ptr.toNat < c.base.toNat + windowSize c.lay))

/-- The byte at address `a` lies in the register window (R71, U6). -/
def inWindow (c : Config) (a : Nat) : Bool := overlapsWindow c (BitVec.ofNat 32 a) 1#32

/-- The offset of a register (R40, R52). -/
def regOffset (l : RegLayout) : Reg → Nat
  | .ctrl => l.offCtrl
  | .frame => l.offFrame
  | .status => l.offStatus
  | .txdata => l.offTxdata
  | .rxdata => l.offRxdata
  | .routepen => l.offRoutepen
  | .routeloc0 => l.offRouteloc0
  | .routeloc1 => l.offRouteloc1

/-- The address of a register, BASE + offset (R70). DESIGN CHOICE (log 32): the sum is taken modulo 2^32 where the
window passes the top of the address space, of which the spec says nothing. -/
def regAddr (c : Config) (r : Reg) : Word := c.base + BitVec.ofNat 32 (regOffset c.lay r)

/-- A one-bit value as a 32-bit word. -/
def bitWord (b : Bool) : Word := if b then 1#32 else 0#32

/-- The value of a field of a register (R11). -/
def fieldOf (r : BitRange) (v : Word) : Nat := (v >>> r.lo).toNat % 2 ^ (r.hi + 1 - r.lo)

/-- The encoding packed in 18 bits, as VALIDATE returns it (R109). -/
def packEnc (e : Enc) : Word := e.frame.setWidth 32 ||| bitWord e.loopbk <<< 16 ||| bitWord e.autocs <<< 17

/-- The route-location value (R120, R172): each code in the field of its role. -/
def routeloc0Value (c : Config) : Word :=
  c.pins.din.loc.setWidth 32 <<< c.lay.rxLoc.lo ||| c.pins.dout.loc.setWidth 32 <<< c.lay.txLoc.lo |||
  c.pins.cs.loc.setWidth 32 <<< c.lay.csLoc.lo ||| c.pins.clk.loc.setWidth 32 <<< c.lay.clkLoc.lo

/-- The bits of CTRL that are the platform's: all but LOOPBK and AUTOCS (R41). -/
def platformMask (l : RegLayout) : Word := ~~~(1#32 <<< l.loopbkBit ||| 1#32 <<< l.autocsBit)

/-- The value CFG_CTRL writes to CTRL when it read `old` (R122, R154). -/
def ctrlUpdate (l : RegLayout) (old : Word) (e : Enc) : Word :=
  (old &&& platformMask l) |||
  bitWord e.loopbk <<< l.loopbkBit ||| bitWord e.autocs <<< l.autocsBit

/-- Where one role's signal is connected: at its location code if its enable bit is 1, at no pin if it is 0 (R46). -/
def connection (enabled : Bool) (code : Byte) : Option Byte := if enabled then some code else none

/-- Where the controller's signals are connected, by ROUTEPEN and ROUTELOC0 (R46, R47, R259). -/
def routeOf (l : RegLayout) (k : Controller) : Route where
  clk := connection (k.routepen.getLsbD l.clkpenBit) (k.routeloc0.extractLsb' l.clkLoc.lo 8)
  dout := connection (k.routepen.getLsbD l.txpenBit) (k.routeloc0.extractLsb' l.txLoc.lo 8)
  din := connection (k.routepen.getLsbD l.rxpenBit) (k.routeloc0.extractLsb' l.rxLoc.lo 8)
  cs := connection (k.routepen.getLsbD l.cspenBit) (k.routeloc0.extractLsb' l.csLoc.lo 8)

/-- The chip-select outputs with the line of index `k` low (R34, R211). -/
def csnFor (k : BitVec 8) : BitVec 3 := 0b111#3 &&& ~~~(1#3 <<< k.toNat)

/-- The classes of an outcome (R113). -/
inductive ErrClass where
  | ok | config | range | busy | hang | illegal | notsup
  deriving DecidableEq, Repr, Inhabited

/-- The causes of an outcome (R114). -/
inductive Cause where
  | none | csIndex | wordSize | csPolarity | lockOn | lineMode | bitOrder | clockMode | role | pairCount
  | contextEngaged | notIdle | txcTimeout | illegalCmd | asyncUnimplemented
  deriving DecidableEq, Repr, Inhabited

/-- The class codes (R113). -/
def classCode : ErrClass → Word
  | .ok => 0x0#32
  | .config => 0x1#32
  | .range => 0x2#32
  | .busy => 0x3#32
  | .hang => 0x4#32
  | .illegal => 0x5#32
  | .notsup => 0x6#32

/-- The cause codes (R114). -/
def causeCode : Cause → Byte
  | .none => 0x00#8
  | .csIndex => 0x01#8
  | .wordSize => 0x02#8
  | .csPolarity => 0x03#8
  | .lockOn => 0x04#8
  | .lineMode => 0x05#8
  | .bitOrder => 0x06#8
  | .clockMode => 0x07#8
  | .role => 0x08#8
  | .pairCount => 0x09#8
  | .contextEngaged => 0x0A#8
  | .notIdle => 0x0B#8
  | .txcTimeout => 0x0C#8
  | .illegalCmd => 0x0D#8
  | .asyncUnimplemented => 0x0E#8

/-- The one class each cause belongs to (R114). -/
def causeClass : Cause → ErrClass
  | .none => .ok
  | .csIndex => .range
  | .wordSize => .config
  | .csPolarity => .config
  | .lockOn => .config
  | .lineMode => .config
  | .bitOrder => .config
  | .clockMode => .config
  | .role => .config
  | .pairCount => .range
  | .contextEngaged => .busy
  | .notIdle => .busy
  | .txcTimeout => .hang
  | .illegalCmd => .illegal
  | .asyncUnimplemented => .notsup

/-- The status word R0, `class << 8 | cause` (R112, R318). -/
def statusR0 (c : Cause) : Word := classCode (causeClass c) <<< 8 ||| (causeCode c).setWidth 32

end Sys2Proof.Machine
end

