-- ==== Sys2Proof/Machine/Flags.lean ====
section
/-! DEFINITION. Flags. No operation writes an arithmetic flag (R50); what plays the part of flags are the two status
bits of the controller as the STATUS word shows them (R43, R255), the two control bits in CTRL (R41), and the tests
POLL_TXC and the contract of file 45 make on them (R214, R265). -/

namespace Sys2Proof.Machine

/-- `w` with bit `k` set to `b`, the other bits kept. -/
def setBit (w : Word) (k : Nat) (b : Bool) : Word := (w &&& ~~~(1#32 <<< k)) ||| bitWord b <<< k

/-- The STATUS word: TXC and TXIDLE in their bit positions and `other`, any value, in the other bits (R255, U4). -/
def statusWord (l : RegLayout) (txc txidle : Bool) (other : Word) : Word :=
  setBit (setBit other l.txcBit txc) l.txidleBit txidle

/-- The fields of a STATUS value read (R13: `RegRead(F).G`), with the whole word. -/
structure StatusRead where
  txc : Bool
  txidle : Bool
  word : Word
  deriving DecidableEq, Repr, Inhabited

/-- CTRL.LOOPBK as the controller holds it (R41). -/
def ctlLoopbk (s : State) : Bool := s.ctl.ctrl.getLsbD s.cfg.lay.loopbkBit

/-- CTRL.AUTOCS as the controller holds it (R41). -/
def ctlAutocs (s : State) : Bool := s.ctl.ctrl.getLsbD s.cfg.lay.autocsBit

/-- R355 (b): the platform's bits of CTRL are those of an operation as the requirement asks for it (log 22). -/
def modeHolds (s : State) : Bool :=
  s.ctl.ctrl &&& platformMask s.cfg.lay == s.ctl.mode &&& platformMask s.cfg.lay

/-- R355 (c) but for TXC: transmit-idle, no frame in flight, no unread byte. -/
def idleAndEmpty (k : Controller) : Bool := k.txidle && !k.inflight && !k.rxready

/-- R355 (c) whole, what the first TRANSCEIVE after a reset asks for. -/
def readyForFirst (k : Controller) : Bool := idleAndEmpty k && !k.txc

/-- No TRANSCEIVE has been accepted since the last reset: an acceptance is the only write of CMDBUF, which a reset clears
(R22, R53). -/
def noneAccepted (s : State) : Bool := s.cmdbuf.op != 0x3#4

/-- R355 (c) at an acceptance: before the first TRANSCEIVE all of it, later but for TXC, which every frame leaves at 1
(R252; log 8). -/
def readyToAccept (s : State) : Bool := if noneAccepted s then readyForFirst s.ctl else idleAndEmpty s.ctl

/-- FRAME holds the one value the contract covers (R42, R258). -/
def frameCovered (s : State) : Bool := s.ctl.frame == s.cfg.lay.frameValue.setWidth 32

/-- Everything the controller returns is unconstrained (R265, U16): while FAULT_HANG = 1; after a hang, a reset in the
middle of a transaction or a first acceptance with R355 not met, until the platform restores the controller; and for a
transaction that is accepted with R355 not met or during which another agent accesses the controller (R366; log 8). -/
def ctlVoid (s : State) : Bool := s.ctl.isVoid || s.ctl.txnVoid || s.faultHang

/-- The contract of file 45 holds: not void, INIT has run (R259, R355 (a)), auto-chip-select is off (R257, U8), the
controller is in the operation R355 (b) asks for, and a frame in flight is one the contract covers (R258; log 34). -/
def contractHolds (s : State) : Bool :=
  !ctlVoid s && s.inited && !ctlAutocs s && modeHolds s && (!s.ctl.inflight || frameCovered s)

/-- The read just made was the last one POLL_LIMIT allows for the frame (R214). -/
def pollLimitReached (c : Config) (pollcnt : Nat) : Bool :=
  match c.pollLimit with
  | none => false
  | some n => decide (n ≤ pollcnt + 1)

/-- POLLCNT after a read that did not find TXC set (R214): not counted when POLL_LIMIT is INFINITE. -/
def pollCountNext (c : Config) (pollcnt : Nat) : Nat :=
  match c.pollLimit with
  | none => pollcnt
  | some _ => pollcnt + 1

end Sys2Proof.Machine
end

