-- ==== Sys2Proof/Machine/Ops.lean ====
section
/-! DEFINITION. The named operations every meaning is made of: buffer memory, the free values, the event history and
responses, the register port with the controller's immediate effects (R251, R254, R255), the set of waiters, the
guard acquisition (R191), and `raise`, the one way an error ends a transaction (R318). There is no return from an
error (R321): the Sequencer is in IDLE after it. -/

namespace Sys2Proof.Machine

/-- The outcome of a step of this machine. -/
abbrev Result := Host.Outcome State Fault Refusal

/-- What a byte of buffer memory reads as when nothing has written it. The spec leaves it open (R53, U12): zero,
DESIGN CHOICE, unsafe (log 4). -/
def Memory.unlisted (_a : Nat) : Byte := 0x00#8

/-- One byte of buffer memory (R13 MemRead). -/
def Memory.read : Memory → Nat → Byte
  | [], a => Memory.unlisted a
  | (k, v) :: rest, a => if k = a then v else Memory.read rest a

/-- Write one byte (R13 MemWrite), keeping the canonical form. -/
def Memory.write : Memory → Nat → Byte → Memory
  | [], a, b => if b = Memory.unlisted a then [] else [(a, b)]
  | (k, v) :: rest, a, b =>
    if a < k then (if b = Memory.unlisted a then (k, v) :: rest else (a, b) :: (k, v) :: rest)
    else if a = k then (if b = Memory.unlisted a then rest else (a, b) :: rest)
    else (k, v) :: Memory.write rest a b

/-- The canonical form from address `lo` on: addresses rise strictly and exist (R71), no byte is the unlisted one. -/
def Memory.wfFrom : Nat → Memory → Bool
  | _, [] => true
  | lo, (k, v) :: rest =>
    decide (lo ≤ k) && decide (k < addrSpace) && decide (v ≠ Memory.unlisted k) && Memory.wfFrom (k + 1) rest

/-- The canonical form. -/
def Memory.wf (m : Memory) : Bool := Memory.wfFrom 0 m

/-- Add an event to the history (R90). -/
def log (e : Event) (s : State) : State := { s with history := e :: s.history }

/-- `PH <- p` (R12). -/
def goto (p : BitVec 5) (s : State) : State := { s with ph := p }

/-- FREE VALUE: a register value the spec leaves open (log 7). -/
def drawWord (s : State) : Word × State :=
  match s.oracle.reads with
  | w :: rest => (w, { s with oracle := { s.oracle with reads := rest } })
  | [] => (Config.freeWord s.oracle.drawn, { s with oracle := { s.oracle with drawn := s.oracle.drawn + 1 } })

/-- FREE VALUE: the slave's byte, `SlaveByte()` (R262; log 7). -/
def drawByte (s : State) : Byte × State :=
  match s.oracle.slave with
  | b :: rest => (b, { s with oracle := { s.oracle with slave := rest } })
  | [] => (Config.freeByte s.oracle.drawn, { s with oracle := { s.oracle with drawn := s.oracle.drawn + 1 } })

/-- FREE VALUE: an arbitration the spec leaves open (R194, U13; log 7). -/
def drawPick (s : State) : Nat × State :=
  match s.oracle.picks with
  | k :: rest => (k, { s with oracle := { s.oracle with picks := rest } })
  | [] => (Config.freePick s.oracle.drawn, { s with oracle := { s.oracle with drawn := s.oracle.drawn + 1 } })

/-- `Respond(c, R0, R1)` (R13, R112). -/
def respond (c : Nat) (r0 r1 : Word) (s : State) : State := log (.resp c r0 r1) s

/-- The host port's answer to the caller whose packet it is taking, with a cause and a data word (R112, R290). -/
def hostAnswer (c : Cause) (r1 : Word) (s : State) : State := respond s.portCaller (statusR0 c) r1 s

/-- A packet but INIT has its meaning when INITED = 1; before, it has none (R290, R369, U1). INITED is tested at the
submission, so that the host port, which has the test too, never finds it 0 (log 13). -/
def whenInited (s s' : State) : Result := if s.inited then .next s' else .refused .notInitialised

/-- `raise Err(class, cause)` (R318): the one operation by which phases VALIDATE and SETUP end a transaction with an
error. It takes the place of every other write of the phase. -/
def raise (c : Cause) (s : State) : State :=
  respond s.owner (statusR0 c) 0#32
    { s with result := statusR0 c, rdata := 0#32, ctx := { s.ctx with lock := false }, ph := Ph.idle }

/-- MemRead (R13, R74): one byte, none beyond the address space (R71, U23). A byte inside the register window is any
value (U6), because whether the window is one space with buffer memory is the platform's (R71; log 16). -/
def memRead (a : Nat) (s : State) : Option (Byte × State) :=
  if a < addrSpace then
    let d : Byte × State :=
      if inWindow s.cfg a then ((drawWord s).1.setWidth 8, (drawWord s).2) else (s.mem.read a, s)
    some (d.1, log (.memRead a d.1) d.2)
  else none

/-- MemWrite (R13, R74). A byte inside the register window too is taken to go to buffer memory (log 16). -/
def memWrite (a : Nat) (b : Byte) (s : State) : Option State :=
  if a < addrSpace then some (log (.memWrite a b) { s with mem := s.mem.write a b }) else none

/-- The controller's immediate effect of a register write (R77). A TXDATA write starts a frame and clears
transmit-complete and transmit-idle (R251); STATUS and RXDATA are written by no rule (R43, R45). -/
def ctlWrite (r : Reg) (v : Word) (k : Controller) : Controller :=
  match r with
  | .ctrl => { k with ctrl := v }
  | .frame => { k with frame := v }
  | .status => k
  | .txdata =>
    { k with txframe := v.setWidth 8, srOut := v.setWidth 8, inflight := true, txc := false, txidle := false }
  | .rxdata => k
  | .routepen => { k with routepen := v }
  | .routeloc0 => { k with routeloc0 := v }
  | .routeloc1 => { k with routeloc1 := v }

/-- RegWrite (R13, R76). -/
def regWrite (r : Reg) (v : Word) (s : State) : State :=
  log (.regWrite r (regAddr s.cfg r) v) { s with ctl := ctlWrite r v s.ctl }

/-- `RegRead(STATUS)` (R255): the two status bits as they are and any value in the others (U4), no side effect; where
the contract does not hold, any value at all (R265, U16, U8). -/
def readStatus (s : State) : StatusRead × State :=
  let d := drawWord s
  let l := s.cfg.lay
  let r : StatusRead :=
    if contractHolds s then { txc := s.ctl.txc, txidle := s.ctl.txidle, word := statusWord l s.ctl.txc s.ctl.txidle d.1 }
    else { txc := d.1.getLsbD l.txcBit, txidle := d.1.getLsbD l.txidleBit, word := d.1 }
  (r, log (.regRead .status (regAddr s.cfg .status) r.word) d.2)

/-- `RegRead(CTRL)` (R255): the current value, no side effect; any value where the contract does not hold (R265, U8,
U16). -/
def readCtrl (s : State) : Word × State :=
  if contractHolds s then (s.ctl.ctrl, log (.regRead .ctrl (regAddr s.cfg .ctrl) s.ctl.ctrl) s)
  else ((drawWord s).1, log (.regRead .ctrl (regAddr s.cfg .ctrl) (drawWord s).1) (drawWord s).2)

/-- The contract is void for the rest of the transaction if R355 (b) does not hold (R265, R355; log 8). -/
def voidUnlessMode (s : State) : State := { s with ctl := { s.ctl with txnVoid := s.ctl.txnVoid || !modeHolds s } }

/-- RXREADY after a read of RXDATA: cleared (R254), or where the contract does not hold the bit of a free value (R265;
log 8). -/
def rxreadyAfterRead (s : State) (w : Word) : Bool := !contractHolds s && w.getLsbD 8

/-- `RegRead(RXDATA)` (R254): the byte of the last completed frame, RXREADY cleared; any byte where there is no unread
one (U11) or the contract does not hold (R265). -/
def readRxdata (s : State) : Byte × State :=
  let d := drawWord s
  let r : Byte × State := if contractHolds s && s.ctl.rxready then (s.ctl.rxh, s) else (d.1.setWidth 8, d.2)
  (r.1, log (.regRead .rxdata (regAddr s.cfg .rxdata) (r.1.setWidth 32))
    { r.2 with ctl := { r.2.ctl with rxready := rxreadyAfterRead s d.1 } })

/-- Add or replace a caller's entry; callers stay strictly rising (log 29). -/
def insertPending (e : Pending) : List Pending → List Pending
  | [] => [e]
  | x :: rest =>
    if e.caller < x.caller then e :: x :: rest
    else if e.caller = x.caller then e :: rest
    else x :: insertPending e rest

/-- The entry of a caller. -/
def findPending (c : Nat) (l : List Pending) : Option Pending := l.find? (fun e => e.caller == c)

/-- Remove a caller's entry. -/
def erasePending (c : Nat) (l : List Pending) : List Pending := l.filter (fun e => e.caller != c)

/-- A buffer of the packet overlaps the register window (R355 (d), U6). -/
def packetOverlaps (c : Config) (p : Packet) : Bool :=
  overlapsWindow c (cmdTxPtr p) (cmdTxLen p) || overlapsWindow c (cmdRxPtr p) (cmdRxLen p)

/-- A transaction accepted now has no contract: FAULT_HANG = 1 (R265), or R355 does not hold at its acceptance (R366),
in (b), in (c), or in (d), its buffers overlapping the register window (U6; log 8, log 16). -/
def voidAtAcceptance (p : Packet) (s : State) : Bool :=
  s.faultHang || !modeHolds s || !readyToAccept s || packetOverlaps s.cfg p

/-- ACQUIRE (R191), one indivisible step. The caller leaves WAITERS, and with NONBLOCKING = 1 the place where it stands
then (log 12). The contract is void for this transaction exactly if R355 does not hold now (R366), and where it is the
first one, so that the boot requirements were not met (R265), until the platform restores the controller (log 8). -/
def acquire (w : Pending) (s : State) : State :=
  { s with ctx := { s.ctx with lock := true }, owner := w.caller, cmdbuf := w.packet
           waiters := erasePending w.caller s.waiters, ph := Ph.validate
           offered := if s.cfg.nonblocking then erasePending w.caller s.offered else s.offered
           pending := if s.cfg.nonblocking then erasePending w.caller s.pending else s.pending
           ctl := { s.ctl with txnVoid := voidAtAcceptance w.packet s
                               isVoid := s.ctl.isVoid || (noneAccepted s && voidAtAcceptance w.packet s) } }

/-- The caller has a packet outstanding (R292): held for the host port, waiting, or being worked on. -/
def outstanding (c : Nat) (s : State) : Bool :=
  (findPending c s.pending).isSome || (findPending c s.waiters).isSome || (findPending c s.offered).isSome ||
  s.initPending == some c || (s.ph != Ph.idle && s.owner == c)

/-- The agenda's next move, or a free one (log 1). -/
def nextMove (s : State) : Move :=
  match s.agenda with
  | m :: _ => m
  | [] => Config.freeMove s.oracle.drawn

/-- The state once the next move is taken off the agenda. -/
def afterMove (s : State) : State :=
  match s.agenda with
  | _ :: rest => { s with agenda := rest }
  | [] => { s with oracle := { s.oracle with drawn := s.oracle.drawn + 1 } }

/-- The host port takes the packet of caller `c`: it leaves the pending packets, and `portCaller` is its submitter. -/
def takePacket (c : Nat) (s : State) : State := { s with pending := erasePending c s.pending, portCaller := c }

/-- `s` with the Sequencer at phase code `p` and the next to move (log 14). -/
def placePhase (p : BitVec 5) (s : State) : State := { s with ph := p, agenda := .sequencer :: s.agenda }

end Sys2Proof.Machine
end

