-- ==== Sys2Proof/Machine/ConfigValidator.lean ====
section
/-! DEFINITION. ConfigValidator (file 40): the function `validate` with its eight checks, the phase VALIDATE that runs
it in a transaction, and the phases CFG_CTRL and CFG_FRAME that write its result. -/

namespace Sys2Proof.Machine

/-- The result of `validate` (R151): an encoding, or the cause of the first check that failed. -/
inductive Validated where
  | ok (e : Enc)
  | err (c : Cause)
  deriving DecidableEq, Repr, Inhabited

/-- Check 1 (R141). -/
def checkCsIndex (d : BitVec 24) : Bool := decide ((descCsidx d).toNat < csCount)
/-- Check 2 (R142). -/
def checkWordSize (d : BitVec 24) : Bool := descWsize d == frameBits
/-- Check 3 (R143). -/
def checkCsPolarity (d : BitVec 24) : Bool := descCshigh d == 0#1
/-- Check 4 (R144). -/
def checkLockOn (d : BitVec 24) : Bool := descLockon d == 0#1
/-- Check 5 (R145). -/
def checkLineMode (d : BitVec 24) : Bool := descLines d == 0#2
/-- Check 6 (R146). -/
def checkBitOrder (d : BitVec 24) : Bool := descLsbf d == 0#1
/-- Check 7 (R147). -/
def checkClockMode (d : BitVec 24) : Bool := descCpol d == 0#1 && descCpha d == 0#1
/-- Check 8 (R148). -/
def checkRole (d : BitVec 24) : Bool := descRole d == 0#1

/-- The encoding of an accepted descriptor (R110, R111, R150). -/
def encodingOf (l : RegLayout) (d : BitVec 24) : Enc :=
  { frame := l.frameValue, loopbk := descLoop d == 1#1, autocs := false }

/-- `validate` (R151): the checks in the source's order, the first failure wins. -/
def validate (l : RegLayout) (d : BitVec 24) : Validated :=
  if !checkCsIndex d then .err .csIndex
  else if !checkWordSize d then .err .wordSize
  else if !checkCsPolarity d then .err .csPolarity
  else if !checkLockOn d then .err .lockOn
  else if !checkLineMode d then .err .lineMode
  else if !checkBitOrder d then .err .bitOrder
  else if !checkClockMode d then .err .clockMode
  else if !checkRole d then .err .role
  else .ok (encodingOf l d)

/-- Phase VALIDATE (R153). -/
def execValidatePh (s : State) : Result :=
  match validate s.cfg.lay (desc s) with
  | .ok e => .next (goto Ph.cfgCtrl { s with enc := e })
  | .err c => .next (raise c s)

/-- Phase CFG_CTRL (R154): one read and one write of CTRL. A read that was free may leave the platform's bits other
than R355 (b) asks for, and the contract is void for this transaction then (log 9). -/
def execCfgCtrl (s : State) : Result :=
  let r := readCtrl s
  .next (goto Ph.cfgFrame (voidUnlessMode (regWrite .ctrl (ctrlUpdate s.cfg.lay r.1 s.enc) r.2)))

/-- Phase CFG_FRAME (R155): one write of FRAME. -/
def execCfgFrame (s : State) : Result :=
  .next (goto Ph.setup (regWrite .frame (s.enc.frame.setWidth 32) s))

end Sys2Proof.Machine
end

