-- ==== Sys2Proof/Machine/HostCommands.lean ====
section
/-! DEFINITION. Host commands (file 46): INIT, VALIDATE, TRANSCEIVE, TRANSCEIVE_ASYNC (CANRELEASE stands in
ReleaseGuard), the phase IDLE, and the INIT phases that belong to no other component. A command's meaning is what its
packet, submitted by `portCaller`, does: at its submission that of an INIT, which is pending from then on (R291), and of
a TRANSCEIVE that joins WAITERS (R38, R285), and when the host port answers it that of any other (R290; Agents.lean). The
phases of INIT and TRANSCEIVE begin in IDLE (R291). -/

namespace Sys2Proof.Machine

/-- Command INIT (R280): it waits for the IDLE step to accept it. An INIT while INITED = 1, or a second one, has no
meaning (U1, R369; log 13). -/
def execInit (s : State) : Result :=
  if s.inited || s.initPending.isSome || s.ph != Ph.idle then .refused .initAgain
  else .next { s with initPending := some s.portCaller }

/-- Command VALIDATE (R284): the function `validate` on the operand, answered at once. -/
def execValidate (d : BitVec 24) (s : State) : Result :=
  whenInited s (match validate s.cfg.lay d with
    | .ok e => hostAnswer .none (packEnc e) s
    | .err c => hostAnswer c 0#32 s)

/-- The guard is held and acquisition is non-blocking: the BUSY test (R193, R290). -/
def busyNow (s : State) : Bool := s.ctx.lock && s.cfg.nonblocking

/-- Caller `c` joins WAITERS, the callers with a TRANSCEIVE submitted and not yet accepted (R38, R192, R285), with its
packet as submitted (R86), and by its submission (log 33). -/
def joinWaiters (c : Nat) (p : Packet) (s : State) : State :=
  { s with waiters := insertPending { caller := c, packet := p } s.waiters }

/-- With NONBLOCKING = 1 caller `c`, whose packet has found the guard free, is one whom a later IDLE step accepts (R193,
R285), by its submission. It is never tested again and never answered BUSY; it stands apart from WAITERS, which is empty
then (R38; log 12). -/
def joinOffered (c : Nat) (p : Packet) (s : State) : State :=
  { s with offered := insertPending { caller := c, packet := p } s.offered }

/-- Command TRANSCEIVE (R285): BUSY at once (R193), or the caller joins those whom a later IDLE step accepts, WAITERS
(R192) or, with NONBLOCKING = 1, `offered` (R38, R193). A transfer that wraps the address space is not admitted (R75,
U5; log 15). -/
def execTransceive (cnt : BitVec 4) (d : BitVec 24) (txPtr txLen rxPtr rxLen : Word) (s : State) : Result :=
  if !s.inited then .refused .notInitialised
  else if busyNow s then .next (hostAnswer .contextEngaged 0#32 s)
  else if !transferFits txPtr txLen rxPtr rxLen then .refused .bufferWraps
  else
    let p := transferPacket 0x3#4 cnt d txPtr txLen rxPtr rxLen
    .next (if s.cfg.nonblocking then joinOffered s.portCaller p s else joinWaiters s.portCaller p s)

/-- Command TRANSCEIVE_ASYNC (R287): NOTSUP at once; no operand is read. -/
def execTransceiveAsync (_cnt : BitVec 4) (_d : BitVec 24) (_txPtr _txLen _rxPtr _rxLen : Word) (s : State) : Result :=
  whenInited s (hostAnswer .asyncUnimplemented 0#32 s)

/-- The IDLE step accepts the INIT of caller `c` (R280, R291). -/
def acceptInit (c : Nat) (s : State) : State := goto Ph.initClock { s with owner := c, initPending := none }

/-- A TRANSCEIVE that was submitted while the guard was held and is not answered BUSY yet. The answer looks at the guard
when it is given, and with the guard free the Sequencer accepts the packet (R290; log 12), if no buffer wraps (R75). -/
def unanswered (e : Pending) : Bool :=
  e.packet.op == 0x3#4 && transferFits e.packet.w1 e.packet.w2 e.packet.w3 e.packet.w4

/-- Whom the IDLE step may accept (R291): the members of WAITERS, or with NONBLOCKING = 1 those who have found the guard
free (R193; log 12), on arrival or before they were answered (R290). -/
def candidates (s : State) : List Pending :=
  if s.cfg.nonblocking then s.offered ++ s.pending.filter unanswered else s.waiters

/-- The IDLE step accepts a candidate (R291): the only one, or any of several, the choice being free (R194). -/
def acceptWaiter (s : State) : State :=
  match candidates s with
  | [] => goto Ph.idle s
  | [w] => acquire w s
  | w :: rest =>
    let k := drawPick s
    acquire (((w :: rest)[k.1 % (w :: rest).length]?).getD w) k.2

/-- Phase IDLE (R291). -/
def execIdle (s : State) : Result :=
  .next (if s.inited then (if s.ctx.lock then goto Ph.idle s else acceptWaiter s)
         else match s.initPending with
          | some c => acceptInit c s
          | none => goto Ph.idle s)

/-- Phase INIT_CLOCK (R281). -/
def execInitClock (s : State) : Result := .next (goto Ph.initPins (log (.enableClock s.cfg.clockId) s))

/-- Phase INIT_PINS (R282): the four calls in the order clock, data-out, data-in, chip-select. -/
def execInitPins (s : State) : Result :=
  let b := s.cfg.pins
  .next (goto Ph.routeDisable
    (log (.configurePin b.cs.pin .pushPull)
      (log (.configurePin b.din.pin .input)
        (log (.configurePin b.dout.pin .pushPull)
          (log (.configurePin b.clk.pin .pushPull) s)))))

/-- Phase INIT_CONTEXT (R283). -/
def execInitContext (s : State) : Result :=
  .next (goto Ph.idle (respond s.owner (statusR0 .none) 0#32
    { s with ctx := { txPtr := 0#32, txLen := 0#32, rxPtr := 0#32, rxLen := 0#32, status := causeCode .none
                      done := false, lock := false }
             inited := true, result := statusR0 .none, rdata := 0#32 }))

end Sys2Proof.Machine
end

