-- ==== Sys2Proof/Machine/SerialController.lean ====
section
/-! DEFINITION. The consumed serial controller's own step (file 45) and the edge-level picture of one frame. It is a
component of another agent, held apart from the Sequencer (R250). -/

namespace Sys2Proof.Machine

/-- The step CompleteFrame with received byte `r` and the wire showing `mosi`, `miso` (R252). -/
def finishFrame (r mosi miso : Byte) (s : State) : State :=
  log (.frame s.csn mosi miso (routeOf s.cfg.lay s.ctl))
    { s with ctl := { s.ctl with rxh := r, srIn := r, rxready := true, txc := true, txidle := true, inflight := false } }

/-- The controller's step where the contract does not hold: a frame may or may not have been in the shifter, and every
bit the controller holds of it and every byte on the wire is free (R257, R258, R259, R265, R355, U8, U16; log 8, 9, 31,
34). Taken during a transaction it leaves the contract void for that transaction (log 8). -/
def strayFrame (s : State) : State :=
  let d := drawWord s
  let w := d.1
  log (.frame d.2.csn (w.extractLsb' 0 8) (w.extractLsb' 8 8) (routeOf s.cfg.lay s.ctl))
    { d.2 with ctl := { d.2.ctl with
        rxh := w.extractLsb' 16 8, srIn := w.extractLsb' 16 8, rxready := w.getLsbD 24, txc := w.getLsbD 25
        txidle := w.getLsbD 26, inflight := w.getLsbD 27, txnVoid := d.2.ctl.txnVoid || d.2.ctx.lock } }

/-- The controller's own step (R252), enabled when INFLIGHT = 1: loopback returns the byte sent (R256), otherwise
`SlaveByte()` (R262), which is also what an unconnected data-in reads (R259). A frame with another FRAME than the one
R258 covers is none the contract speaks of, and ends as a stray frame (`contractHolds`; log 34). An agent that has no step enabled leaves
everything as it is. -/
def completeFrame (s : State) : State :=
  if !contractHolds s then strayFrame s
  else if !s.ctl.inflight then s
  else if ctlLoopbk s then finishFrame s.ctl.txframe s.ctl.txframe s.ctl.txframe s
  else finishFrame (drawByte s).1 s.ctl.txframe (drawByte s).1 (drawByte s).2

/-- One edge-level happening of a frame (R260). -/
inductive Edge where
  /-- Data-out takes a value while the clock is low. -/
  | mosi (b : Bool)
  /-- The clock rises, and the input bit is sampled. -/
  | rise (sampled : Bool)
  /-- The clock falls. -/
  | fall
  deriving DecidableEq, Repr, Inhabited

/-- One clock pulse of a frame of byte `b`, bit `k`, the data-in bit being that of `miso` (R260). -/
def pulse (loopbk : Bool) (b miso : Byte) (k : Nat) : List Edge :=
  [.mosi (b.getLsbD k), .rise (if loopbk then b.getLsbD k else miso.getLsbD k), .fall]

/-- The eight pulses, most significant bit first (R260, R261). -/
def frameEdges (loopbk : Bool) (b miso : Byte) : List Edge :=
  pulse loopbk b miso 7 ++ pulse loopbk b miso 6 ++ pulse loopbk b miso 5 ++ pulse loopbk b miso 4 ++
  pulse loopbk b miso 3 ++ pulse loopbk b miso 2 ++ pulse loopbk b miso 1 ++ pulse loopbk b miso 0

/-- What one edge shows on the pins: the output signals of the roles that are connected, each at its location code,
nothing of a role that is disconnected (R259; log 25). -/
def pinsOf (r : Route) : Edge → List (Byte × Bool)
  | .mosi b => r.dout.toList.map (fun loc => (loc, b))
  | .rise _ => r.clk.toList.map (fun loc => (loc, true))
  | .fall => r.clk.toList.map (fun loc => (loc, false))

/-- What the edges of a frame show on the pins, in order. In loopback this is one of the things U21 allows, and nothing
is said of it (log 25). -/
def pinEdges (r : Route) (l : List Edge) : List (Byte × Bool) := l.flatMap (pinsOf r)

/-- The receive half of the shift register after the edges: each sampled bit is shifted in at the low end. -/
def shiftIn : List Edge → Byte → Byte
  | [], r => r
  | .rise b :: rest, r => shiftIn rest (r <<< 1 ||| (if b then 1#8 else 0#8))
  | .mosi _ :: rest, r => shiftIn rest r
  | .fall :: rest, r => shiftIn rest r

/-- The edges of the clock in a list: rising and falling (R260). -/
def clockEdges (l : List Edge) : Nat :=
  (l.filter (fun e => match e with
    | .rise _ => true
    | .fall => true
    | .mosi _ => false)).length

end Sys2Proof.Machine
end

