-- ==== Sys2Proof/Machine/Agents.lean ====
section
/-! DEFINITION. The agents' turns (R15): which instruction a move fetches and from where, and what the moves do that
run no instruction: the answer to an illegal packet, a submission, the controller's step, the other writers of memory
and of the controller's registers, and reset. -/

namespace Sys2Proof.Machine

/-- What a turn is: an instruction to run in a state, or an outcome without one. -/
inductive Turn where
  | run (i : Instr) (s : State)
  | done (o : Host.Outcome State Fault Refusal)

/-- The answer to an illegal packet (R289): no state change; before INIT it has no meaning (U1). -/
def answerIllegal (s : State) : Result := whenInited s (hostAnswer .illegalCmd 0#32 s)

/-- The Sequencer's turn: the phase PH names (R29, R81). -/
def sequencerTurn (s : State) : Turn :=
  match decodePhase s.ph with
  | .instr i => .run i s
  | .reject _ => .done (.refused .reservedPhase)

/-- The command is the Sequencer's: INIT, and a TRANSCEIVE that is not answered BUSY and whose buffers fit (R75). It needs
no answer of the host port, and the Sequencer accepts it in IDLE (R15, R290). A phase is no packet. -/
def forSequencer (i : Instr) (s : State) : Bool :=
  match i with
  | .init => true
  | .transceive _ _ txPtr txLen rxPtr rxLen => !busyNow s && transferFits txPtr txLen rxPtr rxLen
  | .validate _ | .transceiveAsync _ _ _ _ _ _ | .canRelease => false
  | .idle | .validatePh | .cfgCtrl | .cfgFrame | .setup | .csAssert | .txFetch | .txWrite | .pollTxc | .rxRead | .rxStore
  | .csDeassert | .complete | .initClock | .initPins | .routeDisable | .routeLoc0 | .routeLoc1 | .routeEnable
  | .initContext => false

/-- The host port's turn: it answers the packet of caller `c`, and leaves one of the Sequencer's where it is (R290). -/
def hostPortTurn (c : Nat) (s : State) : Turn :=
  match findPending c s.pending with
  | none => .done (.next s)
  | some e =>
    match decodePacket e.packet with
    | .instr i => if forSequencer i s then .done (.next s) else .run i (takePacket c s)
    | .reject _ => .done (answerIllegal (takePacket c s))

/-- A packet is left for the host port to answer (R290). Before INIT it has no meaning (R369, U1; log 13). -/
def holdPacket (c : Nat) (p : Packet) (s : State) : Result :=
  whenInited s { s with pending := insertPending { caller := c, packet := p } s.pending }

/-- The submission `p` of caller `c` (R73): a command of the Sequencer's takes its effect, an INIT is pending and a
TRANSCEIVE has joined WAITERS from here on (R38, R285, R291; log 33); any other packet is left for the host port. -/
def submittedTurn (c : Nat) (p : Packet) (s : State) : Turn :=
  match decodePacket p with
  | .instr i => if forSequencer i s then .run i { s with portCaller := c } else .done (holdPacket c p s)
  | .reject _ => .done (holdPacket c p s)

/-- Caller `c` submits `p` (R73, R292). A second packet has no meaning (U18); there is no caller beyond N_CALLERS
(R9; log 17). -/
def submitTurn (c : Nat) (p : Packet) (s : State) : Turn :=
  if s.cfg.nCallers ≤ c then .done (.next s)
  else if outstanding c s then .done (.refused .secondPacket)
  else submittedTurn c p (log (.submit c p.words) s)

/-- Another agent writes a byte of buffer memory (U7): the byte takes the value, nothing is detected. -/
def callerStore (a : Word) (b : Byte) (s : State) : State := { s with mem := s.mem.write a.toNat b }

/-- Outside a transaction another agent may write CTRL, FRAME, TXDATA and the routing registers, each write having its
effect; whether R355 holds again the next acceptance says (`voidAtAcceptance`), and of (b) at once `modeHolds`. A write
during a transaction voids the contract for that transaction (R359, R366); so does one of a read-only register or of
TXDATA with a frame in flight (U10), until the next acceptance (log 22). -/
def platformWriteKeeps (r : Reg) (s : State) : Bool :=
  !s.ctx.lock && (match r with
    | .ctrl => true
    | .frame => true
    | .status => false
    | .txdata => !s.ctl.inflight
    | .rxdata => false
    | .routepen => true
    | .routeloc0 => true
    | .routeloc1 => true)

/-- Another agent writes a register of the controller (R366). -/
def platformWrite (r : Reg) (v : Word) (s : State) : State :=
  let k := ctlWrite r v s.ctl
  { s with ctl := { k with txnVoid := k.txnVoid || !platformWriteKeeps r s } }

/-- Another agent reads a register (R366): harmless but for RXDATA, whose read clears RXREADY (R254) and voids the
contract for the transaction in progress. -/
def platformRead (r : Reg) (s : State) : State :=
  if r = .rxdata then
    let d := drawWord s
    { d.2 with ctl := { s.ctl with rxready := rxreadyAfterRead s d.1, txnVoid := s.ctl.txnVoid || s.ctx.lock } }
  else s

/-- The platform brings the controller to the state R355 (b), (c) asks for, with `v` in CTRL; done during a transaction
it is a write by another agent (R366), and what made the contract void before stays (log 22). -/
def platformRestore (v : Word) (s : State) : State :=
  { s with ctl := { s.ctl with
      ctrl := v, mode := v, txc := false, txidle := true, inflight := false, rxready := false
      isVoid := s.ctl.isVoid && s.ctx.lock, txnVoid := s.ctx.lock } }

/-- Reset as an event (R350, R352): SPIMSEQ's own state takes its reset values, the outstanding commands get no
response, CSN rises at once; the controller, memory and the world stay as they are. The contract is void after a
reset in the middle of anything (R352) and where the controller is not as R355 (c) asks for the first transaction; it
stays void if the platform has not restored the controller since it became so (R365), and what another agent did in the
last transaction lasts until the next acceptance (log 23). -/
def resetEvent (s : State) : State :=
  let s0 := State.resetWith s.cfg
  let s1 := { s0 with
    ctl := { s.ctl with isVoid := s.ctl.isVoid || s.ph != Ph.idle || !readyForFirst s.ctl }
    mem := s.mem, agenda := s.agenda, oracle := s.oracle, history := s.history }
  if s.csn = 0b111#3 then s1 else log (.csn 0b111#3) s1

/-- What the next move of `s` is, in the state with the move taken off the agenda. Parameters outside the admitted
values have no meaning (U19). -/
def turn (s : State) : Turn :=
  if !s.cfg.wf then .done (.refused .parametersNotAdmitted)
  else match nextMove s with
    | .sequencer => sequencerTurn (afterMove s)
    | .hostPort c => hostPortTurn c (afterMove s)
    | .controller => .done (.next (completeFrame (afterMove s)))
    | .submit c p => submitTurn c p (afterMove s)
    | .callerStore a b => .done (.next (callerStore a b (afterMove s)))
    | .platformWrite r v => .done (.next (platformWrite r v (afterMove s)))
    | .platformRead r => .done (.next (platformRead r (afterMove s)))
    | .platformRestore v => .done (.next (platformRestore v (afterMove s)))
    | .reset => .done (.next (resetEvent (afterMove s)))

/-- `s` with packet `p` of caller 0 about to run: its submission is the next move where its command takes effect in it,
else it is submitted and the host port moves next. INITED is as R290 asks of the packet, 0 for INIT, 1 for the others
(log 14). -/
def placePacket (p : Packet) (s : State) : State :=
  let s1 := { s with inited := p.op != 0x1#4 }
  let held := { s1 with pending := insertPending { caller := 0, packet := p } s.pending, agenda := .hostPort 0 :: s.agenda }
  match decodePacket p with
  | .instr i => if forSequencer i s then { s1 with agenda := .submit 0 p :: s.agenda } else held
  | .reject _ => held

/-- The row's instruction put where the next step takes it from (log 14, log 28). -/
def placeTableWord (nbits w : Nat) (s : State) : State :=
  if isPhaseRow nbits then placePhase (phaseOfTableWord w) s else placePacket (packetOfTableWord w) s

end Sys2Proof.Machine
end

