-- ==== Sys2Proof/Machine/PinRouter.lean ====
section
/-! DEFINITION. PinRouter (file 41): the four routing phases of INIT. They read no state of SPIMSEQ and write none but
PH (R176). -/

namespace Sys2Proof.Machine

/-- Phase ROUTE_DISABLE (R171). -/
def execRouteDisable (s : State) : Result := .next (goto Ph.routeLoc0 (regWrite .routepen 0x00000000#32 s))

/-- Phase ROUTE_LOC0 (R172). -/
def execRouteLoc0 (s : State) : Result := .next (goto Ph.routeLoc1 (regWrite .routeloc0 (routeloc0Value s.cfg) s))

/-- Phase ROUTE_LOC1 (R173). -/
def execRouteLoc1 (s : State) : Result :=
  .next (goto Ph.routeEnable (regWrite .routeloc1 s.cfg.lay.routeloc1Default s))

/-- Phase ROUTE_ENABLE (R174). -/
def execRouteEnable (s : State) : Result := .next (goto Ph.initContext (regWrite .routepen s.cfg.lay.routepenAll s))

end Sys2Proof.Machine
end

