-- ==== Sys2Proof/Machine/ReleaseGuard.lean ====
section
/-! DEFINITION. ReleaseGuard (file 44): the query `canRelease` and the command CANRELEASE that runs it. -/

namespace Sys2Proof.Machine

/-- `canRelease` (R240): one read of STATUS, the transmit-idle bit, and the state after the read. -/
def canRelease (s : State) : Bool × State := ((readStatus s).1.txidle, (readStatus s).2)

/-- Command CANRELEASE (R288): answered at once in any phase, no state of SPIMSEQ read or written. -/
def execCanRelease (s : State) : Result :=
  let r := canRelease s
  whenInited s (if r.1 then hostAnswer .none 1#32 r.2 else hostAnswer .notIdle 0#32 r.2)

end Sys2Proof.Machine
end

