-- ==== Sys2Proof/Machine/TransceiveEngine.lean ====
section
/-! DEFINITION. TransceiveEngine (file 43): chip-select assertion, the five phases of one frame, chip-select
deassertion, and the hang path. -/

namespace Sys2Proof.Machine

/-- `CSN <- v`, with the change recorded (R34, R90). -/
def driveCsn (v : BitVec 3) (s : State) : State := log (.csn v) { s with csn := v }

/-- Phase CS_ASSERT (R211). -/
def execCsAssert (s : State) : Result := .next (goto Ph.txFetch (driveCsn (csnFor (descCsidx (desc s))) s))

/-- Phase TX_FETCH (R212). -/
def execTxFetch (s : State) : Result :=
  if s.idx < s.ctx.txLen then
    match memRead (txAddr s) s with
    | some (b, s') => .next (goto Ph.txWrite { s' with txb := b })
    | none => .fault .outsideMemory
  else .next (goto Ph.txWrite { s with txb := dummyByte })

/-- Phase TX_WRITE (R213). A write while a frame is in flight has no meaning while the contract holds (R251, U10). -/
def execTxWrite (s : State) : Result :=
  if contractHolds s && s.ctl.inflight then .refused .txdataInFlight
  else .next (goto Ph.pollTxc { regWrite .txdata (s.txb.setWidth 32) s with pollcnt := 0 })

/-- The hang path of POLL_TXC (R214, R218). The contract is void until the platform restores the controller and resets
the block (R265, R365). -/
def hang (s : State) : State :=
  goto Ph.csDeassert { s with xstat := causeCode .txcTimeout, faultHang := true, ctl := { s.ctl with isVoid := true } }

/-- Phase POLL_TXC (R214): one read of STATUS. -/
def execPollTxc (s : State) : Result :=
  let r := readStatus s
  .next (if r.1.txc then goto Ph.rxRead r.2
         else if pollLimitReached s.cfg s.pollcnt then hang r.2
         else goto Ph.pollTxc { r.2 with pollcnt := pollCountNext s.cfg s.pollcnt })

/-- Phase RX_READ (R215): RXDATA is read in every frame. -/
def execRxRead (s : State) : Result :=
  let r := readRxdata s
  .next (goto Ph.rxStore { r.2 with rxb := r.1 })

/-- The end of a frame (R216): count it, and go on to the next or to chip-select deassertion. -/
def nextFrame (s : State) : State :=
  { s with idx := s.idx + 1#32
           ph := if s.idx.toNat + 1 < (longest s).toNat then Ph.txFetch else Ph.csDeassert }

/-- Phase RX_STORE (R216). -/
def execRxStore (s : State) : Result :=
  if s.idx < s.ctx.rxLen then
    match memWrite (rxAddr s) s.rxb s with
    | some s' => .next (nextFrame s')
    | none => .fault .outsideMemory
  else .next (nextFrame s)

/-- Phase CS_DEASSERT (R217). -/
def execCsDeassert (s : State) : Result := .next (goto Ph.complete (driveCsn 0b111#3 s))

end Sys2Proof.Machine
end

