-- ==== Sys2Proof/Machine/TransferContext.lean ====
section
/-! DEFINITION. TransferContext (file 42): the phases SETUP and COMPLETE. The guard acquisition is `acquire`, the
longest length `longest`. -/

namespace Sys2Proof.Machine

/-- Phase SETUP (R195). -/
def execSetup (s : State) : Result :=
  let p := s.cmdbuf
  if p.cnt ≠ pairCount then .next (raise .pairCount s)
  else
    .next { s with
      ctx := { s.ctx with txPtr := cmdTxPtr p, txLen := cmdTxLen p, rxPtr := cmdRxPtr p, rxLen := cmdRxLen p
                          done := false }
      xstat := causeCode .none
      idx := 0#32
      ph := if maxLen (cmdTxLen p) (cmdRxLen p) = 0#32 then Ph.complete else Ph.csAssert }

/-- The status word COMPLETE sends (R197). -/
def completeR0 (xstat : Byte) : Word := if xstat = causeCode .none then statusR0 .none else statusR0 .txcTimeout

/-- Phase COMPLETE (R197). -/
def execComplete (s : State) : Result :=
  .next (goto Ph.idle (respond s.owner (completeR0 s.xstat) s.idx
    { s with ctx := { s.ctx with status := s.xstat, done := true, lock := false }
             result := completeR0 s.xstat, rdata := s.idx }))

end Sys2Proof.Machine
end

