-- ==== Sys2Proof/Machine/Dispatch.lean ====
section
/-! DEFINITION. One arm per instruction. -/

namespace Sys2Proof.Machine

def exec (i : Instr) (s : State) : Host.Outcome State Fault Refusal :=
  match i with
  | .init => Sys2Proof.Machine.execInit s
  | .validate desc => Sys2Proof.Machine.execValidate desc s
  | .transceive cnt desc txPtr txLen rxPtr rxLen => Sys2Proof.Machine.execTransceive cnt desc txPtr txLen rxPtr rxLen s
  | .transceiveAsync cnt desc txPtr txLen rxPtr rxLen => Sys2Proof.Machine.execTransceiveAsync cnt desc txPtr txLen rxPtr rxLen s
  | .canRelease => Sys2Proof.Machine.execCanRelease s
  | .idle => Sys2Proof.Machine.execIdle s
  | .validatePh => Sys2Proof.Machine.execValidatePh s
  | .cfgCtrl => Sys2Proof.Machine.execCfgCtrl s
  | .cfgFrame => Sys2Proof.Machine.execCfgFrame s
  | .setup => Sys2Proof.Machine.execSetup s
  | .csAssert => Sys2Proof.Machine.execCsAssert s
  | .txFetch => Sys2Proof.Machine.execTxFetch s
  | .txWrite => Sys2Proof.Machine.execTxWrite s
  | .pollTxc => Sys2Proof.Machine.execPollTxc s
  | .rxRead => Sys2Proof.Machine.execRxRead s
  | .rxStore => Sys2Proof.Machine.execRxStore s
  | .csDeassert => Sys2Proof.Machine.execCsDeassert s
  | .complete => Sys2Proof.Machine.execComplete s
  | .initClock => Sys2Proof.Machine.execInitClock s
  | .initPins => Sys2Proof.Machine.execInitPins s
  | .routeDisable => Sys2Proof.Machine.execRouteDisable s
  | .routeLoc0 => Sys2Proof.Machine.execRouteLoc0 s
  | .routeLoc1 => Sys2Proof.Machine.execRouteLoc1 s
  | .routeEnable => Sys2Proof.Machine.execRouteEnable s
  | .initContext => Sys2Proof.Machine.execInitContext s

end Sys2Proof.Machine
end

