-- ==== Sys2Proof/Machine/Step.lean ====
section
/-! DEFINITION. One step of the whole system: one step of one agent (R15). Also the place where an instruction is put
for the next step. -/

namespace Sys2Proof.Machine

/-- One step: the agent whose turn it is runs an instruction, or does what its move is. -/
def step (s : State) : Host.Outcome State Fault Refusal :=
  match turn s with
  | .run i s' => exec i s'
  | .done o => o

/-- `s` with the instruction of a table row put where the next step takes it from (log 14, log 28). -/
def State.withFetchWord (s : State) (nbits w : Nat) : State := placeTableWord nbits w s

end Sys2Proof.Machine
end

