-- ==== Sys2Proof/Machine/Run.lean ====
section
/-! DEFINITION. The end of a run and what is observed of it (R371). -/

namespace Sys2Proof.Machine

/-- A run is finished (R371): PH = IDLE, WAITERS empty, no caller with a packet outstanding, INFLIGHT = 0. -/
def runFinished (s : State) : Bool :=
  s.ph == Ph.idle && s.waiters.isEmpty && s.offered.isEmpty && s.pending.isEmpty && s.initPending.isNone && !s.ctl.inflight

/-- In a history, latest event first, the latest packet of caller `c` has its response. -/
def responseSent (c : Nat) : List Event → Bool
  | [] => false
  | .resp d _ _ :: rest => d == c || responseSent c rest
  | .submit d _ :: rest => d != c && responseSent c rest
  | _ :: rest => responseSent c rest

/-- The response to the latest packet of caller `c` has been sent: its transaction, if it was one, is finished (R371).
One that a reset has dropped never is (R352). -/
def answered (c : Nat) (s : State) : Bool := responseSent c s.history

/-- The response packets of a history, oldest first. -/
def responses : List Event → List (Nat × Word × Word)
  | [] => []
  | .resp c r0 r1 :: rest => responses rest ++ [(c, r0, r1)]
  | _ :: rest => responses rest

/-- The observable result of a run (R371). -/
structure Observed where
  /-- The response packets in the order they were sent, each with its caller. -/
  responses : List (Nat × Word × Word)
  mem : Memory
  /-- The event history (R90), oldest first. -/
  history : List Event
  status : Byte
  done : Bool
  faultHang : Bool
  result : Word
  rdata : Word
  deriving DecidableEq, Repr, Inhabited

/-- What is observed of a run that ends in `s`. -/
def observe (s : State) : Observed where
  responses := responses s.history
  mem := s.mem
  history := s.history.reverse
  status := s.ctx.status
  done := s.ctx.done
  faultHang := s.faultHang
  result := s.result
  rdata := s.rdata

/-- The sequence of response packets to caller `c` (R371). -/
def answersTo (c : Nat) (o : Observed) : List (Word × Word) := (o.responses.filter (fun r => r.1 == c)).map (·.2)

end Sys2Proof.Machine
end

