-- ==== Sys2Proof/Safety.lean ====
section
/-! DEFINITION. What counts as a safe run, in the terms the claims use: the invariants of R39 and what they need, the
transfer, controller and memory invariants, the order of routing writes (R175), the balance of packets and responses
(R292), and the status words that may be sent (R114). -/

namespace Sys2Proof.Machine

/-- PH is one of the phases with codes `lo` to `hi` (R116). -/
abbrev inPhases (lo hi : Nat) (s : State) : Prop := lo ≤ s.ph.toNat ∧ s.ph.toNat ≤ hi

/-- The next move is `m`, and the parameters are admitted. -/
abbrev movesNext (m : Move) (s : State) : Prop := s.cfg.wf = true ∧ nextMove s = m

/-- Neither buffer of the packet passes the top of the address space (R75). -/
abbrev BuffersFit (p : Packet) : Prop := p.w1.toNat + p.w2.toNat ≤ 2 ^ 32 ∧ p.w3.toNat + p.w4.toNat ≤ 2 ^ 32

/-- Packet `p`, which decodes to `i`, is one the Sequencer accepts in IDLE: an INIT, or a TRANSCEIVE that is not answered
BUSY (R285, R290) and is admitted (R75). -/
def OfTheSequencer (i : Instr) (p : Packet) (s : State) : Prop :=
  i = .init ∨ ((∃ cnt d tp tl rp rl, i = .transceive cnt d tp tl rp rl) ∧ BuffersFit p ∧
    (s.ctx.lock = false ∨ s.cfg.nonblocking = false))

/-- With NONBLOCKING = 1 and the guard free the Sequencer may accept `w`: it has found the guard free on arrival, or it
is a TRANSCEIVE that arrived while the guard was held and is not answered yet (R193, R290; log 12). -/
def Acceptable (w : Pending) (s : State) : Prop :=
  w ∈ s.offered ∨ (w ∈ s.pending ∧ w.packet.w0.toNat / 2 ^ 28 = 3 ∧ BuffersFit w.packet)

/-- The invariants of R39, (i) to (v), with the two facts that make them inductive (`validated`, `nonempty`). -/
structure Rule39 (s : State) : Prop where
  /-- (i) The guard is held exactly in VALIDATE to COMPLETE. -/
  guard : s.ctx.lock = true ↔ inPhases 1 12 s
  /-- (ii) A slave is selected exactly in TX_FETCH to CS_DEASSERT. -/
  selectPhases : s.csn ≠ 0b111#3 ↔ inPhases 6 11 s
  /-- (ii) Then the line of `DESC.CSIDX` is low and the other two are high. -/
  selected : inPhases 6 11 s → ∀ k, k < 3 → s.csn.getLsbD k = decide (k ≠ (descCsidx (desc s)).toNat)
  /-- (iii) IDX is at most the longest length from CS_ASSERT to COMPLETE. -/
  index : inPhases 5 12 s → s.idx.toNat ≤ (longest s).toNat
  /-- (iii) IDX is below it from TX_FETCH to RX_STORE. -/
  indexBelow : inPhases 6 10 s → s.idx.toNat < (longest s).toNat
  /-- (iv) PH never holds a value from 20 to 31. -/
  legalPhase : s.ph.toNat < 20
  /-- (v) Before INIT has completed, PH is IDLE or one of the seven INIT phases. -/
  beforeInit : s.inited = false → s.ph = Ph.idle ∨ inPhases 13 19 s
  /-- A transaction past VALIDATE has a supported chip-select index (R211). -/
  validated : inPhases 2 12 s → (descCsidx (desc s)).toNat < 3
  /-- CS_ASSERT is entered only with a frame to clock (R211, R221). -/
  nonempty : s.ph = Ph.csAssert → s.idx.toNat < (longest s).toNat

/-- No admitted transfer wraps the address space (R75), and no transfer is cut short silently (R332). -/
structure TransferInv (s : State) : Prop where
  waitersFit : ∀ w ∈ s.waiters, transferFits w.packet.w1 w.packet.w2 w.packet.w3 w.packet.w4 = true
  offeredFit : ∀ w ∈ s.offered, transferFits w.packet.w1 w.packet.w2 w.packet.w3 w.packet.w4 = true
  latchFits : inPhases 1 4 s → transferFits s.cmdbuf.w1 s.cmdbuf.w2 s.cmdbuf.w3 s.cmdbuf.w4 = true
  contextFits : transferFits s.ctx.txPtr s.ctx.txLen s.ctx.rxPtr s.ctx.rxLen = true
  /-- XSTAT is 0x00 until a hang (R33). -/
  running : inPhases 5 10 s → s.xstat = 0x00#8
  /-- At the end XSTAT is 0x00 or 0x0C (R26, R33). -/
  ended : inPhases 11 12 s → s.xstat = 0x00#8 ∨ s.xstat = 0x0C#8
  /-- Success is reported only with all `max(TXLEN, RXLEN)` frames clocked (R332). -/
  noTruncation : inPhases 11 12 s → s.xstat = 0x00#8 → s.idx = longest s
  /-- A hang is reported only at a frame below the longest length, with FAULT_HANG set (R218). -/
  hung : inPhases 11 12 s → s.xstat = 0x0C#8 → s.idx.toNat < (longest s).toNat ∧ s.faultHang = true
  /-- POLLCNT stays below POLL_LIMIT while a frame is polled (R32, R214). -/
  polls : s.ph = Ph.pollTxc → ∀ n, s.cfg.pollLimit = some n → s.pollcnt < n

/-- One frame at a time (R219): while the contract is in force a transaction has a frame in flight only in POLL_TXC,
where TXC says whether it has ended; auto-chip-select is off from CFG_FRAME to CS_DEASSERT (R154, R257), the controller
is in the operation R355 (b) asks for, and from SETUP on FRAME holds the value the contract covers (R155, R258). -/
structure ControllerInv (s : State) : Prop where
  quiet : ctlVoid s = false → inPhases 1 12 s → s.ph ≠ Ph.pollTxc → s.ctl.inflight = false
  polled : ctlVoid s = false → s.ph = Ph.pollTxc → (s.ctl.inflight = true ↔ s.ctl.txc = false)
  autocsOff : ctlVoid s = false → inPhases 3 11 s → ctlAutocs s = false
  modeKept : ctlVoid s = false → inPhases 3 11 s → modeHolds s = true
  /-- The latched encoding never asks for auto-chip-select (R24, R111). -/
  encoded : s.enc.autocs = false
  /-- The encoding the validator has latched carries FRAME_VALUE (R110). -/
  encodedFrame : inPhases 2 3 s → s.enc.frame = s.cfg.lay.frameValue
  framed : ctlVoid s = false → inPhases 4 11 s → frameCovered s = true

/-- The value of the latest write of ROUTEPEN in a history. -/
def lastRoutepen : List Event → Option Word
  | [] => none
  | .regWrite .routepen _ v :: _ => some v
  | _ :: rest => lastRoutepen rest

/-- In a history every write of ROUTELOC0 or ROUTELOC1 comes after a write of 0 to ROUTEPEN with no other write of
ROUTEPEN in between (R175). -/
def routesSafely : List Event → Prop
  | [] => True
  | .regWrite .routeloc0 _ _ :: rest => lastRoutepen rest = some 0x00000000#32 ∧ routesSafely rest
  | .regWrite .routeloc1 _ _ :: rest => lastRoutepen rest = some 0x00000000#32 ∧ routesSafely rest
  | _ :: rest => routesSafely rest

/-- The routing order holds, and all signals are disabled where the location phases are about to write (R175). -/
structure RouteInv (s : State) : Prop where
  order : routesSafely s.history
  disabled : inPhases 16 17 s → lastRoutepen s.history = some 0x00000000#32

/-- The fifteen values R0 takes (R114). -/
def statusWords : List Word :=
  [0x00000000#32, 0x00000201#32, 0x00000102#32, 0x00000103#32, 0x00000104#32, 0x00000105#32, 0x00000106#32,
   0x00000107#32, 0x00000108#32, 0x00000209#32, 0x0000030A#32, 0x0000030B#32, 0x0000040C#32, 0x0000050D#32,
   0x0000060E#32]

/-- Every response in a history has one of the fifteen status words (R114, R316). -/
def respondsLawfully (h : List Event) : Prop := ∀ c r0 r1, Event.resp c r0 r1 ∈ h → r0 ∈ statusWords

/-- How many packets caller `c` has submitted in a history. -/
def submitsOf (c : Nat) : List Event → Nat
  | [] => 0
  | .submit d _ :: rest => (if d = c then 1 else 0) + submitsOf c rest
  | _ :: rest => submitsOf c rest

/-- How many responses caller `c` has received in a history. -/
def responsesTo (c : Nat) : List Event → Nat
  | [] => 0
  | .resp d _ _ :: rest => (if d = c then 1 else 0) + responsesTo c rest
  | _ :: rest => responsesTo c rest

/-- In how many places a packet of caller `c` is held: for the host port, in WAITERS or in its place with NONBLOCKING = 1,
as a pending INIT, or as the one the Sequencer works on. -/
def heldPackets (c : Nat) (s : State) : Nat :=
  (if (findPending c s.pending).isSome then 1 else 0) + (if (findPending c s.waiters).isSome then 1 else 0) +
  (if (findPending c s.offered).isSome then 1 else 0) + (if s.initPending = some c then 1 else 0) + (if s.ph ≠ Ph.idle ∧ s.owner = c then 1 else 0)

/-- Every packet a caller has submitted has been answered once, but for at most one that is still held (R292), and the
latest has its answer exactly when none is held (R371). -/
def Balanced (s : State) : Prop :=
  ∀ c, submitsOf c s.history = responsesTo c s.history + heldPackets c s ∧ heldPackets c s ≤ 1 ∧
    (answered c s = true ↔ 0 < submitsOf c s.history ∧ heldPackets c s = 0)

/-- After a hang the software's part is done (R365): FAULT_HANG is clear, the controller is as R355 (c) asks for with
`v` in CTRL, and once INIT has run the contract is in force, `v` leaving auto-chip-select off. -/
structure Recovered (v : Word) (s : State) : Prop where
  noHang : s.faultHang = false
  idle : s.ctl.txidle = true ∧ s.ctl.txc = false ∧ s.ctl.inflight = false ∧ s.ctl.rxready = false
  written : s.ctl.ctrl = v
  inForce : v.getLsbD s.cfg.lay.autocsBit = false → contractHolds { s with inited := true } = true

/-- Accepted now, packet `p` has no contract, because of FAULT_HANG (R265), or because R355 does not hold (R366): in (b);
in (c), TXC = 0 being asked for before the first TRANSCEIVE, that is while CMDBUF holds none; or in (d), a buffer
overlapping the register window (U6). What other agents did during an earlier transaction does not count (R366). -/
def NoContractWith (p : Packet) (s : State) : Prop :=
  s.faultHang = true ∨ modeHolds s = false ∨ s.ctl.txidle = false ∨ s.ctl.inflight = true ∨
  s.ctl.rxready = true ∨ (s.cmdbuf.w0.toNat / 2 ^ 28 ≠ 3 ∧ s.ctl.txc = true) ∨
  overlapsWindow s.cfg p.w1 p.w2 = true ∨ overlapsWindow s.cfg p.w3 p.w4 = true

/-- What the acceptance of packet `p` says of the contract: it is void for the transaction exactly if R355 does not hold
now (R366), and if this is the first one, so that the boot requirements were not met, until the platform restores the
controller (R265; the two flags are the model's, log 8). -/
def ContractTested (p : Packet) (s t : State) : Prop :=
  t.ctl = { s.ctl with isVoid := t.ctl.isVoid, txnVoid := t.ctl.txnVoid } ∧
  (t.ctl.txnVoid = true ↔ NoContractWith p s) ∧
  (t.ctl.isVoid = true ↔ s.ctl.isVoid = true ∨ (s.cmdbuf.w0.toNat / 2 ^ 28 ≠ 3 ∧ NoContractWith p s)) ∧
  (ctlVoid t = true ↔ s.ctl.isVoid = true ∨ NoContractWith p s)

/-- Every byte of buffer memory reads as before. -/
def SameMemory (s t : State) : Prop := ∀ a, t.mem.read a = s.mem.read a

/-- What belongs to the Sequencer and to the world, and no answer of the host port may touch (R284, R287 to R289):
everything but the history and the model's supply of open values. -/
def OnlyAnswers (s t : State) : Prop := t = { s with history := t.history, oracle := t.oracle }

/-- The safe states: all invariants together. -/
structure Safe (s : State) : Prop where
  rule39 : Rule39 s
  transfer : TransferInv s
  controller : ControllerInv s
  memory : Memory.wf s.mem = true
  /-- WAITERS is empty when NONBLOCKING = 1 (R38). -/
  nobodyWaits : s.cfg.nonblocking = true → s.waiters = []

end Sys2Proof.Machine
end

