-- ==== Sys2Proof/Certificates/Slice0/Obligations.lean ====
section
/-! DEFINITION. The statements for the provers, one definition each; OBLIGATIONS.json lists them. Every statement over
all states is over all parameters (`s.cfg`) and over all values of the model's supply of open values (`s.oracle`). -/

open Sys2Proof Sys2Proof.Machine

/-! ### Encodings (file 30) -/

/-- Decoding the encoding of an instruction gives it back, every operand at every value (R101, R107, R116, R119). -/
def Obligations.DecodeOfEncodeGivesTheInstruction : Prop :=
  ∀ i : Instr, i.wf = true → decode (encode i) = .instr i

/-- Each instruction has one encoding: what decodes to it is what the encoder writes. -/
def Obligations.EncodeOfDecodeGivesTheCode : Prop :=
  ∀ (c : Code) (i : Instr), decode c = .instr i → encode i = c

/-- The decoder of R119, said with whole words. -/
def Obligations.DecoderIsTotalAsRule119Says : Prop :=
  ∀ (w0 w1 w2 w3 w4 : Word) (rest : List Word),
    (w0.toNat / 2 ^ 28 = 3 → decodeWords (w0 :: w1 :: w2 :: w3 :: w4 :: rest) =
      (.instr (.transceive (BitVec.ofNat 4 (w0.toNat / 2 ^ 24)) (BitVec.ofNat 24 w0.toNat) w1 w2 w3 w4), rest)) ∧
    (w0.toNat / 2 ^ 28 = 4 → decodeWords (w0 :: w1 :: w2 :: w3 :: w4 :: rest) =
      (.instr (.transceiveAsync (BitVec.ofNat 4 (w0.toNat / 2 ^ 24)) (BitVec.ofNat 24 w0.toNat) w1 w2 w3 w4), rest)) ∧
    (w0 = 0x10000000#32 → decodeWords (w0 :: rest) = (.instr .init, rest)) ∧
    (w0 = 0x50000000#32 → decodeWords (w0 :: rest) = (.instr .canRelease, rest)) ∧
    (w0.toNat / 2 ^ 24 = 0x20 →
      decodeWords (w0 :: rest) = (.instr (.validate (BitVec.ofNat 24 w0.toNat)), rest)) ∧
    (w0.toNat / 2 ^ 28 ≠ 3 → w0.toNat / 2 ^ 28 ≠ 4 → w0 ≠ 0x10000000#32 → w0 ≠ 0x50000000#32 →
      w0.toNat / 2 ^ 24 ≠ 0x20 → ∃ r, decodeWords (w0 :: rest) = (.reject r, rest))

/-- A few words written out from the tables of R103, R104 and R116, one of each format and each component. -/
def Obligations.WordsOfTheTablesDecode : Prop :=
  decode (.packet [0x10000000#32]) = .instr .init ∧
  decode (.packet [0x50000000#32]) = .instr .canRelease ∧
  decode (.packet [0x20020108#32]) = .instr (.validate 0x020108#24) ∧
  decode (.packet [0x31000108#32, 0x20000000#32, 3#32, 0x20000100#32, 4#32]) =
    .instr (.transceive 1#4 0x000108#24 0x20000000#32 3#32 0x20000100#32 4#32) ∧
  decode (.packet [0x4F000100#32, 1#32, 2#32, 3#32, 4#32]) = .instr (.transceiveAsync 15#4 0x000100#24 1#32 2#32 3#32 4#32) ∧
  decode (.packet [0x21000100#32]) = .reject .mustBeZero ∧
  decode (.packet [0x60000000#32]) = .reject .reservedOpcode ∧
  decode (.phase 0b00000#5) = .instr .idle ∧
  decode (.phase 0b00010#5) = .instr .cfgCtrl ∧
  decode (.phase 0b00100#5) = .instr .setup ∧
  decode (.phase 0b01000#5) = .instr .pollTxc ∧
  decode (.phase 0b10000#5) = .instr .routeLoc0 ∧
  decode (.phase 0b10011#5) = .instr .initContext ∧
  decode (.phase 0b10100#5) = .reject .reservedPhase

/-! ### A step runs the decoded instruction (R15, R29, R290) -/

/-- The Sequencer's step is the phase PH names; around it the step only takes the move off the agenda (the model's
own, log 1). -/
def Obligations.SequencerStepRunsThePhase : Prop :=
  ∀ (s : State) (i : Instr), movesNext .sequencer s → decodePhase s.ph = .instr i →
    step s = exec i (afterMove s) ∧
    afterMove s = { s with agenda := s.agenda.tail, oracle := (afterMove s).oracle } ∧
    (s.agenda ≠ [] → (afterMove s).oracle = s.oracle)

/-- A packet runs its command. The host port runs that of a packet it is to answer, in the state without the packet
(R290), and leaves one of the Sequencer's where it is. Of one of the Sequencer's, an INIT or a TRANSCEIVE that waits, the
submission runs it: it is pending, or has joined WAITERS, from then on (R38, R285, R291; log 33). The submitter is the
caller the answer goes to (the model's bookkeeping, log 11). -/
def Obligations.HostPortStepRunsThePacket : Prop :=
  ∀ (s : State) (c : Nat) (i : Instr), s.cfg.wf = true →
    (∀ e, nextMove s = .hostPort c → findPending c s.pending = some e → decodePacket e.packet = .instr i →
      (¬ OfTheSequencer i e.packet s →
        ∃ t, step s = exec i t ∧ t = { afterMove s with pending := t.pending, portCaller := c } ∧
          findPending c t.pending = none ∧ ∀ d, d ≠ c → findPending d t.pending = findPending d s.pending) ∧
      (OfTheSequencer i e.packet s → step s = .next (afterMove s))) ∧
    (∀ p, nextMove s = .submit c p → decodePacket p = .instr i → c < s.cfg.nCallers → heldPackets c s = 0 →
      OfTheSequencer i p s →
      step s = exec i { afterMove s with portCaller := c, history := .submit c p.words :: s.history })

/-- An illegal packet is answered with (0x0000050D, 0) and changes no state (R289). The host port's own bookkeeping, the
packet it has answered and the caller it answers, is the model's (log 11), the agenda and the supply too (log 1). -/
def Obligations.IllegalPacketIsAnswered : Prop :=
  ∀ (s : State) (c : Nat) (e : Pending) (r : Reject), movesNext (.hostPort c) s → s.inited = true →
    findPending c s.pending = some e → decodePacket e.packet = .reject r →
    ∃ t, step s = .next t ∧ t.history = .resp c 0x0000050D#32 0#32 :: s.history ∧
      findPending c t.pending = none ∧ (∀ d, d ≠ c → findPending d t.pending = findPending d s.pending) ∧
      (s.agenda ≠ [] → t.oracle = s.oracle) ∧
      t = { s with pending := t.pending, portCaller := c, agenda := s.agenda.tail, oracle := t.oracle, history := t.history }

/-- A PH value from 20 to 31 has no meaning (U3). -/
def Obligations.ReservedPhaseHasNoMeaning : Prop :=
  ∀ s : State, movesNext .sequencer s → 20 ≤ s.ph.toNat → step s = .refused .reservedPhase

/-! ### The validator (file 40) -/

/-- `validate`, whole (R151): the first failing check in the source's order, read off the plain number of the
descriptor, and the class each cause carries. -/
def Obligations.ValidateReportsTheFirstFailure : Prop :=
  ∀ (l : RegLayout) (d : BitVec 24),
    validate l d =
      (if 2 < d.toNat / 2 ^ 16 then .err .csIndex
       else if d.toNat / 2 ^ 5 % 2 ^ 7 ≠ 8 then .err .wordSize
       else if d.toNat / 2 ^ 15 % 2 = 1 then .err .csPolarity
       else if d.toNat / 2 ^ 14 % 2 = 1 then .err .lockOn
       else if d.toNat / 2 ^ 12 % 2 ^ 2 ≠ 0 then .err .lineMode
       else if d.toNat / 2 ^ 4 % 2 = 1 then .err .bitOrder
       else if d.toNat / 2 % 2 = 1 ∨ d.toNat / 2 ^ 2 % 2 = 1 then .err .clockMode
       else if d.toNat % 2 = 1 then .err .role
       else .ok { frame := l.frameValue, loopbk := decide (d.toNat / 2 ^ 3 % 2 = 1), autocs := false }) ∧
    (∀ c, validate l d = .err c → causeClass c = if c = .csIndex then .range else .config)

/-- Exactly six descriptors are supported (R106), and loopback never makes a descriptor fail (R149). -/
def Obligations.ExactlySixDescriptorsAreSupported : Prop :=
  ∀ (l : RegLayout) (d : BitVec 24),
    ((∃ e, validate l d = .ok e) ↔
      d ∈ [0x000100#24, 0x000108#24, 0x010100#24, 0x010108#24, 0x020100#24, 0x020108#24]) ∧
    (∀ c, validate l d = .err c ↔ validate l (d ^^^ 0x000008#24) = .err c)

/-- Command VALIDATE (R284): answered at once in any phase, nothing but the answer. -/
def Obligations.ValidateCommandAnswers : Prop :=
  ∀ (d : BitVec 24) (s : State), s.inited = true →
    ∃ t, exec (.validate d) s = .next t ∧
      (∀ e, validate s.cfg.lay d = .ok e → t.history = .resp s.portCaller 0x00000000#32
        (BitVec.ofNat 32 (e.frame.toNat + (if e.loopbk then 2 ^ 16 else 0) + (if e.autocs then 2 ^ 17 else 0))) :: s.history) ∧
      (∀ c, validate s.cfg.lay d = .err c → t.history = .resp s.portCaller
        (BitVec.ofNat 32 ((classCode (causeClass c)).toNat * 2 ^ 8 + (causeCode c).toNat)) 0#32 :: s.history) ∧
      t = { s with history := t.history }

/-! ### The other host commands (file 46) -/

/-- Command TRANSCEIVE_ASYNC (R287). -/
def Obligations.AsyncIsAnsweredNotSupported : Prop :=
  ∀ (cnt : BitVec 4) (d : BitVec 24) (tp tl rp rl : Word) (s : State), s.inited = true →
    exec (.transceiveAsync cnt d tp tl rp rl) s =
      .next { s with history := .resp s.portCaller 0x0000060E#32 0x00000000#32 :: s.history }

/-- Command CANRELEASE (R288, R240): one read of STATUS; (0, 1) when its TXIDLE bit is 1, else (0x30B, 0); where the
contract holds the word read shows the controller's two bits (R255). The address is taken modulo 2^32 where the window
passes the top of the address space, which is the model's choice (log 32). -/
def Obligations.CanReleaseAnswersByTxidle : Prop :=
  ∀ s : State, s.inited = true → s.cfg.wf = true →
    ∃ t v, exec .canRelease s = .next t ∧ OnlyAnswers s t ∧
      t.history = .resp s.portCaller (if v.getLsbD s.cfg.lay.txidleBit then 0x00000000#32 else 0x0000030B#32)
          (if v.getLsbD s.cfg.lay.txidleBit then 1#32 else 0#32) ::
        .regRead .status (s.cfg.base + BitVec.ofNat 32 s.cfg.lay.offStatus) v :: s.history ∧
      (contractHolds s = true → v.getLsbD s.cfg.lay.txidleBit = s.ctl.txidle ∧ v.getLsbD s.cfg.lay.txcBit = s.ctl.txc)

/-- TRANSCEIVE while the guard is held, acquisition non-blocking (R193): BUSY at once, no state change. -/
def Obligations.TransceiveIsAnsweredBusy : Prop :=
  ∀ (cnt : BitVec 4) (d : BitVec 24) (tp tl rp rl : Word) (s : State),
    s.inited = true → s.ctx.lock = true → s.cfg.nonblocking = true →
    exec (.transceive cnt d tp tl rp rl) s =
      .next { s with history := .resp s.portCaller 0x0000030A#32 0#32 :: s.history }

/-- TRANSCEIVE otherwise: the caller waits for an IDLE step with its packet as submitted and gets no response yet, in
WAITERS (R192, R285), or with NONBLOCKING = 1, where WAITERS is empty (R38), in a place of the model's own (log 12). That
is so from the submission on (R38; log 33). -/
def Obligations.TransceiveJoinsTheWaiters : Prop :=
  ∀ (cnt : BitVec 4) (d : BitVec 24) (tp tl rp rl : Word) (s : State),
    s.inited = true → (s.ctx.lock = false ∨ s.cfg.nonblocking = false) →
    tp.toNat + tl.toNat ≤ 2 ^ 32 → rp.toNat + rl.toNat ≤ 2 ^ 32 → findPending s.portCaller s.waiters = none →
    findPending s.portCaller s.offered = none →
    ∃ t p, exec (.transceive cnt d tp tl rp rl) s = .next t ∧
      p.w0.toNat = 3 * 2 ^ 28 + cnt.toNat * 2 ^ 24 + d.toNat ∧ p.w1 = tp ∧ p.w2 = tl ∧ p.w3 = rp ∧ p.w4 = rl ∧
      (s.cfg.nonblocking = false → t = { s with waiters := t.waiters } ∧
        findPending s.portCaller t.waiters = some { caller := s.portCaller, packet := p } ∧
        ∀ c, c ≠ s.portCaller → findPending c t.waiters = findPending c s.waiters) ∧
      (s.cfg.nonblocking = true → t = { s with offered := t.offered } ∧
        findPending s.portCaller t.offered = some { caller := s.portCaller, packet := p } ∧
        ∀ c, c ≠ s.portCaller → findPending c t.offered = findPending c s.offered)

/-- A transfer that wraps the address space is not admitted (R75, U5; where it stops is log 15). -/
def Obligations.WrappingTransferIsNotAdmitted : Prop :=
  ∀ (cnt : BitVec 4) (d : BitVec 24) (tp tl rp rl : Word) (s : State),
    s.inited = true → (s.ctx.lock = false ∨ s.cfg.nonblocking = false) →
    (2 ^ 32 < tp.toNat + tl.toNat ∨ 2 ^ 32 < rp.toNat + rl.toNat) →
    exec (.transceive cnt d tp tl rp rl) s = .refused .bufferWraps

/-- The first INIT waits for the IDLE step; any later INIT has no meaning (R280, U1; where it stops is log 13). -/
def Obligations.InitWaitsForIdleAndIsOnce : Prop :=
  ∀ s : State,
    (s.inited = false → s.initPending = none → s.ph = 0#5 →
      exec .init s = .next { s with initPending := some s.portCaller }) ∧
    (s.inited = true ∨ s.initPending ≠ none ∨ s.ph ≠ 0#5 → exec .init s = .refused .initAgain)

/-- While INITED = 0 no command but INIT has a meaning, nor an illegal packet (R35, R290, R369, U1), and so its submission
has none, also while INIT runs. -/
def Obligations.NothingButInitBeforeInit : Prop :=
  ∀ s : State, s.inited = false →
    (∀ c p, movesNext (.submit c p) s → c < s.cfg.nCallers → heldPackets c s = 0 → p.w0 ≠ 0x10000000#32 →
      step s = .refused .notInitialised) ∧
    (∀ d, exec (.validate d) s = .refused .notInitialised) ∧
    (∀ cnt d tp tl rp rl, exec (.transceive cnt d tp tl rp rl) s = .refused .notInitialised) ∧
    (∀ cnt d tp tl rp rl, exec (.transceiveAsync cnt d tp tl rp rl) s = .refused .notInitialised) ∧
    exec .canRelease s = .refused .notInitialised ∧
    answerIllegal s = .refused .notInitialised

/-- A caller submits one packet at a time (R292, U18): a packet for the host port is recorded and held until it is
answered, a second one before the response has no meaning. One of the Sequencer's: `HostPortStepRunsThePacket`. Before
INIT: `NothingButInitBeforeInit`. -/
def Obligations.CallerSubmitsOnePacketAtATime : Prop :=
  ∀ (s : State) (c : Nat) (p : Packet), movesNext (.submit c p) s → c < s.cfg.nCallers →
    (heldPackets c s = 0 → s.inited = true → (∀ i, decodePacket p = .instr i → ¬ OfTheSequencer i p s) →
      ∃ t, step s = .next t ∧ t.history = .submit c p.words :: s.history ∧
      findPending c t.pending = some { caller := c, packet := p } ∧
      (∀ d, d ≠ c → findPending d t.pending = findPending d s.pending) ∧
      t = { s with pending := t.pending, agenda := s.agenda.tail, oracle := t.oracle, history := t.history }) ∧
    (heldPackets c s ≠ 0 → step s = .refused .secondPacket)

/-- Phase IDLE (R291): it accepts a pending INIT, or some waiter when the guard is free, which may be any (R194), and
otherwise does nothing. With the acceptance the contract is void for the transaction exactly if FAULT_HANG = 1 (R265) or
R355 (b), (c) or (d) does not hold then, an overlap with the register window among them (R366, U6), or if it is void
until the platform restores the controller (the flags are the model's, log 8 and 16; the supply that picks is too, log
7). NONBLOCKING = 1: `IdleAcceptsAnOfferedPacket`. -/
def Obligations.IdleAcceptsInitOrSomeWaiter : Prop :=
  ∀ s : State,
    (∀ c, s.inited = false → s.initPending = some c →
      exec .idle s = .next { s with owner := c, initPending := none, ph := 13#5 }) ∧
    (s.inited = true → s.ctx.lock = false → s.cfg.nonblocking = false → s.waiters ≠ [] →
      (∃ t, ∃ w ∈ s.waiters, exec .idle s = .next t ∧ t.ctx = { s.ctx with lock := true } ∧ t.owner = w.caller ∧
        t.cmdbuf = w.packet ∧ t.ph = 1#5 ∧ findPending w.caller t.waiters = none ∧
        (∀ c, c ≠ w.caller → findPending c t.waiters = findPending c s.waiters) ∧ ContractTested w.packet s t ∧
        t = { s with ctx := t.ctx, owner := t.owner, cmdbuf := t.cmdbuf, ph := t.ph, waiters := t.waiters
                     ctl := t.ctl, oracle := t.oracle }) ∧
      ∀ w ∈ s.waiters, ∃ o t, exec .idle { s with oracle := o } = .next t ∧ t.owner = w.caller ∧ t.cmdbuf = w.packet) ∧
    ((s.inited = false ∧ s.initPending = none) ∨
      (s.inited = true ∧ (s.ctx.lock = true ∨ (s.cfg.nonblocking = false ∧ s.waiters = []))) →
      exec .idle s = .next { s with ph := 0#5 })

/-- The INIT phases of the host interface (R281 to R283). -/
def Obligations.InitPhasesCallTheCollaborators : Prop :=
  ∀ s : State,
    exec .initClock s = .next { s with ph := 14#5, history := .enableClock s.cfg.clockId :: s.history } ∧
    exec .initPins s = .next { s with
      ph := 15#5
      history := .configurePin s.cfg.pins.cs.pin .pushPull :: .configurePin s.cfg.pins.din.pin .input ::
        .configurePin s.cfg.pins.dout.pin .pushPull :: .configurePin s.cfg.pins.clk.pin .pushPull :: s.history } ∧
    exec .initContext s = .next { s with
      ctx := { txPtr := 0#32, txLen := 0#32, rxPtr := 0#32, rxLen := 0#32, status := 0x00#8, done := false, lock := false }
      inited := true, result := 0x00000000#32, rdata := 0#32, ph := 0#5
      history := .resp s.owner 0x00000000#32 0#32 :: s.history }

/-- The four routing phases (R171 to R174): ROUTELOC0 gets each role's code in the field of that role. That the registers
keep what was written where the contract does not hold is the model's choice (log 8), and the addresses modulo 2^32 where
the window passes the top of the address space (log 32). -/
def Obligations.RoutingPhasesWriteTheRoute : Prop :=
  ∀ s : State, s.cfg.wf = true →
    exec .routeDisable s = .next { s with
      ph := 16#5, ctl := { s.ctl with routepen := 0x00000000#32 }
      history := .regWrite .routepen (s.cfg.base + BitVec.ofNat 32 s.cfg.lay.offRoutepen) 0x00000000#32 :: s.history } ∧
    (∃ v : Word, exec .routeLoc0 s = .next { s with
        ph := 17#5, ctl := { s.ctl with routeloc0 := v }
        history := .regWrite .routeloc0 (s.cfg.base + BitVec.ofNat 32 s.cfg.lay.offRouteloc0) v :: s.history } ∧
      v.extractLsb' s.cfg.lay.rxLoc.lo 8 = s.cfg.pins.din.loc ∧ v.extractLsb' s.cfg.lay.txLoc.lo 8 = s.cfg.pins.dout.loc ∧
      v.extractLsb' s.cfg.lay.csLoc.lo 8 = s.cfg.pins.cs.loc ∧ v.extractLsb' s.cfg.lay.clkLoc.lo 8 = s.cfg.pins.clk.loc) ∧
    exec .routeLoc1 s = .next { s with
      ph := 18#5, ctl := { s.ctl with routeloc1 := s.cfg.lay.routeloc1Default }
      history := .regWrite .routeloc1 (s.cfg.base + BitVec.ofNat 32 s.cfg.lay.offRouteloc1) s.cfg.lay.routeloc1Default
        :: s.history } ∧
    exec .routeEnable s = .next { s with
      ph := 19#5, ctl := { s.ctl with routepen := s.cfg.lay.routepenAll }
      history := .regWrite .routepen (s.cfg.base + BitVec.ofNat 32 s.cfg.lay.offRoutepen) s.cfg.lay.routepenAll
        :: s.history } ∧
    (∀ k, s.cfg.lay.routepenAll.getLsbD k = decide (k ∈ [s.cfg.lay.rxpenBit, s.cfg.lay.txpenBit, s.cfg.lay.cspenBit,
      s.cfg.lay.clkpenBit]))

/-! ### The phases of a transaction (files 40, 42, 43) -/

/-- Phase VALIDATE (R153): ENC and CFG_CTRL on success; on error what `raise` writes (R318) and nothing else. -/
def Obligations.ValidatePhaseEncodesOrRaises : Prop :=
  ∀ s : State,
    (∀ e, validate s.cfg.lay (BitVec.ofNat 24 s.cmdbuf.w0.toNat) = .ok e →
      exec .validatePh s = .next { s with enc := e, ph := 2#5 }) ∧
    (∀ c, validate s.cfg.lay (BitVec.ofNat 24 s.cmdbuf.w0.toNat) = .err c →
      ∃ r0 : Word, r0.toNat = (classCode (causeClass c)).toNat * 2 ^ 8 + (causeCode c).toNat ∧
        exec .validatePh s = .next { s with
          result := r0, rdata := 0#32, ctx := { s.ctx with lock := false }, ph := 0#5
          history := .resp s.owner r0 0#32 :: s.history })

/-- Phase CFG_CTRL (R154): one read and one write of CTRL; LOOPBK and AUTOCS take the encoding's values, every other
bit is written back as read; where the contract holds the value read is CTRL's (R255). The flag says whether R355 (b)
still holds after the write, which where the read was free it need not (the model's, log 8, 9 and 22); the address is
taken modulo 2^32 (log 32). -/
def Obligations.CfgCtrlWritesTwoBits : Prop :=
  ∀ s : State, s.cfg.wf = true →
    ∃ t old new, exec .cfgCtrl s = .next t ∧
      (∀ k, new.getLsbD k = if k = s.cfg.lay.loopbkBit then s.enc.loopbk
        else if k = s.cfg.lay.autocsBit then s.enc.autocs else old.getLsbD k) ∧
      (contractHolds s = true → old = s.ctl.ctrl ∧ t.oracle = s.oracle ∧ t.ctl.txnVoid = false) ∧
      t.ctl = { s.ctl with ctrl := new, txnVoid := t.ctl.txnVoid } ∧
      (t.ctl.txnVoid = true ↔ s.ctl.txnVoid = true ∨ ∃ k, k ≠ s.cfg.lay.loopbkBit ∧ k ≠ s.cfg.lay.autocsBit ∧
        new.getLsbD k ≠ s.ctl.mode.getLsbD k) ∧
      t.ph = 3#5 ∧
      t.history = .regWrite .ctrl (s.cfg.base + BitVec.ofNat 32 s.cfg.lay.offCtrl) new ::
        .regRead .ctrl (s.cfg.base + BitVec.ofNat 32 s.cfg.lay.offCtrl) old :: s.history ∧
      t = { s with ctl := t.ctl, ph := t.ph, history := t.history, oracle := t.oracle }

/-- Phase CFG_FRAME (R155): one 32-bit write of the frame-format value. That FRAME keeps what was written where the
contract does not hold is the model's choice (log 8), and the address modulo 2^32 where the window passes the top of the
address space (log 32). -/
def Obligations.CfgFrameWritesTheFrameFormat : Prop :=
  ∀ s : State, ∃ v : Word, v.toNat = s.enc.frame.toNat ∧
    exec .cfgFrame s = .next { s with
      ctl := { s.ctl with frame := v }, ph := 4#5
      history := .regWrite .frame (s.cfg.base + BitVec.ofNat 32 s.cfg.lay.offFrame) v :: s.history }

/-- Phase SETUP (R195): the pair-count error, the empty transaction, and the ordinary case. -/
def Obligations.SetupRecordsTheBuffers : Prop :=
  ∀ s : State,
    (s.cmdbuf.w0.toNat / 2 ^ 24 % 16 ≠ 1 →
      exec .setup s = .next { s with
        result := 0x00000209#32, rdata := 0#32, ctx := { s.ctx with lock := false }, ph := 0#5
        history := .resp s.owner 0x00000209#32 0#32 :: s.history }) ∧
    (s.cmdbuf.w0.toNat / 2 ^ 24 % 16 = 1 →
      ∃ t, exec .setup s = .next t ∧
        t.ctx = { s.ctx with txPtr := s.cmdbuf.w1, txLen := s.cmdbuf.w2, rxPtr := s.cmdbuf.w3, rxLen := s.cmdbuf.w4
                             done := false } ∧
        t.xstat = 0x00#8 ∧ t.idx = 0#32 ∧
        (max s.cmdbuf.w2.toNat s.cmdbuf.w4.toNat = 0 → t.ph = 12#5) ∧
        (0 < max s.cmdbuf.w2.toNat s.cmdbuf.w4.toNat → t.ph = 5#5) ∧
        t = { s with ctx := t.ctx, xstat := t.xstat, idx := t.idx, ph := t.ph })

/-- Phases CS_ASSERT and CS_DEASSERT (R211, R217): the line of `DESC.CSIDX` and no other goes low; all go high. That it
stays low in between is said by `EveryStepKeepsRule39` and `EachRegisterHasItsWriters`. -/
def Obligations.ChipSelectPhasesDriveOneLine : Prop :=
  ∀ s : State,
    (s.cmdbuf.w0.toNat / 2 ^ 16 % 2 ^ 8 < 3 → ∃ v : BitVec 3,
      (∀ k, k < 3 → v.getLsbD k = decide (k ≠ s.cmdbuf.w0.toNat / 2 ^ 16 % 2 ^ 8)) ∧
      exec .csAssert s = .next { s with csn := v, ph := 6#5, history := .csn v :: s.history }) ∧
    exec .csDeassert s = .next { s with csn := 0b111#3, ph := 12#5, history := .csn 0b111#3 :: s.history }

/-- Phase TX_FETCH (R212): the buffer's byte below TXLEN, the dummy byte with no memory access beyond it. Of a byte inside
the register window (R71, U6) the access is made and the value is any (the model's, log 16; log 32 says where the window
lies). -/
def Obligations.TxFetchReadsOrPads : Prop :=
  ∀ s : State,
    (s.idx.toNat < s.ctx.txLen.toNat → s.ctx.txPtr.toNat + s.ctx.txLen.toNat ≤ 2 ^ 32 →
      inWindow s.cfg (s.ctx.txPtr.toNat + s.idx.toNat) = false →
      exec .txFetch s = .next { s with
        txb := s.mem.read (s.ctx.txPtr.toNat + s.idx.toNat), ph := 7#5
        history := .memRead (s.ctx.txPtr.toNat + s.idx.toNat) (s.mem.read (s.ctx.txPtr.toNat + s.idx.toNat)) :: s.history }) ∧
    (s.idx.toNat < s.ctx.txLen.toNat → s.ctx.txPtr.toNat + s.ctx.txLen.toNat ≤ 2 ^ 32 →
      inWindow s.cfg (s.ctx.txPtr.toNat + s.idx.toNat) = true →
      ∃ b o, exec .txFetch s = .next { s with
        txb := b, ph := 7#5, oracle := o, history := .memRead (s.ctx.txPtr.toNat + s.idx.toNat) b :: s.history }) ∧
    (s.ctx.txLen.toNat ≤ s.idx.toNat → exec .txFetch s = .next { s with txb := 0x00#8, ph := 7#5 })

/-- Phase TX_WRITE (R213) and the start of a frame in the controller, INFLIGHT = 0 (R251). Where the contract does not
hold, that the controller's bits change so is the model's choice (log 8 and 18); the out half of SR is the model's own
(log 21), and the address is taken modulo 2^32 (log 32). With INFLIGHT = 1: the next statement, and
`TxWriteWithoutAContract`. -/
def Obligations.TxWriteStartsAFrame : Prop :=
  ∀ s : State, s.ctl.inflight = false →
    ∃ t, exec .txWrite s = .next t ∧
      t.ctl = { s.ctl with txframe := s.txb, inflight := true, txc := false, txidle := false, srOut := t.ctl.srOut } ∧
      t.pollcnt = 0 ∧ t.ph = 8#5 ∧
      (∃ v : Word, v.toNat = s.txb.toNat ∧
        t.history = .regWrite .txdata (s.cfg.base + BitVec.ofNat 32 s.cfg.lay.offTxdata) v :: s.history) ∧
      t = { s with ctl := t.ctl, pollcnt := t.pollcnt, ph := t.ph, history := t.history }

/-- A TXDATA write while a frame is in flight has no meaning while the contract holds (R251, U10). -/
def Obligations.TxWriteInFlightHasNoMeaning : Prop :=
  ∀ s : State, contractHolds s = true → s.ctl.inflight = true → exec .txWrite s = .refused .txdataInFlight

/-- Phase POLL_TXC (R214): one read of STATUS; only its TXC bit counts; the hang path at the last allowed read. With
FAULT_HANG the contract is void (R265); the flag that says so until the platform restores the controller is the
model's (log 8), and the address is taken modulo 2^32 (log 32). -/
def Obligations.PollTxcReadsStatusOnce : Prop :=
  ∀ s : State, s.cfg.wf = true →
    ∃ t v, exec .pollTxc s = .next t ∧
      t.history = .regRead .status (s.cfg.base + BitVec.ofNat 32 s.cfg.lay.offStatus) v :: s.history ∧
      (contractHolds s = true → v.getLsbD s.cfg.lay.txcBit = s.ctl.txc ∧ v.getLsbD s.cfg.lay.txidleBit = s.ctl.txidle) ∧
      (v.getLsbD s.cfg.lay.txcBit = true → t = { s with ph := 9#5, history := t.history, oracle := t.oracle }) ∧
      (v.getLsbD s.cfg.lay.txcBit = false → s.cfg.pollLimit = none →
        t = { s with ph := 8#5, history := t.history, oracle := t.oracle }) ∧
      (∀ n, v.getLsbD s.cfg.lay.txcBit = false → s.cfg.pollLimit = some n → s.pollcnt + 1 < n →
        t = { s with ph := 8#5, pollcnt := s.pollcnt + 1, history := t.history, oracle := t.oracle }) ∧
      (∀ n, v.getLsbD s.cfg.lay.txcBit = false → s.cfg.pollLimit = some n → n ≤ s.pollcnt + 1 →
        t = { s with ph := 11#5, xstat := 0x0C#8, faultHang := true, ctl := { s.ctl with isVoid := true }
                     history := t.history, oracle := t.oracle })

/-- Phase RX_READ (R215): RXDATA is read in every frame; where the contract holds RXREADY is cleared (R254), and if a byte
is unread, that byte is what is read. Where it does not hold RXREADY is open afterwards (R265; log 8). The address is
taken modulo 2^32 (the model's choice where the window passes the top of the address space, log 32). -/
def Obligations.RxReadTakesTheReceivedByte : Prop :=
  ∀ s : State, ∃ t v, exec .rxRead s = .next t ∧ v.toNat = t.rxb.toNat ∧
    (contractHolds s = true → s.ctl.rxready = true → t.rxb = s.ctl.rxh ∧ t.oracle = s.oracle) ∧
    t.history = .regRead .rxdata (s.cfg.base + BitVec.ofNat 32 s.cfg.lay.offRxdata) v :: s.history ∧
    (contractHolds s = true → t.ctl.rxready = false) ∧
    t = { s with rxb := t.rxb, ph := 10#5, ctl := { s.ctl with rxready := t.ctl.rxready }, history := t.history
                 oracle := t.oracle }

/-- Phase RX_STORE (R216): below RXLEN the byte is stored at RXPTR + IDX and no other byte of memory changes, beyond it
nothing is written; IDX counts up, and the loop test decides the next phase. That a store inside the register window too
goes to buffer memory is the model's (log 16). -/
def Obligations.RxStoreStoresWithinTheBuffer : Prop :=
  ∀ s : State, Memory.wf s.mem = true → s.ctx.rxPtr.toNat + s.ctx.rxLen.toNat ≤ 2 ^ 32 →
    ∃ t, exec .rxStore s = .next t ∧
      (s.idx.toNat < s.ctx.rxLen.toNat → t.mem.read (rxAddr s) = s.rxb ∧
        (∀ a, a ≠ rxAddr s → t.mem.read a = s.mem.read a) ∧
        rxAddr s = s.ctx.rxPtr.toNat + s.idx.toNat ∧ t.history = .memWrite (rxAddr s) s.rxb :: s.history) ∧
      (s.ctx.rxLen.toNat ≤ s.idx.toNat → t.mem = s.mem ∧ SameMemory s t ∧ t.history = s.history) ∧
      t.idx = s.idx + 1#32 ∧
      (s.idx.toNat + 1 < max s.ctx.txLen.toNat s.ctx.rxLen.toNat → t.ph = 6#5) ∧
      (max s.ctx.txLen.toNat s.ctx.rxLen.toNat ≤ s.idx.toNat + 1 → t.ph = 11#5) ∧
      t = { s with mem := t.mem, history := t.history, idx := t.idx, ph := t.ph }

/-- Phase COMPLETE (R197): status, completion signal, guard and response in one step. -/
def Obligations.CompleteReportsAndReleases : Prop :=
  ∀ s : State, ∃ r0 : Word, r0 = (if s.xstat = 0x00#8 then 0x00000000#32 else 0x0000040C#32) ∧
    exec .complete s = .next { s with
      ctx := { s.ctx with status := s.xstat, done := true, lock := false }
      result := r0, rdata := s.idx, ph := 0#5
      history := .resp s.owner r0 s.idx :: s.history }

/-! ### The consumed controller and the wire (file 45) -/

/-- Frame completion where the contract holds (R252, R256, R258): in one step RXH, RXREADY, TXC, TXIDLE and INFLIGHT change
and the frame is on the wire; in loopback the byte received is the byte sent. The in half of SR is the model's own
(log 21), and that the event also says where the signals are connected (R259; log 25). -/
def Obligations.FrameCompletionDeliversAByte : Prop :=
  ∀ s : State, movesNext .controller s → contractHolds s = true → s.ctl.inflight = true →
    ∃ t r, step s = .next t ∧
      (s.ctl.ctrl.getLsbD s.cfg.lay.loopbkBit = true → r = s.ctl.txframe) ∧
      (s.ctl.ctrl.getLsbD s.cfg.lay.loopbkBit = false → r = (drawByte (afterMove s)).1) ∧
      t.ctl = { s.ctl with rxh := r, rxready := true, txc := true, txidle := true, inflight := false, srIn := t.ctl.srIn } ∧
      t.history = .frame s.csn s.ctl.txframe r (routeOf s.cfg.lay s.ctl) :: s.history ∧
      t = { s with ctl := t.ctl, history := t.history, agenda := s.agenda.tail, oracle := t.oracle }

/-- Without a frame in flight the controller has no step of its own while the contract holds (R252). That its turn then
passes with nothing but the agenda changed is the model's way to say so (log 1). -/
def Obligations.NoFrameNoCompletion : Prop :=
  ∀ s : State, movesNext .controller s → contractHolds s = true → s.ctl.inflight = false → step s = .next (afterMove s)

/-- The edge-level picture refines frame completion (R260, R261): sixteen clock edges, data-out most significant bit
first, and the eight sampled bits make the byte R252 delivers, whatever the shift register held. -/
def Obligations.EdgesOfAFrameMakeTheByte : Prop :=
  ∀ (loopbk : Bool) (b miso r0 : Byte),
    shiftIn (frameEdges loopbk b miso) r0 = (if loopbk then b else miso) ∧
    clockEdges (frameEdges loopbk b miso) = 16 ∧
    (frameEdges loopbk b miso).filterMap (fun e => match e with
      | .mosi x => some x
      | .rise _ => none
      | .fall => none) =
      [b.getLsbD 7, b.getLsbD 6, b.getLsbD 5, b.getLsbD 4, b.getLsbD 3, b.getLsbD 2, b.getLsbD 1, b.getLsbD 0]

/-! ### Reset (file 70) -/

/-- The values reset gives SPIMSEQ's own state (R53, R350). OWNER and the controller's unspecified registers are left
out: their values are the model's choice (log 5); that the controller meets the requirement for its first use is too
(log 6). -/
def Obligations.ResetValuesAreThoseOfRule53 : Prop :=
  ∀ cfg : Config, ∀ s, s = State.resetWith cfg →
    s.ph = 0#5 ∧ s.idx = 0#32 ∧ s.txb = 0x00#8 ∧ s.rxb = 0x00#8 ∧ s.pollcnt = 0 ∧ s.xstat = 0x00#8 ∧
    s.cmdbuf = { w0 := 0#32, w1 := 0#32, w2 := 0#32, w3 := 0#32, w4 := 0#32 } ∧
    s.enc = { frame := 0#16, loopbk := false, autocs := false } ∧
    s.ctx = { txPtr := 0#32, txLen := 0#32, rxPtr := 0#32, rxLen := 0#32, status := 0x00#8, done := false, lock := false } ∧
    s.csn = 0b111#3 ∧ s.inited = false ∧ s.faultHang = false ∧ s.result = 0#32 ∧ s.rdata = 0#32 ∧ s.waiters = [] ∧
    s.ctl.txc = false ∧ s.ctl.txidle = true ∧ s.ctl.inflight = false ∧ s.ctl.rxready = false ∧ s.cfg = cfg

/-- Reset as an event (R350, R352): SPIMSEQ's own state goes to its reset values, OWNER aside (unspecified, R53), no
packet is outstanding, the controller's registers and memory stay; a transaction it drops gets no response and is not
finished (R371). The contract is void after a reset with PH outside IDLE (R352), and where R355 (c) does not hold for the
first transaction after it; it stays void where the platform has not restored the controller (R365) or no acceptance has
tested R355 since another agent's access (R366). The kept flags are the model's (log 8 and 23). -/
def Obligations.ResetEventResetsOnlyTheBlock : Prop :=
  ∀ s : State, movesNext .reset s → ∃ t, step s = .next t ∧
    t = { State.resetWith s.cfg with
      owner := t.owner, ctl := { s.ctl with isVoid := t.ctl.isVoid }, mem := s.mem, agenda := s.agenda.tail
      oracle := t.oracle, history := t.history } ∧
    SameMemory s t ∧ (∀ c, heldPackets c t = 0 ∧ answered c t = answered c s) ∧
    (ctlVoid t = true ↔ s.ph ≠ 0#5 ∨ s.ctl.isVoid = true ∨ s.ctl.txnVoid = true ∨ s.ctl.txidle = false ∨ s.ctl.txc = true ∨
      s.ctl.inflight = true ∨ s.ctl.rxready = true) ∧
    t.history = (if s.csn = 0b111#3 then s.history else .csn 0b111#3 :: s.history)

/-! ### Invariants and rules of the whole machine -/

/-- Reset satisfies the invariants of R39, for all parameters. -/
def Obligations.Rule39HoldsAtReset : Prop :=
  ∀ cfg : Config, Rule39 (State.resetWith cfg)

/-- Every step of every agent keeps the invariants of R39. -/
def Obligations.EveryStepKeepsRule39 : Prop :=
  ∀ s t : State, Rule39 s → step s = .next t → Rule39 t

/-- Reset is a safe state, for all parameters. The controller's part rests on log 6. -/
def Obligations.ResetIsSafe : Prop :=
  ∀ cfg : Config, Safe (State.resetWith cfg)

/-- Every step of every agent keeps a safe state safe: no transfer wraps or is cut short silently (R75, R332), one
frame is in flight at a time (R219), memory keeps its canonical form. -/
def Obligations.EveryStepKeepsSafe : Prop :=
  ∀ s t : State, Safe s → step s = .next t → Safe t

/-- From a safe state the Sequencer's step always answers: no fault, no refusal (R29, R39, R75, R219). -/
def Obligations.TheSequencerNeverStops : Prop :=
  ∀ s : State, Safe s → movesNext .sequencer s → ∃ t, step s = .next t

/-- The routing order of R175 holds in every history: location registers are written only after all signals were
disabled. -/
def Obligations.EveryStepKeepsTheRoutingOrder : Prop :=
  ∀ s t : State, RouteInv s → step s = .next t → RouteInv t

/-- No step sends a status word other than the fifteen of R114. -/
def Obligations.OnlyFifteenStatusWordsAreSent : Prop :=
  ∀ s t : State, respondsLawfully s.history → step s = .next t → respondsLawfully t.history

/-- Every submitted packet gets exactly one response (R292), and the latest of a caller is answered when that response has
been sent (R371): the balance of packets and responses is kept by every step but a reset, which drops the outstanding
ones (R350, R352). -/
def Obligations.EveryPacketGetsOneResponse : Prop :=
  ∀ s t : State, Balanced s → nextMove s ≠ .reset → step s = .next t → Balanced t

/-- FAULT_HANG and INITED are cleared by reset only (R35, R36, R331), and no step changes the parameters (R9). -/
def Obligations.StickyFlagsAndParameters : Prop :=
  ∀ s t : State, step s = .next t →
    t.cfg = s.cfg ∧
    (nextMove s ≠ .reset → (s.faultHang = true → t.faultHang = true) ∧ (s.inited = true → t.inited = true))

/-- PH changes only along the table of R286: 28 edges for the Sequencer's phases, none for any other step. -/
def Obligations.PhasesChangeOnlyAlongTheTable : Prop :=
  ∀ s t : State, step s = .next t → nextMove s ≠ .reset →
    (nextMove s ≠ .sequencer → t.ph = s.ph) ∧
    (nextMove s = .sequencer → (s.ph.toNat, t.ph.toNat) ∈
      [(0, 13), (0, 1), (0, 0), (13, 14), (14, 15), (15, 16), (16, 17), (17, 18), (18, 19), (19, 0), (1, 2), (1, 0), (2, 3),
       (3, 4), (4, 0), (4, 12), (4, 5), (5, 6), (6, 7), (7, 8), (8, 9), (8, 8), (8, 11), (9, 10), (10, 6), (10, 11), (11, 12),
       (12, 0)])

/-- SPIMSEQ writes buffer memory only in RX_STORE, one byte, within the receive buffer (R71, R74); a step that is no
store by another agent changes no other byte. -/
def Obligations.MemoryChangesOnlyInRxStore : Prop :=
  ∀ (s t : State) (a : Nat), Memory.wf s.mem = true → step s = .next t → (∀ x b, nextMove s ≠ .callerStore x b) →
    t.mem.read a ≠ s.mem.read a →
      nextMove s = .sequencer ∧ s.ph = 10#5 ∧ s.idx.toNat < s.ctx.rxLen.toNat ∧
      a = s.ctx.rxPtr.toNat + s.idx.toNat ∧ t.mem.read a = s.rxb

/-- The host port has no writes (R15; R241, R284, R287 to R289): its step changes nothing but the packet it answers, which
no longer is among the submitted ones, the history and the model's own fields (log 1, 7, 11). -/
def Obligations.HostPortDisturbsNothing : Prop :=
  ∀ (s t : State) (c : Nat), nextMove s = .hostPort c → step s = .next t →
    SameMemory s t ∧ (∀ d, d ≠ c → findPending d t.pending = findPending d s.pending) ∧
    t = { s with pending := t.pending, portCaller := t.portCaller, agenda := s.agenda.tail, oracle := t.oracle
                 history := t.history }

/-- Who writes what, register by register (R21, R22, R24 to R38; that INIT_CONTEXT writes the context too is R283's).
WAITERS, and with NONBLOCKING = 1 its place (log 12), changes when a caller submits a TRANSCEIVE (R38; log 33) and when
an IDLE step accepts one (R191, R192); the pending INIT (R291) likewise. Nothing else writes any of them (R15). -/
def Obligations.EachRegisterHasItsWriters : Prop :=
  ∀ s t : State, step s = .next t → nextMove s ≠ .reset →
    (t.cmdbuf ≠ s.cmdbuf → nextMove s = .sequencer ∧ s.ph = 0#5 ∧ t.ctx.lock = true) ∧
    (t.owner ≠ s.owner → nextMove s = .sequencer ∧ s.ph = 0#5) ∧
    (t.waiters ≠ s.waiters ∨ t.offered ≠ s.offered → (nextMove s = .sequencer ∧ s.ph = 0#5) ∨ ∃ c p, nextMove s = .submit c p ∧
      p.w0.toNat / 2 ^ 28 = 3) ∧
    (t.initPending ≠ s.initPending → (nextMove s = .sequencer ∧ s.ph = 0#5) ∨ ∃ c p, nextMove s = .submit c p ∧
      p.w0 = 0x10000000#32) ∧
    (t.enc ≠ s.enc → nextMove s = .sequencer ∧ s.ph = 1#5) ∧
    (t.ctx.txPtr ≠ s.ctx.txPtr ∨ t.ctx.txLen ≠ s.ctx.txLen ∨ t.ctx.rxPtr ≠ s.ctx.rxPtr ∨ t.ctx.rxLen ≠ s.ctx.rxLen →
      nextMove s = .sequencer ∧ (s.ph = 4#5 ∨ s.ph = 19#5)) ∧
    (t.ctx.status ≠ s.ctx.status → nextMove s = .sequencer ∧ (s.ph = 12#5 ∨ s.ph = 19#5)) ∧
    (t.ctx.done ≠ s.ctx.done → nextMove s = .sequencer ∧ (s.ph = 4#5 ∨ s.ph = 12#5 ∨ s.ph = 19#5)) ∧
    (t.ctx.lock ≠ s.ctx.lock → nextMove s = .sequencer ∧
      (s.ph = 0#5 ∨ s.ph = 1#5 ∨ s.ph = 4#5 ∨ s.ph = 12#5 ∨ s.ph = 19#5)) ∧
    (t.idx ≠ s.idx → nextMove s = .sequencer ∧ (s.ph = 4#5 ∨ s.ph = 10#5)) ∧
    (t.txb ≠ s.txb → nextMove s = .sequencer ∧ s.ph = 6#5) ∧
    (t.rxb ≠ s.rxb → nextMove s = .sequencer ∧ s.ph = 9#5) ∧
    (t.pollcnt ≠ s.pollcnt → nextMove s = .sequencer ∧ (s.ph = 7#5 ∨ s.ph = 8#5)) ∧
    (t.xstat ≠ s.xstat → nextMove s = .sequencer ∧ (s.ph = 4#5 ∨ s.ph = 8#5)) ∧
    (t.csn ≠ s.csn → nextMove s = .sequencer ∧ (s.ph = 5#5 ∨ s.ph = 11#5)) ∧
    (t.inited ≠ s.inited → nextMove s = .sequencer ∧ s.ph = 19#5) ∧
    (t.faultHang ≠ s.faultHang → nextMove s = .sequencer ∧ s.ph = 8#5) ∧
    (t.result ≠ s.result ∨ t.rdata ≠ s.rdata → nextMove s = .sequencer ∧
      (s.ph = 1#5 ∨ s.ph = 4#5 ∨ s.ph = 12#5 ∨ s.ph = 19#5) ∧
      t.history = .resp s.owner t.result t.rdata :: s.history)

/-- The platform's bits of CTRL are kept (R41): a step of the Sequencer or the host port, or a submission, changes CTRL in
CFG_CTRL only, and there, while the contract holds, no bit of it but LOOPBK and AUTOCS. -/
def Obligations.PlatformBitsOfCtrlAreKept : Prop :=
  ∀ s t : State, step s = .next t → (nextMove s = .sequencer ∨ ∃ c, nextMove s = .hostPort c ∨ ∃ p, nextMove s = .submit c p) →
    (t.ctl.ctrl ≠ s.ctl.ctrl → nextMove s = .sequencer ∧ s.ph = 2#5) ∧
    (contractHolds s = true → ∀ k, k ≠ s.cfg.lay.loopbkBit → k ≠ s.cfg.lay.autocsBit →
      t.ctl.ctrl.getLsbD k = s.ctl.ctrl.getLsbD k)

/-- No silent truncation (R332): a transaction that ends in success reports all `max(TXLEN, RXLEN)` frames, one that
ends in a hang reports a frame below it and FAULT_HANG is set. -/
def Obligations.NoTransferIsCutShortSilently : Prop :=
  ∀ s : State, Safe s → movesNext .sequencer s → s.ph = 12#5 →
    ∃ t r0 r1, step s = .next t ∧ t.history = .resp s.owner r0 r1 :: s.history ∧
      ((r0 = 0x00000000#32 ∧ r1.toNat = max s.ctx.txLen.toNat s.ctx.rxLen.toNat) ∨
       (r0 = 0x0000040C#32 ∧ r1.toNat < max s.ctx.txLen.toNat s.ctx.rxLen.toNat ∧ s.faultHang = true))

/-- Parameters outside the admitted values have no meaning (U19; log 19). -/
def Obligations.ParametersMustBeAdmitted : Prop :=
  ∀ s : State, s.cfg.wf = false → step s = .refused .parametersNotAdmitted

/-! ### Acceptance without blocking, writes without a contract, routing, recovery, the end of a run -/

/-- Phase IDLE with NONBLOCKING = 1: one of the TRANSCEIVEs that have found the guard free, on arrival (R193) or before
they were answered (R290), is accepted, and it may be any (R285, R191, R194); the others stay for a later IDLE step. That
they stand apart from WAITERS, which is empty, is the model's reading of R38 (log 12); the flags are the model's (log 8
and 16). -/
def Obligations.IdleAcceptsAnOfferedPacket : Prop :=
  ∀ s : State, s.inited = true → s.ctx.lock = false → s.cfg.nonblocking = true → s.waiters = [] →
    ((∃ w, Acceptable w s) →
      (∃ t w, Acceptable w s ∧ exec .idle s = .next t ∧ t.ctx = { s.ctx with lock := true } ∧ t.owner = w.caller ∧
        t.cmdbuf = w.packet ∧ t.ph = 1#5 ∧ findPending w.caller t.offered = none ∧ findPending w.caller t.pending = none ∧
        (∀ c, c ≠ w.caller → findPending c t.offered = findPending c s.offered ∧
          findPending c t.pending = findPending c s.pending) ∧ ContractTested w.packet s t ∧
        t = { s with ctx := t.ctx, owner := t.owner, cmdbuf := t.cmdbuf, ph := t.ph, offered := t.offered
                     pending := t.pending, ctl := t.ctl, oracle := t.oracle }) ∧
      ∀ w, Acceptable w s → ∃ o t, exec .idle { s with oracle := o } = .next t ∧ t.owner = w.caller ∧ t.cmdbuf = w.packet) ∧
    ((¬ ∃ w, Acceptable w s) → exec .idle s = .next { s with ph := 0#5 })

/-- A TXDATA write with a frame in flight where the contract does not hold, which R251 gives no meaning: TX_WRITE makes
its access all the same (R265: "SPIMSEQ's own rules still say exactly which accesses it makes"); that the controller
then starts a new frame is the model's choice (log 18), and so is the address modulo 2^32 (log 32). -/
def Obligations.TxWriteWithoutAContract : Prop :=
  ∀ s : State, contractHolds s = false → s.ctl.inflight = true →
    ∃ t, exec .txWrite s = .next t ∧
      t.ctl = { s.ctl with txframe := s.txb, inflight := true, txc := false, txidle := false, srOut := t.ctl.srOut } ∧
      t.pollcnt = 0 ∧ t.ph = 8#5 ∧
      (∃ v : Word, v.toNat = s.txb.toNat ∧
        t.history = .regWrite .txdata (s.cfg.base + BitVec.ofNat 32 s.cfg.lay.offTxdata) v :: s.history) ∧
      t = { s with ctl := t.ctl, pollcnt := t.pollcnt, ph := t.ph, history := t.history }

/-- The routing sequence of INIT disconnects every role, then connects each at its location code of PINBINDING (R171 to
R174, R259, R46, R47); outside loopback (U21) a disconnected signal shows on no pin, a connected one at its code (the
pins are the model's function of the edges, log 25). -/
def Obligations.RoutingConnectsTheRoles : Prop :=
  ∀ s t1 t2 t3 t4 : State, s.cfg.wf = true → exec .routeDisable s = .next t1 → exec .routeLoc0 t1 = .next t2 →
    exec .routeLoc1 t2 = .next t3 → exec .routeEnable t3 = .next t4 →
    (∀ t ∈ [t1, t2, t3], routeOf t.cfg.lay t.ctl = { clk := none, dout := none, din := none, cs := none } ∧
      ∀ b miso, pinEdges (routeOf t.cfg.lay t.ctl) (frameEdges false b miso) = []) ∧
    routeOf t4.cfg.lay t4.ctl = { clk := some s.cfg.pins.clk.loc, dout := some s.cfg.pins.dout.loc
                                  din := some s.cfg.pins.din.loc, cs := some s.cfg.pins.cs.loc } ∧
    ∀ b miso, pinEdges (routeOf t4.cfg.lay t4.ctl) (frameEdges false b miso) =
      (frameEdges false b miso).map (fun e => match e with
        | .mosi x => (s.cfg.pins.dout.loc, x)
        | .rise _ => (s.cfg.pins.clk.loc, true)
        | .fall => (s.cfg.pins.clk.loc, false))

/-- After a hang, or after anything else that voids the contract (R365, R250, R355): bringing the controller back to
R355 (c) between transactions and resetting SPIMSEQ, in either order, puts the contract in force again once INIT has
run. The platform's move and the flag are the model's (log 8, 22 and 23). -/
def Obligations.RestoreAndResetRecover : Prop :=
  ∀ (s : State) (v : Word), s.cfg.wf = true →
    (s.ph = 0#5 → s.ctx.lock = false → s.agenda = [.platformRestore v, .reset] →
      ∃ t u, step s = .next t ∧ step t = .next u ∧ Recovered v u) ∧
    (s.agenda = [.reset, .platformRestore v] → ∃ t u, step s = .next t ∧ step t = .next u ∧ Recovered v u)

/-- The end of a run (R371): a finished run holds no packet, every submitted packet has been answered, what is observed
of it lists each caller's answers, and it stays finished, with the same result, while only SPIMSEQ and a controller
whose contract holds move. -/
def Obligations.AFinishedRunStaysAsObserved : Prop :=
  ∀ s : State, runFinished s = true →
    (∀ c, heldPackets c s = 0) ∧
    (Balanced s → ∀ c, submitsOf c s.history = (answersTo c (observe s)).length ∧
      (0 < submitsOf c s.history → answered c s = true)) ∧
    (∀ t, step s = .next t →
      (nextMove s = .sequencer ∨ (∃ c, nextMove s = .hostPort c) ∨ (nextMove s = .controller ∧ contractHolds s = true)) →
      runFinished t = true ∧ observe t = observe s)
end

