-- ==== Sys2Proof/Laws/Bits.lean ====
section
/-! SUPPORT. What the bit operations do to each bit: the status word, the control-register update, the chip-select
outputs, the status words of responses. -/

namespace Sys2Proof.Machine

theorem getLsbD_bitWord_shift (b : Bool) (k j : Nat) (hk : k < 32) :
    (bitWord b <<< k).getLsbD j = (decide (j = k) && b) := by
  cases b with
  | false => simp [bitWord]
  | true =>
    simp only [bitWord, if_true, BitVec.getLsbD_shiftLeft, BitVec.getLsbD_one, Bool.and_true]
    by_cases h : j = k
    · subst h; simp [hk]
    · have : ¬ (j - k = 0 ∧ ¬ j < k) := by omega
      by_cases h2 : j < k <;> simp [h, h2]
      omega

theorem getLsbD_one_shift (k j : Nat) (hk : k < 32) : (1#32 <<< k).getLsbD j = decide (j = k) := by
  have h := getLsbD_bitWord_shift true k j hk
  simpa [bitWord] using h

/-- `setBit` sets one bit and keeps the others. -/
theorem getLsbD_setBit (w : Word) (k j : Nat) (b : Bool) (hk : k < 32) :
    (setBit w k b).getLsbD j = if j = k then b else w.getLsbD j := by
  simp only [setBit, BitVec.getLsbD_or, BitVec.getLsbD_and, BitVec.getLsbD_not, getLsbD_one_shift _ _ hk,
    getLsbD_bitWord_shift _ _ _ hk]
  by_cases h : j = k
  · subst h; simp
  · by_cases hj : j < 32
    · simp [h, hj]
    · simp [h, hj, BitVec.getLsbD_of_ge w j (by omega)]

/-- What an admitted layout says of the bits of CTRL and STATUS (R52). -/
theorem RegLayout.wf_bits {l : RegLayout} (h : l.wf = true) :
    l.loopbkBit ≠ l.autocsBit ∧ l.loopbkBit < 32 ∧ l.autocsBit < 32 ∧
    l.txcBit ≠ l.txidleBit ∧ l.txcBit < 32 ∧ l.txidleBit < 32 := by
  simp only [RegLayout.wf, Bool.and_eq_true, decide_eq_true_eq] at h
  obtain ⟨⟨⟨⟨⟨⟨⟨⟨⟨⟨⟨⟨_, _⟩, h1⟩, h2⟩, h3⟩, h4⟩, h5⟩, h6⟩, _⟩, _⟩, _⟩, _⟩, _⟩ := h
  exact ⟨h1, h2, h3, h4, h5, h6⟩

/-- What admitted parameters say of POLL_LIMIT and of the layout (R9, U19). -/
theorem Config.wf_parts {c : Config} (h : c.wf = true) :
    c.base.toNat % 4 = 0 ∧ c.pollLimit ≠ some 0 ∧ 0 < c.nCallers ∧ c.lay.wf = true := by
  simp only [Config.wf, Bool.and_eq_true, decide_eq_true_eq] at h
  exact ⟨h.1.1.1, h.1.1.2, h.1.2, h.2⟩

/-- The STATUS word shows TXC and TXIDLE in their places (R43). -/
theorem statusWord_bits {l : RegLayout} (h : l.wf = true) (txc txidle : Bool) (other : Word) :
    (statusWord l txc txidle other).getLsbD l.txcBit = txc ∧
    (statusWord l txc txidle other).getLsbD l.txidleBit = txidle := by
  obtain ⟨_, _, _, hne, h1, h2⟩ := RegLayout.wf_bits h
  simp [statusWord, getLsbD_setBit _ _ _ _ h1, getLsbD_setBit _ _ _ _ h2, hne]

/-- CFG_CTRL's value: LOOPBK and AUTOCS are the encoding's, every other bit is as read (R122). -/
theorem ctrlUpdate_getLsbD {l : RegLayout} (h : l.wf = true) (old : Word) (e : Enc) (j : Nat) :
    (ctrlUpdate l old e).getLsbD j =
      if j = l.loopbkBit then e.loopbk else if j = l.autocsBit then e.autocs else old.getLsbD j := by
  obtain ⟨hne, h1, h2, _⟩ := RegLayout.wf_bits h
  simp only [ctrlUpdate, platformMask, BitVec.getLsbD_or, BitVec.getLsbD_and, BitVec.getLsbD_not,
    getLsbD_one_shift _ _ h1, getLsbD_one_shift _ _ h2, getLsbD_bitWord_shift _ _ _ h1, getLsbD_bitWord_shift _ _ _ h2]
  by_cases ha : j = l.loopbkBit
  · subst ha; simp [hne]
  · by_cases hb : j = l.autocsBit
    · subst hb; simp [ha]
    · by_cases hj : j < 32
      · simp [ha, hb, hj]
      · simp [ha, hb, hj, BitVec.getLsbD_of_ge old j (by omega)]

/-- The platform's bits of CTRL (R41). -/
theorem platformMask_getLsbD {l : RegLayout} (h : l.wf = true) (j : Nat) :
    (platformMask l).getLsbD j = (decide (j < 32) && decide (j ≠ l.loopbkBit) && decide (j ≠ l.autocsBit)) := by
  obtain ⟨_, h1, h2, _⟩ := RegLayout.wf_bits h
  simp only [platformMask, BitVec.getLsbD_or, BitVec.getLsbD_not, getLsbD_one_shift _ _ h1, getLsbD_one_shift _ _ h2]
  by_cases h3 : j < 32 <;> simp [h3]

/-- R355 (b) speaks of the platform's bits of CTRL and of no other. -/
theorem modeHolds_iff {s : State} (h : s.cfg.lay.wf = true) :
    modeHolds s = true ↔
      ∀ k, k ≠ s.cfg.lay.loopbkBit → k ≠ s.cfg.lay.autocsBit → s.ctl.ctrl.getLsbD k = s.ctl.mode.getLsbD k := by
  rw [modeHolds, beq_iff_eq]
  constructor
  · intro he k h1 h2
    by_cases hk : k < 32
    · have := congrArg (BitVec.getLsbD · k) he
      simpa only [BitVec.getLsbD_and, platformMask_getLsbD h, h1, h2, hk, ne_eq, not_false_eq_true, decide_true,
        Bool.and_true] using this
    · rw [BitVec.getLsbD_of_ge _ _ (by omega), BitVec.getLsbD_of_ge _ _ (by omega)]
  · intro he
    refine BitVec.eq_of_getLsbD_eq fun k hk => ?_
    by_cases h1 : k = s.cfg.lay.loopbkBit
    · simp [platformMask_getLsbD h, h1]
    · by_cases h2 : k = s.cfg.lay.autocsBit
      · simp [platformMask_getLsbD h, h2]
      · simp [he k h1 h2]

/-- The selected line is low and the others are high (R34, R211). -/
theorem csnFor_getLsbD (i : BitVec 8) : ∀ k, k < 3 → (csnFor i).getLsbD k = decide (k ≠ i.toNat) := by
  intro k hk
  simp only [csnFor, BitVec.getLsbD_and, BitVec.getLsbD_not, BitVec.getLsbD_shiftLeft, BitVec.getLsbD_one]
  by_cases h : k = i.toNat
  · rw [← h]; interval_cases k <;> simp
  · have hz : (7#3).getLsbD k = true := by interval_cases k <;> rfl
    by_cases h2 : k < i.toNat
    · simp [hz, h, h2, hk]
    · have : k - i.toNat ≠ 0 := by omega
      simp [hz, h, h2, hk, this]

theorem csnFor_ne_idle {i : BitVec 8} (h : i.toNat < 3) : csnFor i ≠ 0b111#3 := by
  intro he
  have h1 := csnFor_getLsbD i i.toNat h
  have hi : i.toNat = 0 ∨ i.toNat = 1 ∨ i.toNat = 2 := by omega
  rw [he] at h1
  rcases hi with hi | hi | hi <;> rw [hi] at h1 <;> simp at h1

/-- What `transferFits` says of the two buffers (R75). -/
theorem transferFits_iff (tp tl rp rl : Word) :
    transferFits tp tl rp rl = true ↔ tp.toNat + tl.toNat ≤ 4294967296 ∧ rp.toNat + rl.toNat ≤ 4294967296 := by
  rw [transferFits, Bool.and_eq_true, bufferFits, bufferFits, decide_eq_true_eq, decide_eq_true_eq, addrSpace]

theorem maxLen_toNat (a b : Word) : (maxLen a b).toNat = max a.toNat b.toNat := by
  unfold maxLen; split <;> omega

end Sys2Proof.Machine
end

