-- ==== Sys2Proof/Laws/Encoding.lean ====
section
/-! SUPPORT. The first word of a packet as a number, and its fields read back (R101). -/

namespace Sys2Proof

theorem firstWord_toNat (op cnt : BitVec 4) (desc : BitVec 24) :
    (firstWord op cnt desc).toNat = op.toNat * 2 ^ 28 + cnt.toNat * 2 ^ 24 + desc.toNat := by
  simp only [firstWord, BitVec.toNat_append]
  rw [← Nat.shiftLeft_add_eq_or_of_lt (by omega), ← Nat.shiftLeft_add_eq_or_of_lt (by omega)]
  simp only [Nat.shiftLeft_eq]
  omega

/-- The fields of the first word are what it was made of. -/
theorem firstWord_fields (op cnt : BitVec 4) (desc : BitVec 24) :
    (firstWord op cnt desc).extractLsb' 28 4 = op ∧ (firstWord op cnt desc).extractLsb' 24 4 = cnt ∧
    (firstWord op cnt desc).extractLsb' 0 24 = desc := by
  refine ⟨?_, ?_, ?_⟩ <;> rw [← BitVec.toNat_inj] <;>
    simp only [BitVec.extractLsb'_toNat, firstWord_toNat, Nat.shiftRight_eq_div_pow] <;> omega

/-- A word is made of its fields. -/
theorem firstWord_of_fields (w : Word) :
    firstWord (w.extractLsb' 28 4) (w.extractLsb' 24 4) (w.extractLsb' 0 24) = w := by
  rw [← BitVec.toNat_inj]
  simp only [firstWord_toNat, BitVec.extractLsb'_toNat, Nat.shiftRight_eq_div_pow]
  omega

/-- The 28 low bits of a word are zero exactly when CNT and DESC are (R117). -/
theorem low28_eq_zero_iff (w : Word) :
    w.extractLsb' 0 28 = 0#28 ↔ w.extractLsb' 24 4 = 0#4 ∧ w.extractLsb' 0 24 = 0#24 := by
  simp only [← BitVec.toNat_inj, BitVec.extractLsb'_toNat, Nat.shiftRight_eq_div_pow, BitVec.toNat_ofNat]
  omega

end Sys2Proof
end

