-- ==== Sys2Proof/Laws/State.lean ====
section
/-! SUPPORT. The simp set of State: for each named update one lemma per field, so that no proof unfolds a record update
(R12: what a phase does not list it does not write). -/

namespace Sys2Proof.Machine

@[simp] theorem log_cfg (e : Event) (s : State) : (log e s).cfg = s.cfg := rfl
@[simp] theorem log_cmdbuf (e : Event) (s : State) : (log e s).cmdbuf = s.cmdbuf := rfl
@[simp] theorem log_enc (e : Event) (s : State) : (log e s).enc = s.enc := rfl
@[simp] theorem log_ctx (e : Event) (s : State) : (log e s).ctx = s.ctx := rfl
@[simp] theorem log_ph (e : Event) (s : State) : (log e s).ph = s.ph := rfl
@[simp] theorem log_idx (e : Event) (s : State) : (log e s).idx = s.idx := rfl
@[simp] theorem log_txb (e : Event) (s : State) : (log e s).txb = s.txb := rfl
@[simp] theorem log_rxb (e : Event) (s : State) : (log e s).rxb = s.rxb := rfl
@[simp] theorem log_pollcnt (e : Event) (s : State) : (log e s).pollcnt = s.pollcnt := rfl
@[simp] theorem log_xstat (e : Event) (s : State) : (log e s).xstat = s.xstat := rfl
@[simp] theorem log_csn (e : Event) (s : State) : (log e s).csn = s.csn := rfl
@[simp] theorem log_inited (e : Event) (s : State) : (log e s).inited = s.inited := rfl
@[simp] theorem log_faultHang (e : Event) (s : State) : (log e s).faultHang = s.faultHang := rfl
@[simp] theorem log_result (e : Event) (s : State) : (log e s).result = s.result := rfl
@[simp] theorem log_rdata (e : Event) (s : State) : (log e s).rdata = s.rdata := rfl
@[simp] theorem log_owner (e : Event) (s : State) : (log e s).owner = s.owner := rfl
@[simp] theorem log_waiters (e : Event) (s : State) : (log e s).waiters = s.waiters := rfl
@[simp] theorem log_offered (e : Event) (s : State) : (log e s).offered = s.offered := rfl
@[simp] theorem log_initPending (e : Event) (s : State) : (log e s).initPending = s.initPending := rfl
@[simp] theorem log_pending (e : Event) (s : State) : (log e s).pending = s.pending := rfl
@[simp] theorem log_portCaller (e : Event) (s : State) : (log e s).portCaller = s.portCaller := rfl
@[simp] theorem log_ctl (e : Event) (s : State) : (log e s).ctl = s.ctl := rfl
@[simp] theorem log_mem (e : Event) (s : State) : (log e s).mem = s.mem := rfl
@[simp] theorem log_agenda (e : Event) (s : State) : (log e s).agenda = s.agenda := rfl
@[simp] theorem log_oracle (e : Event) (s : State) : (log e s).oracle = s.oracle := rfl
@[simp] theorem log_history (e : Event) (s : State) : (log e s).history = e :: s.history := rfl

@[simp] theorem goto_cfg (p : BitVec 5) (s : State) : (goto p s).cfg = s.cfg := rfl
@[simp] theorem goto_cmdbuf (p : BitVec 5) (s : State) : (goto p s).cmdbuf = s.cmdbuf := rfl
@[simp] theorem goto_enc (p : BitVec 5) (s : State) : (goto p s).enc = s.enc := rfl
@[simp] theorem goto_ctx (p : BitVec 5) (s : State) : (goto p s).ctx = s.ctx := rfl
@[simp] theorem goto_ph (p : BitVec 5) (s : State) : (goto p s).ph = p := rfl
@[simp] theorem goto_idx (p : BitVec 5) (s : State) : (goto p s).idx = s.idx := rfl
@[simp] theorem goto_txb (p : BitVec 5) (s : State) : (goto p s).txb = s.txb := rfl
@[simp] theorem goto_rxb (p : BitVec 5) (s : State) : (goto p s).rxb = s.rxb := rfl
@[simp] theorem goto_pollcnt (p : BitVec 5) (s : State) : (goto p s).pollcnt = s.pollcnt := rfl
@[simp] theorem goto_xstat (p : BitVec 5) (s : State) : (goto p s).xstat = s.xstat := rfl
@[simp] theorem goto_csn (p : BitVec 5) (s : State) : (goto p s).csn = s.csn := rfl
@[simp] theorem goto_inited (p : BitVec 5) (s : State) : (goto p s).inited = s.inited := rfl
@[simp] theorem goto_faultHang (p : BitVec 5) (s : State) : (goto p s).faultHang = s.faultHang := rfl
@[simp] theorem goto_result (p : BitVec 5) (s : State) : (goto p s).result = s.result := rfl
@[simp] theorem goto_rdata (p : BitVec 5) (s : State) : (goto p s).rdata = s.rdata := rfl
@[simp] theorem goto_owner (p : BitVec 5) (s : State) : (goto p s).owner = s.owner := rfl
@[simp] theorem goto_waiters (p : BitVec 5) (s : State) : (goto p s).waiters = s.waiters := rfl
@[simp] theorem goto_offered (p : BitVec 5) (s : State) : (goto p s).offered = s.offered := rfl
@[simp] theorem goto_initPending (p : BitVec 5) (s : State) : (goto p s).initPending = s.initPending := rfl
@[simp] theorem goto_pending (p : BitVec 5) (s : State) : (goto p s).pending = s.pending := rfl
@[simp] theorem goto_portCaller (p : BitVec 5) (s : State) : (goto p s).portCaller = s.portCaller := rfl
@[simp] theorem goto_ctl (p : BitVec 5) (s : State) : (goto p s).ctl = s.ctl := rfl
@[simp] theorem goto_mem (p : BitVec 5) (s : State) : (goto p s).mem = s.mem := rfl
@[simp] theorem goto_agenda (p : BitVec 5) (s : State) : (goto p s).agenda = s.agenda := rfl
@[simp] theorem goto_oracle (p : BitVec 5) (s : State) : (goto p s).oracle = s.oracle := rfl
@[simp] theorem goto_history (p : BitVec 5) (s : State) : (goto p s).history = s.history := rfl

@[simp] theorem respond_cfg (c : Nat) (r0 r1 : Word) (s : State) : (respond c r0 r1 s).cfg = s.cfg := rfl
@[simp] theorem respond_cmdbuf (c : Nat) (r0 r1 : Word) (s : State) : (respond c r0 r1 s).cmdbuf = s.cmdbuf := rfl
@[simp] theorem respond_enc (c : Nat) (r0 r1 : Word) (s : State) : (respond c r0 r1 s).enc = s.enc := rfl
@[simp] theorem respond_ctx (c : Nat) (r0 r1 : Word) (s : State) : (respond c r0 r1 s).ctx = s.ctx := rfl
@[simp] theorem respond_ph (c : Nat) (r0 r1 : Word) (s : State) : (respond c r0 r1 s).ph = s.ph := rfl
@[simp] theorem respond_idx (c : Nat) (r0 r1 : Word) (s : State) : (respond c r0 r1 s).idx = s.idx := rfl
@[simp] theorem respond_txb (c : Nat) (r0 r1 : Word) (s : State) : (respond c r0 r1 s).txb = s.txb := rfl
@[simp] theorem respond_rxb (c : Nat) (r0 r1 : Word) (s : State) : (respond c r0 r1 s).rxb = s.rxb := rfl
@[simp] theorem respond_pollcnt (c : Nat) (r0 r1 : Word) (s : State) : (respond c r0 r1 s).pollcnt = s.pollcnt := rfl
@[simp] theorem respond_xstat (c : Nat) (r0 r1 : Word) (s : State) : (respond c r0 r1 s).xstat = s.xstat := rfl
@[simp] theorem respond_csn (c : Nat) (r0 r1 : Word) (s : State) : (respond c r0 r1 s).csn = s.csn := rfl
@[simp] theorem respond_inited (c : Nat) (r0 r1 : Word) (s : State) : (respond c r0 r1 s).inited = s.inited := rfl
@[simp] theorem respond_faultHang (c : Nat) (r0 r1 : Word) (s : State) : (respond c r0 r1 s).faultHang = s.faultHang := rfl
@[simp] theorem respond_result (c : Nat) (r0 r1 : Word) (s : State) : (respond c r0 r1 s).result = s.result := rfl
@[simp] theorem respond_rdata (c : Nat) (r0 r1 : Word) (s : State) : (respond c r0 r1 s).rdata = s.rdata := rfl
@[simp] theorem respond_owner (c : Nat) (r0 r1 : Word) (s : State) : (respond c r0 r1 s).owner = s.owner := rfl
@[simp] theorem respond_waiters (c : Nat) (r0 r1 : Word) (s : State) : (respond c r0 r1 s).waiters = s.waiters := rfl
@[simp] theorem respond_offered (c : Nat) (r0 r1 : Word) (s : State) : (respond c r0 r1 s).offered = s.offered := rfl
@[simp] theorem respond_initPending (c : Nat) (r0 r1 : Word) (s : State) : (respond c r0 r1 s).initPending = s.initPending := rfl
@[simp] theorem respond_pending (c : Nat) (r0 r1 : Word) (s : State) : (respond c r0 r1 s).pending = s.pending := rfl
@[simp] theorem respond_portCaller (c : Nat) (r0 r1 : Word) (s : State) : (respond c r0 r1 s).portCaller = s.portCaller := rfl
@[simp] theorem respond_ctl (c : Nat) (r0 r1 : Word) (s : State) : (respond c r0 r1 s).ctl = s.ctl := rfl
@[simp] theorem respond_mem (c : Nat) (r0 r1 : Word) (s : State) : (respond c r0 r1 s).mem = s.mem := rfl
@[simp] theorem respond_agenda (c : Nat) (r0 r1 : Word) (s : State) : (respond c r0 r1 s).agenda = s.agenda := rfl
@[simp] theorem respond_oracle (c : Nat) (r0 r1 : Word) (s : State) : (respond c r0 r1 s).oracle = s.oracle := rfl
@[simp] theorem respond_history (c : Nat) (r0 r1 : Word) (s : State) : (respond c r0 r1 s).history = .resp c r0 r1 :: s.history := rfl

@[simp] theorem hostAnswer_cfg (c : Cause) (r1 : Word) (s : State) : (hostAnswer c r1 s).cfg = s.cfg := rfl
@[simp] theorem hostAnswer_cmdbuf (c : Cause) (r1 : Word) (s : State) : (hostAnswer c r1 s).cmdbuf = s.cmdbuf := rfl
@[simp] theorem hostAnswer_enc (c : Cause) (r1 : Word) (s : State) : (hostAnswer c r1 s).enc = s.enc := rfl
@[simp] theorem hostAnswer_ctx (c : Cause) (r1 : Word) (s : State) : (hostAnswer c r1 s).ctx = s.ctx := rfl
@[simp] theorem hostAnswer_ph (c : Cause) (r1 : Word) (s : State) : (hostAnswer c r1 s).ph = s.ph := rfl
@[simp] theorem hostAnswer_idx (c : Cause) (r1 : Word) (s : State) : (hostAnswer c r1 s).idx = s.idx := rfl
@[simp] theorem hostAnswer_txb (c : Cause) (r1 : Word) (s : State) : (hostAnswer c r1 s).txb = s.txb := rfl
@[simp] theorem hostAnswer_rxb (c : Cause) (r1 : Word) (s : State) : (hostAnswer c r1 s).rxb = s.rxb := rfl
@[simp] theorem hostAnswer_pollcnt (c : Cause) (r1 : Word) (s : State) : (hostAnswer c r1 s).pollcnt = s.pollcnt := rfl
@[simp] theorem hostAnswer_xstat (c : Cause) (r1 : Word) (s : State) : (hostAnswer c r1 s).xstat = s.xstat := rfl
@[simp] theorem hostAnswer_csn (c : Cause) (r1 : Word) (s : State) : (hostAnswer c r1 s).csn = s.csn := rfl
@[simp] theorem hostAnswer_inited (c : Cause) (r1 : Word) (s : State) : (hostAnswer c r1 s).inited = s.inited := rfl
@[simp] theorem hostAnswer_faultHang (c : Cause) (r1 : Word) (s : State) : (hostAnswer c r1 s).faultHang = s.faultHang := rfl
@[simp] theorem hostAnswer_result (c : Cause) (r1 : Word) (s : State) : (hostAnswer c r1 s).result = s.result := rfl
@[simp] theorem hostAnswer_rdata (c : Cause) (r1 : Word) (s : State) : (hostAnswer c r1 s).rdata = s.rdata := rfl
@[simp] theorem hostAnswer_owner (c : Cause) (r1 : Word) (s : State) : (hostAnswer c r1 s).owner = s.owner := rfl
@[simp] theorem hostAnswer_waiters (c : Cause) (r1 : Word) (s : State) : (hostAnswer c r1 s).waiters = s.waiters := rfl
@[simp] theorem hostAnswer_offered (c : Cause) (r1 : Word) (s : State) : (hostAnswer c r1 s).offered = s.offered := rfl
@[simp] theorem hostAnswer_initPending (c : Cause) (r1 : Word) (s : State) : (hostAnswer c r1 s).initPending = s.initPending := rfl
@[simp] theorem hostAnswer_pending (c : Cause) (r1 : Word) (s : State) : (hostAnswer c r1 s).pending = s.pending := rfl
@[simp] theorem hostAnswer_portCaller (c : Cause) (r1 : Word) (s : State) : (hostAnswer c r1 s).portCaller = s.portCaller := rfl
@[simp] theorem hostAnswer_ctl (c : Cause) (r1 : Word) (s : State) : (hostAnswer c r1 s).ctl = s.ctl := rfl
@[simp] theorem hostAnswer_mem (c : Cause) (r1 : Word) (s : State) : (hostAnswer c r1 s).mem = s.mem := rfl
@[simp] theorem hostAnswer_agenda (c : Cause) (r1 : Word) (s : State) : (hostAnswer c r1 s).agenda = s.agenda := rfl
@[simp] theorem hostAnswer_oracle (c : Cause) (r1 : Word) (s : State) : (hostAnswer c r1 s).oracle = s.oracle := rfl
@[simp] theorem hostAnswer_history (c : Cause) (r1 : Word) (s : State) : (hostAnswer c r1 s).history = .resp s.portCaller (statusR0 c) r1 :: s.history := rfl

@[simp] theorem raise_cfg (c : Cause) (s : State) : (raise c s).cfg = s.cfg := rfl
@[simp] theorem raise_cmdbuf (c : Cause) (s : State) : (raise c s).cmdbuf = s.cmdbuf := rfl
@[simp] theorem raise_enc (c : Cause) (s : State) : (raise c s).enc = s.enc := rfl
@[simp] theorem raise_ctx (c : Cause) (s : State) : (raise c s).ctx = { s.ctx with lock := false } := rfl
@[simp] theorem raise_ph (c : Cause) (s : State) : (raise c s).ph = Ph.idle := rfl
@[simp] theorem raise_idx (c : Cause) (s : State) : (raise c s).idx = s.idx := rfl
@[simp] theorem raise_txb (c : Cause) (s : State) : (raise c s).txb = s.txb := rfl
@[simp] theorem raise_rxb (c : Cause) (s : State) : (raise c s).rxb = s.rxb := rfl
@[simp] theorem raise_pollcnt (c : Cause) (s : State) : (raise c s).pollcnt = s.pollcnt := rfl
@[simp] theorem raise_xstat (c : Cause) (s : State) : (raise c s).xstat = s.xstat := rfl
@[simp] theorem raise_csn (c : Cause) (s : State) : (raise c s).csn = s.csn := rfl
@[simp] theorem raise_inited (c : Cause) (s : State) : (raise c s).inited = s.inited := rfl
@[simp] theorem raise_faultHang (c : Cause) (s : State) : (raise c s).faultHang = s.faultHang := rfl
@[simp] theorem raise_result (c : Cause) (s : State) : (raise c s).result = statusR0 c := rfl
@[simp] theorem raise_rdata (c : Cause) (s : State) : (raise c s).rdata = 0#32 := rfl
@[simp] theorem raise_owner (c : Cause) (s : State) : (raise c s).owner = s.owner := rfl
@[simp] theorem raise_waiters (c : Cause) (s : State) : (raise c s).waiters = s.waiters := rfl
@[simp] theorem raise_offered (c : Cause) (s : State) : (raise c s).offered = s.offered := rfl
@[simp] theorem raise_initPending (c : Cause) (s : State) : (raise c s).initPending = s.initPending := rfl
@[simp] theorem raise_pending (c : Cause) (s : State) : (raise c s).pending = s.pending := rfl
@[simp] theorem raise_portCaller (c : Cause) (s : State) : (raise c s).portCaller = s.portCaller := rfl
@[simp] theorem raise_ctl (c : Cause) (s : State) : (raise c s).ctl = s.ctl := rfl
@[simp] theorem raise_mem (c : Cause) (s : State) : (raise c s).mem = s.mem := rfl
@[simp] theorem raise_agenda (c : Cause) (s : State) : (raise c s).agenda = s.agenda := rfl
@[simp] theorem raise_oracle (c : Cause) (s : State) : (raise c s).oracle = s.oracle := rfl
@[simp] theorem raise_history (c : Cause) (s : State) : (raise c s).history = .resp s.owner (statusR0 c) 0#32 :: s.history := rfl

@[simp] theorem regWrite_cfg (r : Reg) (v : Word) (s : State) : (regWrite r v s).cfg = s.cfg := rfl
@[simp] theorem regWrite_cmdbuf (r : Reg) (v : Word) (s : State) : (regWrite r v s).cmdbuf = s.cmdbuf := rfl
@[simp] theorem regWrite_enc (r : Reg) (v : Word) (s : State) : (regWrite r v s).enc = s.enc := rfl
@[simp] theorem regWrite_ctx (r : Reg) (v : Word) (s : State) : (regWrite r v s).ctx = s.ctx := rfl
@[simp] theorem regWrite_ph (r : Reg) (v : Word) (s : State) : (regWrite r v s).ph = s.ph := rfl
@[simp] theorem regWrite_idx (r : Reg) (v : Word) (s : State) : (regWrite r v s).idx = s.idx := rfl
@[simp] theorem regWrite_txb (r : Reg) (v : Word) (s : State) : (regWrite r v s).txb = s.txb := rfl
@[simp] theorem regWrite_rxb (r : Reg) (v : Word) (s : State) : (regWrite r v s).rxb = s.rxb := rfl
@[simp] theorem regWrite_pollcnt (r : Reg) (v : Word) (s : State) : (regWrite r v s).pollcnt = s.pollcnt := rfl
@[simp] theorem regWrite_xstat (r : Reg) (v : Word) (s : State) : (regWrite r v s).xstat = s.xstat := rfl
@[simp] theorem regWrite_csn (r : Reg) (v : Word) (s : State) : (regWrite r v s).csn = s.csn := rfl
@[simp] theorem regWrite_inited (r : Reg) (v : Word) (s : State) : (regWrite r v s).inited = s.inited := rfl
@[simp] theorem regWrite_faultHang (r : Reg) (v : Word) (s : State) : (regWrite r v s).faultHang = s.faultHang := rfl
@[simp] theorem regWrite_result (r : Reg) (v : Word) (s : State) : (regWrite r v s).result = s.result := rfl
@[simp] theorem regWrite_rdata (r : Reg) (v : Word) (s : State) : (regWrite r v s).rdata = s.rdata := rfl
@[simp] theorem regWrite_owner (r : Reg) (v : Word) (s : State) : (regWrite r v s).owner = s.owner := rfl
@[simp] theorem regWrite_waiters (r : Reg) (v : Word) (s : State) : (regWrite r v s).waiters = s.waiters := rfl
@[simp] theorem regWrite_offered (r : Reg) (v : Word) (s : State) : (regWrite r v s).offered = s.offered := rfl
@[simp] theorem regWrite_initPending (r : Reg) (v : Word) (s : State) : (regWrite r v s).initPending = s.initPending := rfl
@[simp] theorem regWrite_pending (r : Reg) (v : Word) (s : State) : (regWrite r v s).pending = s.pending := rfl
@[simp] theorem regWrite_portCaller (r : Reg) (v : Word) (s : State) : (regWrite r v s).portCaller = s.portCaller := rfl
@[simp] theorem regWrite_ctl (r : Reg) (v : Word) (s : State) : (regWrite r v s).ctl = ctlWrite r v s.ctl := rfl
@[simp] theorem regWrite_mem (r : Reg) (v : Word) (s : State) : (regWrite r v s).mem = s.mem := rfl
@[simp] theorem regWrite_agenda (r : Reg) (v : Word) (s : State) : (regWrite r v s).agenda = s.agenda := rfl
@[simp] theorem regWrite_oracle (r : Reg) (v : Word) (s : State) : (regWrite r v s).oracle = s.oracle := rfl
@[simp] theorem regWrite_history (r : Reg) (v : Word) (s : State) : (regWrite r v s).history = .regWrite r (regAddr s.cfg r) v :: s.history := rfl

@[simp] theorem driveCsn_cfg (v : BitVec 3) (s : State) : (driveCsn v s).cfg = s.cfg := rfl
@[simp] theorem driveCsn_cmdbuf (v : BitVec 3) (s : State) : (driveCsn v s).cmdbuf = s.cmdbuf := rfl
@[simp] theorem driveCsn_enc (v : BitVec 3) (s : State) : (driveCsn v s).enc = s.enc := rfl
@[simp] theorem driveCsn_ctx (v : BitVec 3) (s : State) : (driveCsn v s).ctx = s.ctx := rfl
@[simp] theorem driveCsn_ph (v : BitVec 3) (s : State) : (driveCsn v s).ph = s.ph := rfl
@[simp] theorem driveCsn_idx (v : BitVec 3) (s : State) : (driveCsn v s).idx = s.idx := rfl
@[simp] theorem driveCsn_txb (v : BitVec 3) (s : State) : (driveCsn v s).txb = s.txb := rfl
@[simp] theorem driveCsn_rxb (v : BitVec 3) (s : State) : (driveCsn v s).rxb = s.rxb := rfl
@[simp] theorem driveCsn_pollcnt (v : BitVec 3) (s : State) : (driveCsn v s).pollcnt = s.pollcnt := rfl
@[simp] theorem driveCsn_xstat (v : BitVec 3) (s : State) : (driveCsn v s).xstat = s.xstat := rfl
@[simp] theorem driveCsn_csn (v : BitVec 3) (s : State) : (driveCsn v s).csn = v := rfl
@[simp] theorem driveCsn_inited (v : BitVec 3) (s : State) : (driveCsn v s).inited = s.inited := rfl
@[simp] theorem driveCsn_faultHang (v : BitVec 3) (s : State) : (driveCsn v s).faultHang = s.faultHang := rfl
@[simp] theorem driveCsn_result (v : BitVec 3) (s : State) : (driveCsn v s).result = s.result := rfl
@[simp] theorem driveCsn_rdata (v : BitVec 3) (s : State) : (driveCsn v s).rdata = s.rdata := rfl
@[simp] theorem driveCsn_owner (v : BitVec 3) (s : State) : (driveCsn v s).owner = s.owner := rfl
@[simp] theorem driveCsn_waiters (v : BitVec 3) (s : State) : (driveCsn v s).waiters = s.waiters := rfl
@[simp] theorem driveCsn_offered (v : BitVec 3) (s : State) : (driveCsn v s).offered = s.offered := rfl
@[simp] theorem driveCsn_initPending (v : BitVec 3) (s : State) : (driveCsn v s).initPending = s.initPending := rfl
@[simp] theorem driveCsn_pending (v : BitVec 3) (s : State) : (driveCsn v s).pending = s.pending := rfl
@[simp] theorem driveCsn_portCaller (v : BitVec 3) (s : State) : (driveCsn v s).portCaller = s.portCaller := rfl
@[simp] theorem driveCsn_ctl (v : BitVec 3) (s : State) : (driveCsn v s).ctl = s.ctl := rfl
@[simp] theorem driveCsn_mem (v : BitVec 3) (s : State) : (driveCsn v s).mem = s.mem := rfl
@[simp] theorem driveCsn_agenda (v : BitVec 3) (s : State) : (driveCsn v s).agenda = s.agenda := rfl
@[simp] theorem driveCsn_oracle (v : BitVec 3) (s : State) : (driveCsn v s).oracle = s.oracle := rfl
@[simp] theorem driveCsn_history (v : BitVec 3) (s : State) : (driveCsn v s).history = .csn v :: s.history := rfl

@[simp] theorem takePacket_cfg (c : Nat) (s : State) : (takePacket c s).cfg = s.cfg := rfl
@[simp] theorem takePacket_cmdbuf (c : Nat) (s : State) : (takePacket c s).cmdbuf = s.cmdbuf := rfl
@[simp] theorem takePacket_enc (c : Nat) (s : State) : (takePacket c s).enc = s.enc := rfl
@[simp] theorem takePacket_ctx (c : Nat) (s : State) : (takePacket c s).ctx = s.ctx := rfl
@[simp] theorem takePacket_ph (c : Nat) (s : State) : (takePacket c s).ph = s.ph := rfl
@[simp] theorem takePacket_idx (c : Nat) (s : State) : (takePacket c s).idx = s.idx := rfl
@[simp] theorem takePacket_txb (c : Nat) (s : State) : (takePacket c s).txb = s.txb := rfl
@[simp] theorem takePacket_rxb (c : Nat) (s : State) : (takePacket c s).rxb = s.rxb := rfl
@[simp] theorem takePacket_pollcnt (c : Nat) (s : State) : (takePacket c s).pollcnt = s.pollcnt := rfl
@[simp] theorem takePacket_xstat (c : Nat) (s : State) : (takePacket c s).xstat = s.xstat := rfl
@[simp] theorem takePacket_csn (c : Nat) (s : State) : (takePacket c s).csn = s.csn := rfl
@[simp] theorem takePacket_inited (c : Nat) (s : State) : (takePacket c s).inited = s.inited := rfl
@[simp] theorem takePacket_faultHang (c : Nat) (s : State) : (takePacket c s).faultHang = s.faultHang := rfl
@[simp] theorem takePacket_result (c : Nat) (s : State) : (takePacket c s).result = s.result := rfl
@[simp] theorem takePacket_rdata (c : Nat) (s : State) : (takePacket c s).rdata = s.rdata := rfl
@[simp] theorem takePacket_owner (c : Nat) (s : State) : (takePacket c s).owner = s.owner := rfl
@[simp] theorem takePacket_waiters (c : Nat) (s : State) : (takePacket c s).waiters = s.waiters := rfl
@[simp] theorem takePacket_offered (c : Nat) (s : State) : (takePacket c s).offered = s.offered := rfl
@[simp] theorem takePacket_initPending (c : Nat) (s : State) : (takePacket c s).initPending = s.initPending := rfl
@[simp] theorem takePacket_pending (c : Nat) (s : State) : (takePacket c s).pending = erasePending c s.pending := rfl
@[simp] theorem takePacket_portCaller (c : Nat) (s : State) : (takePacket c s).portCaller = c := rfl
@[simp] theorem takePacket_ctl (c : Nat) (s : State) : (takePacket c s).ctl = s.ctl := rfl
@[simp] theorem takePacket_mem (c : Nat) (s : State) : (takePacket c s).mem = s.mem := rfl
@[simp] theorem takePacket_agenda (c : Nat) (s : State) : (takePacket c s).agenda = s.agenda := rfl
@[simp] theorem takePacket_oracle (c : Nat) (s : State) : (takePacket c s).oracle = s.oracle := rfl
@[simp] theorem takePacket_history (c : Nat) (s : State) : (takePacket c s).history = s.history := rfl

@[simp] theorem joinWaiters_cfg (c : Nat) (p : Packet) (s : State) : (joinWaiters c p s).cfg = s.cfg := rfl
@[simp] theorem joinWaiters_cmdbuf (c : Nat) (p : Packet) (s : State) : (joinWaiters c p s).cmdbuf = s.cmdbuf := rfl
@[simp] theorem joinWaiters_enc (c : Nat) (p : Packet) (s : State) : (joinWaiters c p s).enc = s.enc := rfl
@[simp] theorem joinWaiters_ctx (c : Nat) (p : Packet) (s : State) : (joinWaiters c p s).ctx = s.ctx := rfl
@[simp] theorem joinWaiters_ph (c : Nat) (p : Packet) (s : State) : (joinWaiters c p s).ph = s.ph := rfl
@[simp] theorem joinWaiters_idx (c : Nat) (p : Packet) (s : State) : (joinWaiters c p s).idx = s.idx := rfl
@[simp] theorem joinWaiters_txb (c : Nat) (p : Packet) (s : State) : (joinWaiters c p s).txb = s.txb := rfl
@[simp] theorem joinWaiters_rxb (c : Nat) (p : Packet) (s : State) : (joinWaiters c p s).rxb = s.rxb := rfl
@[simp] theorem joinWaiters_pollcnt (c : Nat) (p : Packet) (s : State) : (joinWaiters c p s).pollcnt = s.pollcnt := rfl
@[simp] theorem joinWaiters_xstat (c : Nat) (p : Packet) (s : State) : (joinWaiters c p s).xstat = s.xstat := rfl
@[simp] theorem joinWaiters_csn (c : Nat) (p : Packet) (s : State) : (joinWaiters c p s).csn = s.csn := rfl
@[simp] theorem joinWaiters_inited (c : Nat) (p : Packet) (s : State) : (joinWaiters c p s).inited = s.inited := rfl
@[simp] theorem joinWaiters_faultHang (c : Nat) (p : Packet) (s : State) : (joinWaiters c p s).faultHang = s.faultHang := rfl
@[simp] theorem joinWaiters_result (c : Nat) (p : Packet) (s : State) : (joinWaiters c p s).result = s.result := rfl
@[simp] theorem joinWaiters_rdata (c : Nat) (p : Packet) (s : State) : (joinWaiters c p s).rdata = s.rdata := rfl
@[simp] theorem joinWaiters_owner (c : Nat) (p : Packet) (s : State) : (joinWaiters c p s).owner = s.owner := rfl
@[simp] theorem joinWaiters_waiters (c : Nat) (p : Packet) (s : State) : (joinWaiters c p s).waiters = insertPending { caller := c, packet := p } s.waiters := rfl
@[simp] theorem joinWaiters_offered (c : Nat) (p : Packet) (s : State) : (joinWaiters c p s).offered = s.offered := rfl
@[simp] theorem joinWaiters_initPending (c : Nat) (p : Packet) (s : State) : (joinWaiters c p s).initPending = s.initPending := rfl
@[simp] theorem joinWaiters_pending (c : Nat) (p : Packet) (s : State) : (joinWaiters c p s).pending = s.pending := rfl
@[simp] theorem joinWaiters_portCaller (c : Nat) (p : Packet) (s : State) : (joinWaiters c p s).portCaller = s.portCaller := rfl
@[simp] theorem joinWaiters_ctl (c : Nat) (p : Packet) (s : State) : (joinWaiters c p s).ctl = s.ctl := rfl
@[simp] theorem joinWaiters_mem (c : Nat) (p : Packet) (s : State) : (joinWaiters c p s).mem = s.mem := rfl
@[simp] theorem joinWaiters_agenda (c : Nat) (p : Packet) (s : State) : (joinWaiters c p s).agenda = s.agenda := rfl
@[simp] theorem joinWaiters_oracle (c : Nat) (p : Packet) (s : State) : (joinWaiters c p s).oracle = s.oracle := rfl
@[simp] theorem joinWaiters_history (c : Nat) (p : Packet) (s : State) : (joinWaiters c p s).history = s.history := rfl

@[simp] theorem joinOffered_cfg (c : Nat) (p : Packet) (s : State) : (joinOffered c p s).cfg = s.cfg := rfl
@[simp] theorem joinOffered_cmdbuf (c : Nat) (p : Packet) (s : State) : (joinOffered c p s).cmdbuf = s.cmdbuf := rfl
@[simp] theorem joinOffered_enc (c : Nat) (p : Packet) (s : State) : (joinOffered c p s).enc = s.enc := rfl
@[simp] theorem joinOffered_ctx (c : Nat) (p : Packet) (s : State) : (joinOffered c p s).ctx = s.ctx := rfl
@[simp] theorem joinOffered_ph (c : Nat) (p : Packet) (s : State) : (joinOffered c p s).ph = s.ph := rfl
@[simp] theorem joinOffered_idx (c : Nat) (p : Packet) (s : State) : (joinOffered c p s).idx = s.idx := rfl
@[simp] theorem joinOffered_txb (c : Nat) (p : Packet) (s : State) : (joinOffered c p s).txb = s.txb := rfl
@[simp] theorem joinOffered_rxb (c : Nat) (p : Packet) (s : State) : (joinOffered c p s).rxb = s.rxb := rfl
@[simp] theorem joinOffered_pollcnt (c : Nat) (p : Packet) (s : State) : (joinOffered c p s).pollcnt = s.pollcnt := rfl
@[simp] theorem joinOffered_xstat (c : Nat) (p : Packet) (s : State) : (joinOffered c p s).xstat = s.xstat := rfl
@[simp] theorem joinOffered_csn (c : Nat) (p : Packet) (s : State) : (joinOffered c p s).csn = s.csn := rfl
@[simp] theorem joinOffered_inited (c : Nat) (p : Packet) (s : State) : (joinOffered c p s).inited = s.inited := rfl
@[simp] theorem joinOffered_faultHang (c : Nat) (p : Packet) (s : State) : (joinOffered c p s).faultHang = s.faultHang := rfl
@[simp] theorem joinOffered_result (c : Nat) (p : Packet) (s : State) : (joinOffered c p s).result = s.result := rfl
@[simp] theorem joinOffered_rdata (c : Nat) (p : Packet) (s : State) : (joinOffered c p s).rdata = s.rdata := rfl
@[simp] theorem joinOffered_owner (c : Nat) (p : Packet) (s : State) : (joinOffered c p s).owner = s.owner := rfl
@[simp] theorem joinOffered_waiters (c : Nat) (p : Packet) (s : State) : (joinOffered c p s).waiters = s.waiters := rfl
@[simp] theorem joinOffered_offered (c : Nat) (p : Packet) (s : State) : (joinOffered c p s).offered = insertPending { caller := c, packet := p } s.offered := rfl
@[simp] theorem joinOffered_initPending (c : Nat) (p : Packet) (s : State) : (joinOffered c p s).initPending = s.initPending := rfl
@[simp] theorem joinOffered_pending (c : Nat) (p : Packet) (s : State) : (joinOffered c p s).pending = s.pending := rfl
@[simp] theorem joinOffered_portCaller (c : Nat) (p : Packet) (s : State) : (joinOffered c p s).portCaller = s.portCaller := rfl
@[simp] theorem joinOffered_ctl (c : Nat) (p : Packet) (s : State) : (joinOffered c p s).ctl = s.ctl := rfl
@[simp] theorem joinOffered_mem (c : Nat) (p : Packet) (s : State) : (joinOffered c p s).mem = s.mem := rfl
@[simp] theorem joinOffered_agenda (c : Nat) (p : Packet) (s : State) : (joinOffered c p s).agenda = s.agenda := rfl
@[simp] theorem joinOffered_oracle (c : Nat) (p : Packet) (s : State) : (joinOffered c p s).oracle = s.oracle := rfl
@[simp] theorem joinOffered_history (c : Nat) (p : Packet) (s : State) : (joinOffered c p s).history = s.history := rfl

@[simp] theorem voidUnlessMode_cfg (s : State) : (voidUnlessMode s).cfg = s.cfg := rfl
@[simp] theorem voidUnlessMode_cmdbuf (s : State) : (voidUnlessMode s).cmdbuf = s.cmdbuf := rfl
@[simp] theorem voidUnlessMode_enc (s : State) : (voidUnlessMode s).enc = s.enc := rfl
@[simp] theorem voidUnlessMode_ctx (s : State) : (voidUnlessMode s).ctx = s.ctx := rfl
@[simp] theorem voidUnlessMode_ph (s : State) : (voidUnlessMode s).ph = s.ph := rfl
@[simp] theorem voidUnlessMode_idx (s : State) : (voidUnlessMode s).idx = s.idx := rfl
@[simp] theorem voidUnlessMode_txb (s : State) : (voidUnlessMode s).txb = s.txb := rfl
@[simp] theorem voidUnlessMode_rxb (s : State) : (voidUnlessMode s).rxb = s.rxb := rfl
@[simp] theorem voidUnlessMode_pollcnt (s : State) : (voidUnlessMode s).pollcnt = s.pollcnt := rfl
@[simp] theorem voidUnlessMode_xstat (s : State) : (voidUnlessMode s).xstat = s.xstat := rfl
@[simp] theorem voidUnlessMode_csn (s : State) : (voidUnlessMode s).csn = s.csn := rfl
@[simp] theorem voidUnlessMode_inited (s : State) : (voidUnlessMode s).inited = s.inited := rfl
@[simp] theorem voidUnlessMode_faultHang (s : State) : (voidUnlessMode s).faultHang = s.faultHang := rfl
@[simp] theorem voidUnlessMode_result (s : State) : (voidUnlessMode s).result = s.result := rfl
@[simp] theorem voidUnlessMode_rdata (s : State) : (voidUnlessMode s).rdata = s.rdata := rfl
@[simp] theorem voidUnlessMode_owner (s : State) : (voidUnlessMode s).owner = s.owner := rfl
@[simp] theorem voidUnlessMode_waiters (s : State) : (voidUnlessMode s).waiters = s.waiters := rfl
@[simp] theorem voidUnlessMode_offered (s : State) : (voidUnlessMode s).offered = s.offered := rfl
@[simp] theorem voidUnlessMode_initPending (s : State) : (voidUnlessMode s).initPending = s.initPending := rfl
@[simp] theorem voidUnlessMode_pending (s : State) : (voidUnlessMode s).pending = s.pending := rfl
@[simp] theorem voidUnlessMode_portCaller (s : State) : (voidUnlessMode s).portCaller = s.portCaller := rfl
@[simp] theorem voidUnlessMode_ctl (s : State) : (voidUnlessMode s).ctl = { s.ctl with txnVoid := s.ctl.txnVoid || !modeHolds s } := rfl
@[simp] theorem voidUnlessMode_mem (s : State) : (voidUnlessMode s).mem = s.mem := rfl
@[simp] theorem voidUnlessMode_agenda (s : State) : (voidUnlessMode s).agenda = s.agenda := rfl
@[simp] theorem voidUnlessMode_oracle (s : State) : (voidUnlessMode s).oracle = s.oracle := rfl
@[simp] theorem voidUnlessMode_history (s : State) : (voidUnlessMode s).history = s.history := rfl

@[simp] theorem acquire_cfg (w : Pending) (s : State) : (acquire w s).cfg = s.cfg := rfl
@[simp] theorem acquire_cmdbuf (w : Pending) (s : State) : (acquire w s).cmdbuf = w.packet := rfl
@[simp] theorem acquire_enc (w : Pending) (s : State) : (acquire w s).enc = s.enc := rfl
@[simp] theorem acquire_ctx (w : Pending) (s : State) : (acquire w s).ctx = { s.ctx with lock := true } := rfl
@[simp] theorem acquire_ph (w : Pending) (s : State) : (acquire w s).ph = Ph.validate := rfl
@[simp] theorem acquire_idx (w : Pending) (s : State) : (acquire w s).idx = s.idx := rfl
@[simp] theorem acquire_txb (w : Pending) (s : State) : (acquire w s).txb = s.txb := rfl
@[simp] theorem acquire_rxb (w : Pending) (s : State) : (acquire w s).rxb = s.rxb := rfl
@[simp] theorem acquire_pollcnt (w : Pending) (s : State) : (acquire w s).pollcnt = s.pollcnt := rfl
@[simp] theorem acquire_xstat (w : Pending) (s : State) : (acquire w s).xstat = s.xstat := rfl
@[simp] theorem acquire_csn (w : Pending) (s : State) : (acquire w s).csn = s.csn := rfl
@[simp] theorem acquire_inited (w : Pending) (s : State) : (acquire w s).inited = s.inited := rfl
@[simp] theorem acquire_faultHang (w : Pending) (s : State) : (acquire w s).faultHang = s.faultHang := rfl
@[simp] theorem acquire_result (w : Pending) (s : State) : (acquire w s).result = s.result := rfl
@[simp] theorem acquire_rdata (w : Pending) (s : State) : (acquire w s).rdata = s.rdata := rfl
@[simp] theorem acquire_owner (w : Pending) (s : State) : (acquire w s).owner = w.caller := rfl
@[simp] theorem acquire_waiters (w : Pending) (s : State) : (acquire w s).waiters = erasePending w.caller s.waiters := rfl
@[simp] theorem acquire_offered (w : Pending) (s : State) : (acquire w s).offered = if s.cfg.nonblocking then erasePending w.caller s.offered else s.offered := rfl
@[simp] theorem acquire_initPending (w : Pending) (s : State) : (acquire w s).initPending = s.initPending := rfl
@[simp] theorem acquire_pending (w : Pending) (s : State) : (acquire w s).pending = if s.cfg.nonblocking then erasePending w.caller s.pending else s.pending := rfl
@[simp] theorem acquire_portCaller (w : Pending) (s : State) : (acquire w s).portCaller = s.portCaller := rfl
@[simp] theorem acquire_ctl (w : Pending) (s : State) : (acquire w s).ctl = { s.ctl with txnVoid := voidAtAcceptance w.packet s, isVoid := s.ctl.isVoid || (noneAccepted s && voidAtAcceptance w.packet s) } := rfl
@[simp] theorem acquire_mem (w : Pending) (s : State) : (acquire w s).mem = s.mem := rfl
@[simp] theorem acquire_agenda (w : Pending) (s : State) : (acquire w s).agenda = s.agenda := rfl
@[simp] theorem acquire_oracle (w : Pending) (s : State) : (acquire w s).oracle = s.oracle := rfl
@[simp] theorem acquire_history (w : Pending) (s : State) : (acquire w s).history = s.history := rfl

@[simp] theorem acceptInit_cfg (c : Nat) (s : State) : (acceptInit c s).cfg = s.cfg := rfl
@[simp] theorem acceptInit_cmdbuf (c : Nat) (s : State) : (acceptInit c s).cmdbuf = s.cmdbuf := rfl
@[simp] theorem acceptInit_enc (c : Nat) (s : State) : (acceptInit c s).enc = s.enc := rfl
@[simp] theorem acceptInit_ctx (c : Nat) (s : State) : (acceptInit c s).ctx = s.ctx := rfl
@[simp] theorem acceptInit_ph (c : Nat) (s : State) : (acceptInit c s).ph = Ph.initClock := rfl
@[simp] theorem acceptInit_idx (c : Nat) (s : State) : (acceptInit c s).idx = s.idx := rfl
@[simp] theorem acceptInit_txb (c : Nat) (s : State) : (acceptInit c s).txb = s.txb := rfl
@[simp] theorem acceptInit_rxb (c : Nat) (s : State) : (acceptInit c s).rxb = s.rxb := rfl
@[simp] theorem acceptInit_pollcnt (c : Nat) (s : State) : (acceptInit c s).pollcnt = s.pollcnt := rfl
@[simp] theorem acceptInit_xstat (c : Nat) (s : State) : (acceptInit c s).xstat = s.xstat := rfl
@[simp] theorem acceptInit_csn (c : Nat) (s : State) : (acceptInit c s).csn = s.csn := rfl
@[simp] theorem acceptInit_inited (c : Nat) (s : State) : (acceptInit c s).inited = s.inited := rfl
@[simp] theorem acceptInit_faultHang (c : Nat) (s : State) : (acceptInit c s).faultHang = s.faultHang := rfl
@[simp] theorem acceptInit_result (c : Nat) (s : State) : (acceptInit c s).result = s.result := rfl
@[simp] theorem acceptInit_rdata (c : Nat) (s : State) : (acceptInit c s).rdata = s.rdata := rfl
@[simp] theorem acceptInit_owner (c : Nat) (s : State) : (acceptInit c s).owner = c := rfl
@[simp] theorem acceptInit_waiters (c : Nat) (s : State) : (acceptInit c s).waiters = s.waiters := rfl
@[simp] theorem acceptInit_offered (c : Nat) (s : State) : (acceptInit c s).offered = s.offered := rfl
@[simp] theorem acceptInit_initPending (c : Nat) (s : State) : (acceptInit c s).initPending = none := rfl
@[simp] theorem acceptInit_pending (c : Nat) (s : State) : (acceptInit c s).pending = s.pending := rfl
@[simp] theorem acceptInit_portCaller (c : Nat) (s : State) : (acceptInit c s).portCaller = s.portCaller := rfl
@[simp] theorem acceptInit_ctl (c : Nat) (s : State) : (acceptInit c s).ctl = s.ctl := rfl
@[simp] theorem acceptInit_mem (c : Nat) (s : State) : (acceptInit c s).mem = s.mem := rfl
@[simp] theorem acceptInit_agenda (c : Nat) (s : State) : (acceptInit c s).agenda = s.agenda := rfl
@[simp] theorem acceptInit_oracle (c : Nat) (s : State) : (acceptInit c s).oracle = s.oracle := rfl
@[simp] theorem acceptInit_history (c : Nat) (s : State) : (acceptInit c s).history = s.history := rfl

@[simp] theorem hang_cfg (s : State) : (hang s).cfg = s.cfg := rfl
@[simp] theorem hang_cmdbuf (s : State) : (hang s).cmdbuf = s.cmdbuf := rfl
@[simp] theorem hang_enc (s : State) : (hang s).enc = s.enc := rfl
@[simp] theorem hang_ctx (s : State) : (hang s).ctx = s.ctx := rfl
@[simp] theorem hang_ph (s : State) : (hang s).ph = Ph.csDeassert := rfl
@[simp] theorem hang_idx (s : State) : (hang s).idx = s.idx := rfl
@[simp] theorem hang_txb (s : State) : (hang s).txb = s.txb := rfl
@[simp] theorem hang_rxb (s : State) : (hang s).rxb = s.rxb := rfl
@[simp] theorem hang_pollcnt (s : State) : (hang s).pollcnt = s.pollcnt := rfl
@[simp] theorem hang_xstat (s : State) : (hang s).xstat = causeCode .txcTimeout := rfl
@[simp] theorem hang_csn (s : State) : (hang s).csn = s.csn := rfl
@[simp] theorem hang_inited (s : State) : (hang s).inited = s.inited := rfl
@[simp] theorem hang_faultHang (s : State) : (hang s).faultHang = true := rfl
@[simp] theorem hang_result (s : State) : (hang s).result = s.result := rfl
@[simp] theorem hang_rdata (s : State) : (hang s).rdata = s.rdata := rfl
@[simp] theorem hang_owner (s : State) : (hang s).owner = s.owner := rfl
@[simp] theorem hang_waiters (s : State) : (hang s).waiters = s.waiters := rfl
@[simp] theorem hang_offered (s : State) : (hang s).offered = s.offered := rfl
@[simp] theorem hang_initPending (s : State) : (hang s).initPending = s.initPending := rfl
@[simp] theorem hang_pending (s : State) : (hang s).pending = s.pending := rfl
@[simp] theorem hang_portCaller (s : State) : (hang s).portCaller = s.portCaller := rfl
@[simp] theorem hang_ctl (s : State) : (hang s).ctl = { s.ctl with isVoid := true } := rfl
@[simp] theorem hang_mem (s : State) : (hang s).mem = s.mem := rfl
@[simp] theorem hang_agenda (s : State) : (hang s).agenda = s.agenda := rfl
@[simp] theorem hang_oracle (s : State) : (hang s).oracle = s.oracle := rfl
@[simp] theorem hang_history (s : State) : (hang s).history = s.history := rfl

@[simp] theorem nextFrame_cfg (s : State) : (nextFrame s).cfg = s.cfg := rfl
@[simp] theorem nextFrame_cmdbuf (s : State) : (nextFrame s).cmdbuf = s.cmdbuf := rfl
@[simp] theorem nextFrame_enc (s : State) : (nextFrame s).enc = s.enc := rfl
@[simp] theorem nextFrame_ctx (s : State) : (nextFrame s).ctx = s.ctx := rfl
@[simp] theorem nextFrame_ph (s : State) : (nextFrame s).ph = if s.idx.toNat + 1 < (longest s).toNat then Ph.txFetch else Ph.csDeassert := rfl
@[simp] theorem nextFrame_idx (s : State) : (nextFrame s).idx = s.idx + 1#32 := rfl
@[simp] theorem nextFrame_txb (s : State) : (nextFrame s).txb = s.txb := rfl
@[simp] theorem nextFrame_rxb (s : State) : (nextFrame s).rxb = s.rxb := rfl
@[simp] theorem nextFrame_pollcnt (s : State) : (nextFrame s).pollcnt = s.pollcnt := rfl
@[simp] theorem nextFrame_xstat (s : State) : (nextFrame s).xstat = s.xstat := rfl
@[simp] theorem nextFrame_csn (s : State) : (nextFrame s).csn = s.csn := rfl
@[simp] theorem nextFrame_inited (s : State) : (nextFrame s).inited = s.inited := rfl
@[simp] theorem nextFrame_faultHang (s : State) : (nextFrame s).faultHang = s.faultHang := rfl
@[simp] theorem nextFrame_result (s : State) : (nextFrame s).result = s.result := rfl
@[simp] theorem nextFrame_rdata (s : State) : (nextFrame s).rdata = s.rdata := rfl
@[simp] theorem nextFrame_owner (s : State) : (nextFrame s).owner = s.owner := rfl
@[simp] theorem nextFrame_waiters (s : State) : (nextFrame s).waiters = s.waiters := rfl
@[simp] theorem nextFrame_offered (s : State) : (nextFrame s).offered = s.offered := rfl
@[simp] theorem nextFrame_initPending (s : State) : (nextFrame s).initPending = s.initPending := rfl
@[simp] theorem nextFrame_pending (s : State) : (nextFrame s).pending = s.pending := rfl
@[simp] theorem nextFrame_portCaller (s : State) : (nextFrame s).portCaller = s.portCaller := rfl
@[simp] theorem nextFrame_ctl (s : State) : (nextFrame s).ctl = s.ctl := rfl
@[simp] theorem nextFrame_mem (s : State) : (nextFrame s).mem = s.mem := rfl
@[simp] theorem nextFrame_agenda (s : State) : (nextFrame s).agenda = s.agenda := rfl
@[simp] theorem nextFrame_oracle (s : State) : (nextFrame s).oracle = s.oracle := rfl
@[simp] theorem nextFrame_history (s : State) : (nextFrame s).history = s.history := rfl

@[simp] theorem finishFrame_cfg (r a b : Byte) (s : State) : (finishFrame r a b s).cfg = s.cfg := rfl
@[simp] theorem finishFrame_cmdbuf (r a b : Byte) (s : State) : (finishFrame r a b s).cmdbuf = s.cmdbuf := rfl
@[simp] theorem finishFrame_enc (r a b : Byte) (s : State) : (finishFrame r a b s).enc = s.enc := rfl
@[simp] theorem finishFrame_ctx (r a b : Byte) (s : State) : (finishFrame r a b s).ctx = s.ctx := rfl
@[simp] theorem finishFrame_ph (r a b : Byte) (s : State) : (finishFrame r a b s).ph = s.ph := rfl
@[simp] theorem finishFrame_idx (r a b : Byte) (s : State) : (finishFrame r a b s).idx = s.idx := rfl
@[simp] theorem finishFrame_txb (r a b : Byte) (s : State) : (finishFrame r a b s).txb = s.txb := rfl
@[simp] theorem finishFrame_rxb (r a b : Byte) (s : State) : (finishFrame r a b s).rxb = s.rxb := rfl
@[simp] theorem finishFrame_pollcnt (r a b : Byte) (s : State) : (finishFrame r a b s).pollcnt = s.pollcnt := rfl
@[simp] theorem finishFrame_xstat (r a b : Byte) (s : State) : (finishFrame r a b s).xstat = s.xstat := rfl
@[simp] theorem finishFrame_csn (r a b : Byte) (s : State) : (finishFrame r a b s).csn = s.csn := rfl
@[simp] theorem finishFrame_inited (r a b : Byte) (s : State) : (finishFrame r a b s).inited = s.inited := rfl
@[simp] theorem finishFrame_faultHang (r a b : Byte) (s : State) : (finishFrame r a b s).faultHang = s.faultHang := rfl
@[simp] theorem finishFrame_result (r a b : Byte) (s : State) : (finishFrame r a b s).result = s.result := rfl
@[simp] theorem finishFrame_rdata (r a b : Byte) (s : State) : (finishFrame r a b s).rdata = s.rdata := rfl
@[simp] theorem finishFrame_owner (r a b : Byte) (s : State) : (finishFrame r a b s).owner = s.owner := rfl
@[simp] theorem finishFrame_waiters (r a b : Byte) (s : State) : (finishFrame r a b s).waiters = s.waiters := rfl
@[simp] theorem finishFrame_offered (r a b : Byte) (s : State) : (finishFrame r a b s).offered = s.offered := rfl
@[simp] theorem finishFrame_initPending (r a b : Byte) (s : State) : (finishFrame r a b s).initPending = s.initPending := rfl
@[simp] theorem finishFrame_pending (r a b : Byte) (s : State) : (finishFrame r a b s).pending = s.pending := rfl
@[simp] theorem finishFrame_portCaller (r a b : Byte) (s : State) : (finishFrame r a b s).portCaller = s.portCaller := rfl
@[simp] theorem finishFrame_ctl (r a b : Byte) (s : State) : (finishFrame r a b s).ctl = { s.ctl with rxh := r, srIn := r, rxready := true, txc := true, txidle := true, inflight := false } := rfl
@[simp] theorem finishFrame_mem (r a b : Byte) (s : State) : (finishFrame r a b s).mem = s.mem := rfl
@[simp] theorem finishFrame_agenda (r a b : Byte) (s : State) : (finishFrame r a b s).agenda = s.agenda := rfl
@[simp] theorem finishFrame_oracle (r a b : Byte) (s : State) : (finishFrame r a b s).oracle = s.oracle := rfl
@[simp] theorem finishFrame_history (r a b : Byte) (s : State) : (finishFrame r a b s).history = .frame s.csn a b (routeOf s.cfg.lay s.ctl) :: s.history := rfl

@[simp] theorem drawWord_cfg (s : State) : (drawWord s).2.cfg = s.cfg := by unfold drawWord; split <;> rfl
@[simp] theorem drawWord_cmdbuf (s : State) : (drawWord s).2.cmdbuf = s.cmdbuf := by unfold drawWord; split <;> rfl
@[simp] theorem drawWord_enc (s : State) : (drawWord s).2.enc = s.enc := by unfold drawWord; split <;> rfl
@[simp] theorem drawWord_ctx (s : State) : (drawWord s).2.ctx = s.ctx := by unfold drawWord; split <;> rfl
@[simp] theorem drawWord_ph (s : State) : (drawWord s).2.ph = s.ph := by unfold drawWord; split <;> rfl
@[simp] theorem drawWord_idx (s : State) : (drawWord s).2.idx = s.idx := by unfold drawWord; split <;> rfl
@[simp] theorem drawWord_txb (s : State) : (drawWord s).2.txb = s.txb := by unfold drawWord; split <;> rfl
@[simp] theorem drawWord_rxb (s : State) : (drawWord s).2.rxb = s.rxb := by unfold drawWord; split <;> rfl
@[simp] theorem drawWord_pollcnt (s : State) : (drawWord s).2.pollcnt = s.pollcnt := by unfold drawWord; split <;> rfl
@[simp] theorem drawWord_xstat (s : State) : (drawWord s).2.xstat = s.xstat := by unfold drawWord; split <;> rfl
@[simp] theorem drawWord_csn (s : State) : (drawWord s).2.csn = s.csn := by unfold drawWord; split <;> rfl
@[simp] theorem drawWord_inited (s : State) : (drawWord s).2.inited = s.inited := by unfold drawWord; split <;> rfl
@[simp] theorem drawWord_faultHang (s : State) : (drawWord s).2.faultHang = s.faultHang := by unfold drawWord; split <;> rfl
@[simp] theorem drawWord_result (s : State) : (drawWord s).2.result = s.result := by unfold drawWord; split <;> rfl
@[simp] theorem drawWord_rdata (s : State) : (drawWord s).2.rdata = s.rdata := by unfold drawWord; split <;> rfl
@[simp] theorem drawWord_owner (s : State) : (drawWord s).2.owner = s.owner := by unfold drawWord; split <;> rfl
@[simp] theorem drawWord_waiters (s : State) : (drawWord s).2.waiters = s.waiters := by unfold drawWord; split <;> rfl
@[simp] theorem drawWord_offered (s : State) : (drawWord s).2.offered = s.offered := by unfold drawWord; split <;> rfl
@[simp] theorem drawWord_initPending (s : State) : (drawWord s).2.initPending = s.initPending := by unfold drawWord; split <;> rfl
@[simp] theorem drawWord_pending (s : State) : (drawWord s).2.pending = s.pending := by unfold drawWord; split <;> rfl
@[simp] theorem drawWord_portCaller (s : State) : (drawWord s).2.portCaller = s.portCaller := by unfold drawWord; split <;> rfl
@[simp] theorem drawWord_ctl (s : State) : (drawWord s).2.ctl = s.ctl := by unfold drawWord; split <;> rfl
@[simp] theorem drawWord_mem (s : State) : (drawWord s).2.mem = s.mem := by unfold drawWord; split <;> rfl
@[simp] theorem drawWord_agenda (s : State) : (drawWord s).2.agenda = s.agenda := by unfold drawWord; split <;> rfl
@[simp] theorem drawWord_history (s : State) : (drawWord s).2.history = s.history := by unfold drawWord; split <;> rfl

@[simp] theorem drawByte_cfg (s : State) : (drawByte s).2.cfg = s.cfg := by unfold drawByte; split <;> rfl
@[simp] theorem drawByte_cmdbuf (s : State) : (drawByte s).2.cmdbuf = s.cmdbuf := by unfold drawByte; split <;> rfl
@[simp] theorem drawByte_enc (s : State) : (drawByte s).2.enc = s.enc := by unfold drawByte; split <;> rfl
@[simp] theorem drawByte_ctx (s : State) : (drawByte s).2.ctx = s.ctx := by unfold drawByte; split <;> rfl
@[simp] theorem drawByte_ph (s : State) : (drawByte s).2.ph = s.ph := by unfold drawByte; split <;> rfl
@[simp] theorem drawByte_idx (s : State) : (drawByte s).2.idx = s.idx := by unfold drawByte; split <;> rfl
@[simp] theorem drawByte_txb (s : State) : (drawByte s).2.txb = s.txb := by unfold drawByte; split <;> rfl
@[simp] theorem drawByte_rxb (s : State) : (drawByte s).2.rxb = s.rxb := by unfold drawByte; split <;> rfl
@[simp] theorem drawByte_pollcnt (s : State) : (drawByte s).2.pollcnt = s.pollcnt := by unfold drawByte; split <;> rfl
@[simp] theorem drawByte_xstat (s : State) : (drawByte s).2.xstat = s.xstat := by unfold drawByte; split <;> rfl
@[simp] theorem drawByte_csn (s : State) : (drawByte s).2.csn = s.csn := by unfold drawByte; split <;> rfl
@[simp] theorem drawByte_inited (s : State) : (drawByte s).2.inited = s.inited := by unfold drawByte; split <;> rfl
@[simp] theorem drawByte_faultHang (s : State) : (drawByte s).2.faultHang = s.faultHang := by unfold drawByte; split <;> rfl
@[simp] theorem drawByte_result (s : State) : (drawByte s).2.result = s.result := by unfold drawByte; split <;> rfl
@[simp] theorem drawByte_rdata (s : State) : (drawByte s).2.rdata = s.rdata := by unfold drawByte; split <;> rfl
@[simp] theorem drawByte_owner (s : State) : (drawByte s).2.owner = s.owner := by unfold drawByte; split <;> rfl
@[simp] theorem drawByte_waiters (s : State) : (drawByte s).2.waiters = s.waiters := by unfold drawByte; split <;> rfl
@[simp] theorem drawByte_offered (s : State) : (drawByte s).2.offered = s.offered := by unfold drawByte; split <;> rfl
@[simp] theorem drawByte_initPending (s : State) : (drawByte s).2.initPending = s.initPending := by unfold drawByte; split <;> rfl
@[simp] theorem drawByte_pending (s : State) : (drawByte s).2.pending = s.pending := by unfold drawByte; split <;> rfl
@[simp] theorem drawByte_portCaller (s : State) : (drawByte s).2.portCaller = s.portCaller := by unfold drawByte; split <;> rfl
@[simp] theorem drawByte_ctl (s : State) : (drawByte s).2.ctl = s.ctl := by unfold drawByte; split <;> rfl
@[simp] theorem drawByte_mem (s : State) : (drawByte s).2.mem = s.mem := by unfold drawByte; split <;> rfl
@[simp] theorem drawByte_agenda (s : State) : (drawByte s).2.agenda = s.agenda := by unfold drawByte; split <;> rfl
@[simp] theorem drawByte_history (s : State) : (drawByte s).2.history = s.history := by unfold drawByte; split <;> rfl

@[simp] theorem drawPick_cfg (s : State) : (drawPick s).2.cfg = s.cfg := by unfold drawPick; split <;> rfl
@[simp] theorem drawPick_cmdbuf (s : State) : (drawPick s).2.cmdbuf = s.cmdbuf := by unfold drawPick; split <;> rfl
@[simp] theorem drawPick_enc (s : State) : (drawPick s).2.enc = s.enc := by unfold drawPick; split <;> rfl
@[simp] theorem drawPick_ctx (s : State) : (drawPick s).2.ctx = s.ctx := by unfold drawPick; split <;> rfl
@[simp] theorem drawPick_ph (s : State) : (drawPick s).2.ph = s.ph := by unfold drawPick; split <;> rfl
@[simp] theorem drawPick_idx (s : State) : (drawPick s).2.idx = s.idx := by unfold drawPick; split <;> rfl
@[simp] theorem drawPick_txb (s : State) : (drawPick s).2.txb = s.txb := by unfold drawPick; split <;> rfl
@[simp] theorem drawPick_rxb (s : State) : (drawPick s).2.rxb = s.rxb := by unfold drawPick; split <;> rfl
@[simp] theorem drawPick_pollcnt (s : State) : (drawPick s).2.pollcnt = s.pollcnt := by unfold drawPick; split <;> rfl
@[simp] theorem drawPick_xstat (s : State) : (drawPick s).2.xstat = s.xstat := by unfold drawPick; split <;> rfl
@[simp] theorem drawPick_csn (s : State) : (drawPick s).2.csn = s.csn := by unfold drawPick; split <;> rfl
@[simp] theorem drawPick_inited (s : State) : (drawPick s).2.inited = s.inited := by unfold drawPick; split <;> rfl
@[simp] theorem drawPick_faultHang (s : State) : (drawPick s).2.faultHang = s.faultHang := by unfold drawPick; split <;> rfl
@[simp] theorem drawPick_result (s : State) : (drawPick s).2.result = s.result := by unfold drawPick; split <;> rfl
@[simp] theorem drawPick_rdata (s : State) : (drawPick s).2.rdata = s.rdata := by unfold drawPick; split <;> rfl
@[simp] theorem drawPick_owner (s : State) : (drawPick s).2.owner = s.owner := by unfold drawPick; split <;> rfl
@[simp] theorem drawPick_waiters (s : State) : (drawPick s).2.waiters = s.waiters := by unfold drawPick; split <;> rfl
@[simp] theorem drawPick_offered (s : State) : (drawPick s).2.offered = s.offered := by unfold drawPick; split <;> rfl
@[simp] theorem drawPick_initPending (s : State) : (drawPick s).2.initPending = s.initPending := by unfold drawPick; split <;> rfl
@[simp] theorem drawPick_pending (s : State) : (drawPick s).2.pending = s.pending := by unfold drawPick; split <;> rfl
@[simp] theorem drawPick_portCaller (s : State) : (drawPick s).2.portCaller = s.portCaller := by unfold drawPick; split <;> rfl
@[simp] theorem drawPick_ctl (s : State) : (drawPick s).2.ctl = s.ctl := by unfold drawPick; split <;> rfl
@[simp] theorem drawPick_mem (s : State) : (drawPick s).2.mem = s.mem := by unfold drawPick; split <;> rfl
@[simp] theorem drawPick_agenda (s : State) : (drawPick s).2.agenda = s.agenda := by unfold drawPick; split <;> rfl
@[simp] theorem drawPick_history (s : State) : (drawPick s).2.history = s.history := by unfold drawPick; split <;> rfl

@[simp] theorem afterMove_cfg (s : State) : (afterMove s).cfg = s.cfg := by unfold afterMove; split <;> rfl
@[simp] theorem afterMove_cmdbuf (s : State) : (afterMove s).cmdbuf = s.cmdbuf := by unfold afterMove; split <;> rfl
@[simp] theorem afterMove_enc (s : State) : (afterMove s).enc = s.enc := by unfold afterMove; split <;> rfl
@[simp] theorem afterMove_ctx (s : State) : (afterMove s).ctx = s.ctx := by unfold afterMove; split <;> rfl
@[simp] theorem afterMove_ph (s : State) : (afterMove s).ph = s.ph := by unfold afterMove; split <;> rfl
@[simp] theorem afterMove_idx (s : State) : (afterMove s).idx = s.idx := by unfold afterMove; split <;> rfl
@[simp] theorem afterMove_txb (s : State) : (afterMove s).txb = s.txb := by unfold afterMove; split <;> rfl
@[simp] theorem afterMove_rxb (s : State) : (afterMove s).rxb = s.rxb := by unfold afterMove; split <;> rfl
@[simp] theorem afterMove_pollcnt (s : State) : (afterMove s).pollcnt = s.pollcnt := by unfold afterMove; split <;> rfl
@[simp] theorem afterMove_xstat (s : State) : (afterMove s).xstat = s.xstat := by unfold afterMove; split <;> rfl
@[simp] theorem afterMove_csn (s : State) : (afterMove s).csn = s.csn := by unfold afterMove; split <;> rfl
@[simp] theorem afterMove_inited (s : State) : (afterMove s).inited = s.inited := by unfold afterMove; split <;> rfl
@[simp] theorem afterMove_faultHang (s : State) : (afterMove s).faultHang = s.faultHang := by unfold afterMove; split <;> rfl
@[simp] theorem afterMove_result (s : State) : (afterMove s).result = s.result := by unfold afterMove; split <;> rfl
@[simp] theorem afterMove_rdata (s : State) : (afterMove s).rdata = s.rdata := by unfold afterMove; split <;> rfl
@[simp] theorem afterMove_owner (s : State) : (afterMove s).owner = s.owner := by unfold afterMove; split <;> rfl
@[simp] theorem afterMove_waiters (s : State) : (afterMove s).waiters = s.waiters := by unfold afterMove; split <;> rfl
@[simp] theorem afterMove_offered (s : State) : (afterMove s).offered = s.offered := by unfold afterMove; split <;> rfl
@[simp] theorem afterMove_initPending (s : State) : (afterMove s).initPending = s.initPending := by unfold afterMove; split <;> rfl
@[simp] theorem afterMove_pending (s : State) : (afterMove s).pending = s.pending := by unfold afterMove; split <;> rfl
@[simp] theorem afterMove_portCaller (s : State) : (afterMove s).portCaller = s.portCaller := by unfold afterMove; split <;> rfl
@[simp] theorem afterMove_ctl (s : State) : (afterMove s).ctl = s.ctl := by unfold afterMove; split <;> rfl
@[simp] theorem afterMove_mem (s : State) : (afterMove s).mem = s.mem := by unfold afterMove; split <;> rfl
@[simp] theorem afterMove_history (s : State) : (afterMove s).history = s.history := by unfold afterMove; split <;> rfl

@[simp] theorem readStatus_cfg (s : State) : (readStatus s).2.cfg = s.cfg := by simp [readStatus]
@[simp] theorem readStatus_cmdbuf (s : State) : (readStatus s).2.cmdbuf = s.cmdbuf := by simp [readStatus]
@[simp] theorem readStatus_enc (s : State) : (readStatus s).2.enc = s.enc := by simp [readStatus]
@[simp] theorem readStatus_ctx (s : State) : (readStatus s).2.ctx = s.ctx := by simp [readStatus]
@[simp] theorem readStatus_ph (s : State) : (readStatus s).2.ph = s.ph := by simp [readStatus]
@[simp] theorem readStatus_idx (s : State) : (readStatus s).2.idx = s.idx := by simp [readStatus]
@[simp] theorem readStatus_txb (s : State) : (readStatus s).2.txb = s.txb := by simp [readStatus]
@[simp] theorem readStatus_rxb (s : State) : (readStatus s).2.rxb = s.rxb := by simp [readStatus]
@[simp] theorem readStatus_pollcnt (s : State) : (readStatus s).2.pollcnt = s.pollcnt := by simp [readStatus]
@[simp] theorem readStatus_xstat (s : State) : (readStatus s).2.xstat = s.xstat := by simp [readStatus]
@[simp] theorem readStatus_csn (s : State) : (readStatus s).2.csn = s.csn := by simp [readStatus]
@[simp] theorem readStatus_inited (s : State) : (readStatus s).2.inited = s.inited := by simp [readStatus]
@[simp] theorem readStatus_faultHang (s : State) : (readStatus s).2.faultHang = s.faultHang := by simp [readStatus]
@[simp] theorem readStatus_result (s : State) : (readStatus s).2.result = s.result := by simp [readStatus]
@[simp] theorem readStatus_rdata (s : State) : (readStatus s).2.rdata = s.rdata := by simp [readStatus]
@[simp] theorem readStatus_owner (s : State) : (readStatus s).2.owner = s.owner := by simp [readStatus]
@[simp] theorem readStatus_waiters (s : State) : (readStatus s).2.waiters = s.waiters := by simp [readStatus]
@[simp] theorem readStatus_offered (s : State) : (readStatus s).2.offered = s.offered := by simp [readStatus]
@[simp] theorem readStatus_initPending (s : State) : (readStatus s).2.initPending = s.initPending := by simp [readStatus]
@[simp] theorem readStatus_pending (s : State) : (readStatus s).2.pending = s.pending := by simp [readStatus]
@[simp] theorem readStatus_portCaller (s : State) : (readStatus s).2.portCaller = s.portCaller := by simp [readStatus]
@[simp] theorem readStatus_ctl (s : State) : (readStatus s).2.ctl = s.ctl := by simp [readStatus]
@[simp] theorem readStatus_mem (s : State) : (readStatus s).2.mem = s.mem := by simp [readStatus]
@[simp] theorem readStatus_agenda (s : State) : (readStatus s).2.agenda = s.agenda := by simp [readStatus]
@[simp] theorem readStatus_oracle (s : State) : (readStatus s).2.oracle = (drawWord s).2.oracle := by simp [readStatus]
@[simp] theorem readStatus_history (s : State) : (readStatus s).2.history = .regRead .status (regAddr s.cfg .status) (readStatus s).1.word :: s.history := by simp [readStatus]

@[simp] theorem readCtrl_cfg (s : State) : (readCtrl s).2.cfg = s.cfg := by unfold readCtrl; split <;> simp
@[simp] theorem readCtrl_cmdbuf (s : State) : (readCtrl s).2.cmdbuf = s.cmdbuf := by unfold readCtrl; split <;> simp
@[simp] theorem readCtrl_enc (s : State) : (readCtrl s).2.enc = s.enc := by unfold readCtrl; split <;> simp
@[simp] theorem readCtrl_ctx (s : State) : (readCtrl s).2.ctx = s.ctx := by unfold readCtrl; split <;> simp
@[simp] theorem readCtrl_ph (s : State) : (readCtrl s).2.ph = s.ph := by unfold readCtrl; split <;> simp
@[simp] theorem readCtrl_idx (s : State) : (readCtrl s).2.idx = s.idx := by unfold readCtrl; split <;> simp
@[simp] theorem readCtrl_txb (s : State) : (readCtrl s).2.txb = s.txb := by unfold readCtrl; split <;> simp
@[simp] theorem readCtrl_rxb (s : State) : (readCtrl s).2.rxb = s.rxb := by unfold readCtrl; split <;> simp
@[simp] theorem readCtrl_pollcnt (s : State) : (readCtrl s).2.pollcnt = s.pollcnt := by unfold readCtrl; split <;> simp
@[simp] theorem readCtrl_xstat (s : State) : (readCtrl s).2.xstat = s.xstat := by unfold readCtrl; split <;> simp
@[simp] theorem readCtrl_csn (s : State) : (readCtrl s).2.csn = s.csn := by unfold readCtrl; split <;> simp
@[simp] theorem readCtrl_inited (s : State) : (readCtrl s).2.inited = s.inited := by unfold readCtrl; split <;> simp
@[simp] theorem readCtrl_faultHang (s : State) : (readCtrl s).2.faultHang = s.faultHang := by unfold readCtrl; split <;> simp
@[simp] theorem readCtrl_result (s : State) : (readCtrl s).2.result = s.result := by unfold readCtrl; split <;> simp
@[simp] theorem readCtrl_rdata (s : State) : (readCtrl s).2.rdata = s.rdata := by unfold readCtrl; split <;> simp
@[simp] theorem readCtrl_owner (s : State) : (readCtrl s).2.owner = s.owner := by unfold readCtrl; split <;> simp
@[simp] theorem readCtrl_waiters (s : State) : (readCtrl s).2.waiters = s.waiters := by unfold readCtrl; split <;> simp
@[simp] theorem readCtrl_offered (s : State) : (readCtrl s).2.offered = s.offered := by unfold readCtrl; split <;> simp
@[simp] theorem readCtrl_initPending (s : State) : (readCtrl s).2.initPending = s.initPending := by unfold readCtrl; split <;> simp
@[simp] theorem readCtrl_pending (s : State) : (readCtrl s).2.pending = s.pending := by unfold readCtrl; split <;> simp
@[simp] theorem readCtrl_portCaller (s : State) : (readCtrl s).2.portCaller = s.portCaller := by unfold readCtrl; split <;> simp
@[simp] theorem readCtrl_ctl (s : State) : (readCtrl s).2.ctl = s.ctl := by unfold readCtrl; split <;> simp
@[simp] theorem readCtrl_mem (s : State) : (readCtrl s).2.mem = s.mem := by unfold readCtrl; split <;> simp
@[simp] theorem readCtrl_agenda (s : State) : (readCtrl s).2.agenda = s.agenda := by unfold readCtrl; split <;> simp
@[simp] theorem readCtrl_history (s : State) : (readCtrl s).2.history = .regRead .ctrl (regAddr s.cfg .ctrl) (readCtrl s).1 :: s.history := by unfold readCtrl; split <;> simp

@[simp] theorem readRxdata_cfg (s : State) : (readRxdata s).2.cfg = s.cfg := by simp only [readRxdata]; split <;> simp
@[simp] theorem readRxdata_cmdbuf (s : State) : (readRxdata s).2.cmdbuf = s.cmdbuf := by simp only [readRxdata]; split <;> simp
@[simp] theorem readRxdata_enc (s : State) : (readRxdata s).2.enc = s.enc := by simp only [readRxdata]; split <;> simp
@[simp] theorem readRxdata_ctx (s : State) : (readRxdata s).2.ctx = s.ctx := by simp only [readRxdata]; split <;> simp
@[simp] theorem readRxdata_ph (s : State) : (readRxdata s).2.ph = s.ph := by simp only [readRxdata]; split <;> simp
@[simp] theorem readRxdata_idx (s : State) : (readRxdata s).2.idx = s.idx := by simp only [readRxdata]; split <;> simp
@[simp] theorem readRxdata_txb (s : State) : (readRxdata s).2.txb = s.txb := by simp only [readRxdata]; split <;> simp
@[simp] theorem readRxdata_rxb (s : State) : (readRxdata s).2.rxb = s.rxb := by simp only [readRxdata]; split <;> simp
@[simp] theorem readRxdata_pollcnt (s : State) : (readRxdata s).2.pollcnt = s.pollcnt := by simp only [readRxdata]; split <;> simp
@[simp] theorem readRxdata_xstat (s : State) : (readRxdata s).2.xstat = s.xstat := by simp only [readRxdata]; split <;> simp
@[simp] theorem readRxdata_csn (s : State) : (readRxdata s).2.csn = s.csn := by simp only [readRxdata]; split <;> simp
@[simp] theorem readRxdata_inited (s : State) : (readRxdata s).2.inited = s.inited := by simp only [readRxdata]; split <;> simp
@[simp] theorem readRxdata_faultHang (s : State) : (readRxdata s).2.faultHang = s.faultHang := by simp only [readRxdata]; split <;> simp
@[simp] theorem readRxdata_result (s : State) : (readRxdata s).2.result = s.result := by simp only [readRxdata]; split <;> simp
@[simp] theorem readRxdata_rdata (s : State) : (readRxdata s).2.rdata = s.rdata := by simp only [readRxdata]; split <;> simp
@[simp] theorem readRxdata_owner (s : State) : (readRxdata s).2.owner = s.owner := by simp only [readRxdata]; split <;> simp
@[simp] theorem readRxdata_waiters (s : State) : (readRxdata s).2.waiters = s.waiters := by simp only [readRxdata]; split <;> simp
@[simp] theorem readRxdata_offered (s : State) : (readRxdata s).2.offered = s.offered := by simp only [readRxdata]; split <;> simp
@[simp] theorem readRxdata_initPending (s : State) : (readRxdata s).2.initPending = s.initPending := by simp only [readRxdata]; split <;> simp
@[simp] theorem readRxdata_pending (s : State) : (readRxdata s).2.pending = s.pending := by simp only [readRxdata]; split <;> simp
@[simp] theorem readRxdata_portCaller (s : State) : (readRxdata s).2.portCaller = s.portCaller := by simp only [readRxdata]; split <;> simp
@[simp] theorem readRxdata_ctl (s : State) : (readRxdata s).2.ctl = { s.ctl with rxready := rxreadyAfterRead s (drawWord s).1 } := by simp only [readRxdata]; split <;> simp
@[simp] theorem readRxdata_mem (s : State) : (readRxdata s).2.mem = s.mem := by simp only [readRxdata]; split <;> simp
@[simp] theorem readRxdata_agenda (s : State) : (readRxdata s).2.agenda = s.agenda := by simp only [readRxdata]; split <;> simp
@[simp] theorem readRxdata_history (s : State) : (readRxdata s).2.history = .regRead .rxdata (regAddr s.cfg .rxdata) ((readRxdata s).1.setWidth 32) :: s.history := by simp only [readRxdata]; split <;> simp

end Sys2Proof.Machine
end

