-- ==== Sys2Proof/Laws/Ports.lean ====
section
/-! SUPPORT. What the reads through the register port and the supply of open values do, each said once as a whole: the
state after is the state before with the history and the supply changed (R255), and what the value read is. -/

namespace Sys2Proof.Machine

theorem drawWord_state (s : State) : (drawWord s).2 = { s with oracle := (drawWord s).2.oracle } := by
  unfold drawWord; split <;> rfl

theorem drawByte_state (s : State) : (drawByte s).2 = { s with oracle := (drawByte s).2.oracle } := by
  unfold drawByte; split <;> rfl

theorem drawPick_state (s : State) : (drawPick s).2 = { s with oracle := (drawPick s).2.oracle } := by
  unfold drawPick; split <;> rfl

theorem afterMove_state (s : State) :
    afterMove s = { s with agenda := s.agenda.tail, oracle := (afterMove s).oracle } := by
  unfold afterMove; split <;> simp_all

/-- What the contract rests on (R250, R258, R265, R355). -/
theorem contractHolds_iff (s : State) :
    contractHolds s = true ↔
      s.ctl.isVoid = false ∧ s.ctl.txnVoid = false ∧ s.faultHang = false ∧ s.inited = true ∧ ctlAutocs s = false ∧ modeHolds s = true ∧
        (s.ctl.inflight = true → frameCovered s = true) := by
  simp only [contractHolds, ctlVoid, Bool.and_eq_true, Bool.not_eq_true', Bool.or_eq_false_iff, Bool.or_eq_true]
  cases s.ctl.inflight <;> simp <;> tauto

theorem readCtrl_state (s : State) :
    (readCtrl s).2 = { s with
      oracle := (readCtrl s).2.oracle, history := .regRead .ctrl (regAddr s.cfg .ctrl) (readCtrl s).1 :: s.history } := by
  unfold readCtrl
  split
  · rfl
  · simp only []; rw [drawWord_state]; simp [log]

theorem readStatus_state (s : State) :
    (readStatus s).2 = { s with
      oracle := (drawWord s).2.oracle
      history := .regRead .status (regAddr s.cfg .status) (readStatus s).1.word :: s.history } := by
  simp only [readStatus]; rw [drawWord_state]; simp [log]

/-- The two bits POLL_TXC and CANRELEASE use are those of the word read, and where the contract holds they are the
controller's (R43, R255). -/
theorem readStatus_bits (s : State) (h : s.cfg.wf = true) :
    (readStatus s).1.word.getLsbD s.cfg.lay.txcBit = (readStatus s).1.txc ∧
    (readStatus s).1.word.getLsbD s.cfg.lay.txidleBit = (readStatus s).1.txidle ∧
    (contractHolds s = true → (readStatus s).1.txc = s.ctl.txc ∧ (readStatus s).1.txidle = s.ctl.txidle) := by
  have := statusWord_bits (Config.wf_parts h).2.2.2 s.ctl.txc s.ctl.txidle (drawWord s).1
  simp only [readStatus]
  split
  · exact ⟨this.1, this.2, fun _ => ⟨rfl, rfl⟩⟩
  · exact ⟨rfl, rfl, fun h => absurd h ‹_›⟩

/-- Where the contract holds, the value read from CTRL is CTRL's and nothing is drawn (R255). -/
theorem readCtrl_of_contract {s : State} (h : contractHolds s = true) :
    readCtrl s = (s.ctl.ctrl, log (.regRead .ctrl (regAddr s.cfg .ctrl) s.ctl.ctrl) s) := by
  simp [readCtrl, h]

/-- Where the contract holds and a byte is unread, the value read is that byte (R254). -/
theorem readRxdata_of_ready {s : State} (h : contractHolds s = true) (hr : s.ctl.rxready = true) :
    (readRxdata s).1 = s.ctl.rxh ∧ (readRxdata s).2.oracle = s.oracle := by
  simp [readRxdata, h, hr]

/-- Where the contract holds a read of RXDATA clears RXREADY (R254). -/
theorem rxreadyAfterRead_of_contract {s : State} (h : contractHolds s = true) (w : Word) : rxreadyAfterRead s w = false := by
  simp [rxreadyAfterRead, h]

end Sys2Proof.Machine
end

