-- ==== Sys2Proof/Laws/Memory.lean ====
section
/-! SUPPORT. The laws of buffer memory: a write keeps the canonical form, a read after a write to the same place gives
the byte written, every other place reads as before. -/

namespace Sys2Proof.Machine

theorem Memory.wfFrom_mono {lo lo' : Nat} (h : lo' ≤ lo) : ∀ {m : Memory}, Memory.wfFrom lo m = true → Memory.wfFrom lo' m = true
  | [], _ => rfl
  | (k, v) :: rest, hm => by
    simp only [Memory.wfFrom, Bool.and_eq_true, decide_eq_true_eq] at hm ⊢
    exact ⟨⟨⟨by omega, hm.1.1.2⟩, hm.1.2⟩, hm.2⟩

/-- A canonical memory whose addresses start above `a` does not list `a`. -/
theorem Memory.read_below {a lo : Nat} (h : a < lo) : ∀ {m : Memory}, Memory.wfFrom lo m = true → m.read a = Memory.unlisted a
  | [], _ => rfl
  | (k, v) :: rest, hm => by
    simp only [Memory.wfFrom, Bool.and_eq_true, decide_eq_true_eq] at hm
    have hk : k ≠ a := by omega
    rw [Memory.read, if_neg hk]
    exact Memory.read_below (lo := k + 1) (by omega) hm.2

theorem Memory.write_wfFrom {a : Nat} {b : Byte} (ha : a < addrSpace) :
    ∀ {lo : Nat} {m : Memory}, lo ≤ a → Memory.wfFrom lo m = true → Memory.wfFrom lo (m.write a b) = true
  | lo, [], hlo, _ => by
    by_cases hb : b = Memory.unlisted a <;> simp [Memory.write, hb, Memory.wfFrom, hlo, ha]
  | lo, (k, v) :: rest, hlo, hm => by
    have hm' := hm
    simp only [Memory.wfFrom, Bool.and_eq_true, decide_eq_true_eq] at hm
    by_cases h1 : a < k
    · by_cases hb : b = Memory.unlisted a
      · simp only [Memory.write, h1, hb, if_true]; exact hm'
      · simp only [Memory.write, h1, hb, if_true, if_false]
        simp only [Memory.wfFrom, Bool.and_eq_true, decide_eq_true_eq]
        exact ⟨⟨⟨hlo, ha⟩, hb⟩, ⟨⟨by omega, hm.1.1.2⟩, hm.1.2⟩, hm.2⟩
    · by_cases h2 : a = k
      · subst h2
        by_cases hb : b = Memory.unlisted a
        · simp only [Memory.write, Nat.lt_irrefl, if_false, if_true, hb]
          exact Memory.wfFrom_mono (by omega) hm.2
        · simp only [Memory.write, Nat.lt_irrefl, if_false, if_true, if_neg hb, Memory.wfFrom, Bool.and_eq_true,
            decide_eq_true_eq]
          exact ⟨⟨⟨hlo, ha⟩, hb⟩, hm.2⟩
      · simp only [Memory.write, h1, h2, if_false, Memory.wfFrom, Bool.and_eq_true, decide_eq_true_eq]
        exact ⟨hm.1, Memory.write_wfFrom ha (by omega) hm.2⟩

/-- A write inside the address space keeps the canonical form. -/
theorem Memory.write_wf {m : Memory} {a : Nat} {b : Byte} (ha : a < addrSpace) (hm : m.wf = true) : (m.write a b).wf = true :=
  Memory.write_wfFrom ha (Nat.zero_le a) hm

theorem Memory.read_write_other {a c : Nat} {b : Byte} (hc : c ≠ a) : ∀ {m : Memory}, (m.write a b).read c = m.read c
  | [] => by by_cases hb : b = Memory.unlisted a <;> simp [Memory.write, hb, Memory.read, Ne.symm hc]
  | (k, v) :: rest => by
    by_cases h1 : a < k
    · by_cases hb : b = Memory.unlisted a
      · simp [Memory.write, h1, hb]
      · simp [Memory.write, h1, hb, Memory.read, Ne.symm hc]
    · by_cases h2 : a = k
      · subst h2
        by_cases hb : b = Memory.unlisted a <;> simp [Memory.write, hb, Memory.read, Ne.symm hc]
      · simp only [Memory.write, h1, h2, if_false, Memory.read]
        by_cases hk : k = c
        · simp [hk]
        · simp only [hk, if_false]; exact Memory.read_write_other hc

theorem Memory.read_write_same_from {a : Nat} {b : Byte} :
    ∀ {lo : Nat} {m : Memory}, Memory.wfFrom lo m = true → (m.write a b).read a = b
  | _, [], _ => by by_cases hb : b = Memory.unlisted a <;> simp [Memory.write, hb, Memory.read]
  | lo, (k, v) :: rest, hm => by
    have hm' := hm
    simp only [Memory.wfFrom, Bool.and_eq_true, decide_eq_true_eq] at hm
    by_cases h1 : a < k
    · by_cases hb : b = Memory.unlisted a
      · have hk : k ≠ a := by omega
        simp only [Memory.write, h1, hb, if_true, Memory.read, if_neg hk]
        exact Memory.read_below (lo := k + 1) (by omega) hm.2
      · simp [Memory.write, h1, hb, Memory.read]
    · by_cases h2 : a = k
      · subst h2
        by_cases hb : b = Memory.unlisted a
        · simp only [Memory.write, Nat.lt_irrefl, if_false, if_true, hb]
          exact Memory.read_below (lo := a + 1) (by omega) hm.2
        · simp [Memory.write, hb, Memory.read]
      · simp only [Memory.write, h1, h2, if_false, Memory.read, if_neg (Ne.symm h2)]
        exact Memory.read_write_same_from hm.2

/-- A read after a write to the same place gives the byte written. -/
theorem Memory.read_write_same {m : Memory} {a : Nat} {b : Byte} (hm : m.wf = true) : (m.write a b).read a = b :=
  Memory.read_write_same_from hm

/-- What MemRead does when it answers. -/
theorem memRead_some {a : Nat} {s s' : State} {b : Byte} (h : memRead a s = some (b, s')) :
    a < addrSpace ∧ (inWindow s.cfg a = false → b = s.mem.read a ∧ s'.oracle = s.oracle) ∧
      s' = { s with oracle := s'.oracle, history := .memRead a b :: s.history } := by
  unfold memRead at h
  split at h
  · cases hw : inWindow s.cfg a <;> simp only [hw, Bool.false_eq_true, if_true, if_false, Option.some.injEq,
      Prod.mk.injEq] at h <;> obtain ⟨rfl, rfl⟩ := h
    · exact ⟨‹_›, fun _ => ⟨rfl, rfl⟩, rfl⟩
    · refine ⟨‹_›, fun h => absurd h (by simp), ?_⟩
      conv_lhs => rw [drawWord_state]
      rfl
  · simp at h

/-- MemRead outside the register window answers the byte of buffer memory. -/
theorem memRead_of_lt {a : Nat} (s : State) (h : a < addrSpace) (hw : inWindow s.cfg a = false) :
    memRead a s = some (s.mem.read a, { s with history := .memRead a (s.mem.read a) :: s.history }) := by
  simp [memRead, h, hw, log]

/-- MemRead inside the register window answers some byte (U6). -/
theorem memRead_of_window {a : Nat} (s : State) (h : a < addrSpace) (hw : inWindow s.cfg a = true) :
    ∃ b o, memRead a s = some (b, { s with oracle := o, history := .memRead a b :: s.history }) := by
  refine ⟨(drawWord s).1.setWidth 8, (drawWord s).2.oracle, ?_⟩
  simp only [memRead, h, hw, if_true, log]
  conv_lhs => rw [drawWord_state]

/-- MemRead answers exactly inside the address space. -/
theorem memRead_isSome {a : Nat} (s : State) (h : a < addrSpace) : ∃ b s', memRead a s = some (b, s') := by
  simp [memRead, h]

theorem memRead_none_iff (a : Nat) (s : State) : memRead a s = none ↔ addrSpace ≤ a := by
  unfold memRead; split <;> simp <;> omega

/-- What MemWrite does when it answers. -/
theorem memWrite_some {a : Nat} {b : Byte} {s s' : State} (h : memWrite a b s = some s') :
    a < addrSpace ∧ s' = { s with mem := s.mem.write a b, history := .memWrite a b :: s.history } := by
  unfold memWrite at h
  split at h
  · simp only [Option.some.injEq] at h
    exact ⟨‹_›, h.symm⟩
  · simp at h

theorem memWrite_of_lt {a : Nat} (b : Byte) (s : State) (h : a < addrSpace) :
    memWrite a b s = some { s with mem := s.mem.write a b, history := .memWrite a b :: s.history } := by
  simp [memWrite, h, log]

theorem memWrite_none_iff (a : Nat) (b : Byte) (s : State) : memWrite a b s = none ↔ addrSpace ≤ a := by
  unfold memWrite; split <;> simp <;> omega

end Sys2Proof.Machine
end

