-- ==== Sys2Proof/Laws/Pending.lean ====
section
/-! SUPPORT. The sets of packets (R38, R292): what is found after an entry is added or removed. -/

namespace Sys2Proof.Machine

theorem findPending_cons (c : Nat) (x : Pending) (l : List Pending) :
    findPending c (x :: l) = if x.caller = c then some x else findPending c l := by
  unfold findPending
  by_cases h : x.caller = c <;> simp [h]

theorem findPending_some {c : Nat} {l : List Pending} {e : Pending} (h : findPending c l = some e) : e ∈ l ∧ e.caller = c := by
  unfold findPending at h
  exact ⟨List.mem_of_find?_eq_some h, by simpa using List.find?_some h⟩

theorem mem_insertPending {e x : Pending} {l : List Pending} (h : x ∈ insertPending e l) : x = e ∨ x ∈ l := by
  induction l with
  | nil => simpa [insertPending] using h
  | cons y rest ih =>
    simp only [insertPending] at h
    split at h
    · simpa using h
    · split at h
      · simp only [List.mem_cons] at h ⊢; tauto
      · simp only [List.mem_cons] at h ⊢
        rcases h with h | h
        · exact .inr (.inl h)
        · rcases ih h with h | h <;> tauto

theorem findPending_insert_other {e : Pending} {c : Nat} (h : e.caller ≠ c) (l : List Pending) :
    findPending c (insertPending e l) = findPending c l := by
  induction l with
  | nil => simp [insertPending, findPending_cons, h]
  | cons y rest ih =>
    simp only [insertPending]
    split
    · simp [findPending_cons, h]
    · split
      · have : y.caller ≠ c := by omega
        simp [findPending_cons, h, this]
      · simp only [findPending_cons, ih]

/-- A caller that is not in the set is found in it with its own entry once added. -/
theorem findPending_insert_same (e : Pending) (l : List Pending) (h : findPending e.caller l = none) :
    findPending e.caller (insertPending e l) = some e := by
  induction l with
  | nil => simp [insertPending, findPending_cons]
  | cons y rest ih =>
    rw [findPending_cons] at h
    split at h
    · simp at h
    · simp only [insertPending]
      split
      · simp [findPending_cons]
      · split
        · simp [findPending_cons]
        · rw [findPending_cons, if_neg ‹_›]; exact ih h

theorem findPending_erase_same (c : Nat) (l : List Pending) : findPending c (erasePending c l) = none := by
  simp [findPending, erasePending]

theorem findPending_erase_other {c d : Nat} (h : d ≠ c) (l : List Pending) :
    findPending d (erasePending c l) = findPending d l := by
  induction l with
  | nil => rfl
  | cons y rest ih =>
    unfold erasePending at ih ⊢
    rw [List.filter_cons]
    split
    · simp only [findPending_cons, ih]
    · rename_i hy
      have : y.caller = c := by simpa [bne_iff_ne] using hy
      rw [findPending_cons, if_neg (by omega), ih]

theorem mem_erasePending {c : Nat} {x : Pending} {l : List Pending} (h : x ∈ erasePending c l) : x ∈ l :=
  (List.mem_filter.mp h).1

end Sys2Proof.Machine
end

