-- ==== Sys2Proof/Laws/PerInstr.lean ====
section
/-! SUPPORT. Per-instruction family PacketLength: the encoding of every instruction has the length its opcode alone
gives it, or is one of the twenty phase codes (R102, R116). -/

namespace Sys2Proof.Laws.PacketLength

/-- The words of a packet are as many as its first word's opcode says (R102); a phase code is below 20 (R116). -/
def Statement (i : Instr) : Prop :=
  match encode i with
  | .packet ws =>
    ws.length = if (ws.headD 0#32).toNat / 2 ^ 28 = 3 ∨ (ws.headD 0#32).toNat / 2 ^ 28 = 4 then 5 else 1
  | .phase c => c.toNat < 20

theorem short_length (op : BitVec 4) (desc : BitVec 24) (h3 : op ≠ 0x3#4) (h4 : op ≠ 0x4#4) :
    (shortPacket op desc).words.length =
      if ((shortPacket op desc).words.headD 0#32).toNat / 2 ^ 28 = 3 ∨
         ((shortPacket op desc).words.headD 0#32).toNat / 2 ^ 28 = 4 then 5 else 1 := by
  have hl : (shortPacket op desc).isLong = false := by
    simp [Packet.isLong, Packet.op, shortPacket, (firstWord_fields op 0#4 desc).1, h3, h4]
  have hn := firstWord_toNat op 0#4 desc
  have e3 : op.toNat ≠ 3 := fun h => h3 (by rw [← BitVec.toNat_inj]; exact h)
  have e4 : op.toNat ≠ 4 := fun h => h4 (by rw [← BitVec.toNat_inj]; exact h)
  simp only [Packet.words, hl, Bool.false_eq_true, if_false, List.headD_cons, List.length_cons, List.length_nil]
  have hw : (shortPacket op desc).w0 = firstWord op 0#4 desc := rfl
  rw [hw, hn, if_neg]
  simp only [BitVec.toNat_ofNat]
  omega

theorem long_length (op cnt : BitVec 4) (desc : BitVec 24) (tp tl rp rl : Word) (h : op = 0x3#4 ∨ op = 0x4#4) :
    (transferPacket op cnt desc tp tl rp rl).words.length =
      if ((transferPacket op cnt desc tp tl rp rl).words.headD 0#32).toNat / 2 ^ 28 = 3 ∨
         ((transferPacket op cnt desc tp tl rp rl).words.headD 0#32).toNat / 2 ^ 28 = 4 then 5 else 1 := by
  have hl : (transferPacket op cnt desc tp tl rp rl).isLong = true := by
    simp [Packet.isLong, Packet.op, transferPacket, (firstWord_fields op cnt desc).1, h]
  have hn := firstWord_toNat op cnt desc
  have hw : (transferPacket op cnt desc tp tl rp rl).w0 = firstWord op cnt desc := rfl
  simp only [Packet.words, hl, if_true, List.headD_cons, List.length_cons, List.length_nil]
  rw [hw, hn, if_pos]
  rcases h with h | h <;> subst h <;> simp only [BitVec.toNat_ofNat] <;> omega

theorem init : Statement (.init) :=
  short_length _ _ (by decide) (by decide)
theorem validate (desc : BitVec 24) : Statement (.validate desc) :=
  short_length _ _ (by decide) (by decide)
theorem transceive (cnt : BitVec 4) (desc : BitVec 24) (tp tl rp rl : Word) : Statement (.transceive cnt desc tp tl rp rl) :=
  long_length _ _ _ _ _ _ _ (.inl rfl)
theorem transceiveAsync (cnt : BitVec 4) (desc : BitVec 24) (tp tl rp rl : Word) : Statement (.transceiveAsync cnt desc tp tl rp rl) :=
  long_length _ _ _ _ _ _ _ (.inr rfl)
theorem canRelease : Statement (.canRelease) :=
  short_length _ _ (by decide) (by decide)
theorem idle : Statement (.idle) := by simp [Statement, encode]
theorem validatePh : Statement (.validatePh) := by simp [Statement, encode]
theorem cfgCtrl : Statement (.cfgCtrl) := by simp [Statement, encode]
theorem cfgFrame : Statement (.cfgFrame) := by simp [Statement, encode]
theorem setup : Statement (.setup) := by simp [Statement, encode]
theorem csAssert : Statement (.csAssert) := by simp [Statement, encode]
theorem txFetch : Statement (.txFetch) := by simp [Statement, encode]
theorem txWrite : Statement (.txWrite) := by simp [Statement, encode]
theorem pollTxc : Statement (.pollTxc) := by simp [Statement, encode]
theorem rxRead : Statement (.rxRead) := by simp [Statement, encode]
theorem rxStore : Statement (.rxStore) := by simp [Statement, encode]
theorem csDeassert : Statement (.csDeassert) := by simp [Statement, encode]
theorem complete : Statement (.complete) := by simp [Statement, encode]
theorem initClock : Statement (.initClock) := by simp [Statement, encode]
theorem initPins : Statement (.initPins) := by simp [Statement, encode]
theorem routeDisable : Statement (.routeDisable) := by simp [Statement, encode]
theorem routeLoc0 : Statement (.routeLoc0) := by simp [Statement, encode]
theorem routeLoc1 : Statement (.routeLoc1) := by simp [Statement, encode]
theorem routeEnable : Statement (.routeEnable) := by simp [Statement, encode]
theorem initContext : Statement (.initContext) := by simp [Statement, encode]

end Sys2Proof.Laws.PacketLength
end

