-- ==== Sys2Proof/Laws/Step.lean ====
section
/-! SUPPORT. What a step can do, said once: the inversion of `step` into the agents' moves, of the decoders into their
rows, and of the meanings that do not answer on every path. -/

namespace Sys2Proof.Machine

/-- The rows of R116, read backwards. -/
theorem decodePhase_cases {p : BitVec 5} {i : Instr} (h : decodePhase p = .instr i) :
    (p = 0#5 ∧ i = .idle) ∨ (p = 1#5 ∧ i = .validatePh) ∨ (p = 2#5 ∧ i = .cfgCtrl) ∨ (p = 3#5 ∧ i = .cfgFrame) ∨
    (p = 4#5 ∧ i = .setup) ∨ (p = 5#5 ∧ i = .csAssert) ∨ (p = 6#5 ∧ i = .txFetch) ∨ (p = 7#5 ∧ i = .txWrite) ∨
    (p = 8#5 ∧ i = .pollTxc) ∨ (p = 9#5 ∧ i = .rxRead) ∨ (p = 10#5 ∧ i = .rxStore) ∨ (p = 11#5 ∧ i = .csDeassert) ∨
    (p = 12#5 ∧ i = .complete) ∨ (p = 13#5 ∧ i = .initClock) ∨ (p = 14#5 ∧ i = .initPins) ∨
    (p = 15#5 ∧ i = .routeDisable) ∨ (p = 16#5 ∧ i = .routeLoc0) ∨ (p = 17#5 ∧ i = .routeLoc1) ∨
    (p = 18#5 ∧ i = .routeEnable) ∨ (p = 19#5 ∧ i = .initContext) := by
  have hp : ∀ n : Nat, n < 32 → p.toNat = n → p = BitVec.ofNat 5 n := by
    intro n _ hn; rw [← hn]; simp
  unfold decodePhase at h
  split at h <;> first | (simp at h; done) | (rename_i hn; have := hp _ (by omega) hn; simp at h this; simp [this, ← h])

/-- A packet decodes to one of the five commands (R119). -/
theorem decodePacket_cases {p : Packet} {i : Instr} (h : decodePacket p = .instr i) :
    i = .init ∨ i = .canRelease ∨ i = .validate p.desc ∨ i = .transceive p.cnt p.desc p.w1 p.w2 p.w3 p.w4 ∨
    i = .transceiveAsync p.cnt p.desc p.w1 p.w2 p.w3 p.w4 := by
  unfold decodePacket at h
  split at h
  · simp only [Decoded.instr.injEq] at h; simp [← h]
  split at h
  · simp only [Decoded.instr.injEq] at h; simp [← h]
  split at h
  · split at h <;> simp only [Decoded.instr.injEq, reduceCtorEq] at h; simp [← h]
  split at h
  · split at h <;> simp only [Decoded.instr.injEq, reduceCtorEq] at h; simp [← h]
  split at h
  · split at h <;> simp only [Decoded.instr.injEq, reduceCtorEq] at h; simp [← h]
  · simp at h

/-- A packet is the Sequencer's exactly when it is an INIT, or a TRANSCEIVE that is not answered BUSY and whose buffers
fit (R290, R75). -/
theorem forSequencer_cases {p : Packet} {i : Instr} {s : State} (hd : decodePacket p = .instr i) :
    forSequencer i s = true ↔ i = .init ∨
      (i = .transceive p.cnt p.desc p.w1 p.w2 p.w3 p.w4 ∧ busyNow s = false ∧ transferFits p.w1 p.w2 p.w3 p.w4 = true) := by
  rcases decodePacket_cases hd with rfl | rfl | rfl | rfl | rfl <;> simp [forSequencer]

@[simp] theorem forSequencer_log (i : Instr) (e : Event) (s : State) : forSequencer i (log e s) = forSequencer i s := by
  cases i <;> rfl

/-- A submission that is answered: the command of the Sequencer's that it is, or the packet left for the host port. -/
inductive SubmitStep (c : Nat) (p : Packet) (s t : State) : Prop where
  | nobody (hc : s.cfg.nCallers ≤ c) (ht : t = s)
  | command (i : Instr) (hc : c < s.cfg.nCallers) (ho : outstanding c s = false) (hd : decodePacket p = .instr i)
      (hq : forSequencer i s = true)
      (ht : exec i { s with portCaller := c, history := .submit c p.words :: s.history } = .next t)
  | held (hc : c < s.cfg.nCallers) (ho : outstanding c s = false) (hi : s.inited = true)
      (hq : ∀ i, decodePacket p = .instr i → forSequencer i s = false)
      (ht : t = { s with pending := insertPending { caller := c, packet := p } s.pending
                         history := .submit c p.words :: s.history })

/-- The host port's part of a step that answers. -/
inductive HostPortStep (c : Nat) (s t : State) : Prop where
  | nothing (ht : t = s)
  | command (e : Pending) (i : Instr) (h : findPending c s.pending = some e) (hd : decodePacket e.packet = .instr i)
      (hq : forSequencer i s = false) (ht : exec i (takePacket c s) = .next t)
  | illegal (e : Pending) (r : Reject) (h : findPending c s.pending = some e) (hd : decodePacket e.packet = .reject r)
      (ht : answerIllegal (takePacket c s) = .next t)

/-- What a step that answers is: one of the nine moves, in the state with the move taken off the agenda. -/
inductive StepCase (s t : State) : Prop where
  | sequencer (h : nextMove s = .sequencer) (i : Instr) (hd : decodePhase (afterMove s).ph = .instr i)
      (ht : exec i (afterMove s) = .next t)
  | hostPort (c : Nat) (h : nextMove s = .hostPort c) (ht : HostPortStep c (afterMove s) t)
  | controller (h : nextMove s = .controller) (ht : t = completeFrame (afterMove s))
  | submit (c : Nat) (p : Packet) (h : nextMove s = .submit c p) (ht : SubmitStep c p (afterMove s) t)
  | callerStore (a : Word) (b : Byte) (h : nextMove s = .callerStore a b) (ht : t = callerStore a b (afterMove s))
  | platformWrite (r : Reg) (v : Word) (h : nextMove s = .platformWrite r v) (ht : t = platformWrite r v (afterMove s))
  | platformRead (r : Reg) (h : nextMove s = .platformRead r) (ht : t = platformRead r (afterMove s))
  | platformRestore (v : Word) (h : nextMove s = .platformRestore v) (ht : t = platformRestore v (afterMove s))
  | reset (h : nextMove s = .reset) (ht : t = resetEvent (afterMove s))

/-- A command of the host port, when it answers, was given after INIT (R290). -/
theorem whenInited_next {s s' t : State} (h : whenInited s s' = .next t) : s.inited = true ∧ t = s' := by
  unfold whenInited at h
  split at h
  · exact ⟨‹_›, by simpa using h.symm⟩
  · simp at h

/-- A submission, when it answers (R292). -/
theorem submitTurn_next {c : Nat} {p : Packet} {s t : State}
    (h : (match submitTurn c p s with | .run i s' => exec i s' | .done o => o) = .next t) : SubmitStep c p s t := by
  unfold submitTurn at h
  split at h
  · rename_i hc; split at hc
    · simp at hc
    · split at hc
      · simp at hc
      · rename_i hn ho
        unfold submittedTurn at hc
        split at hc
        · rename_i i hd
          cases hq : forSequencer i s
          · simp [hq] at hc
          · simp only [forSequencer_log, hq, if_true, Turn.run.injEq] at hc
            obtain ⟨rfl, rfl⟩ := hc
            exact .command i (by omega) (by simpa using ho) hd hq h
        · simp at hc
  · rename_i hc; subst h; split at hc
    · simp only [Turn.done.injEq, Host.Outcome.next.injEq] at hc
      exact .nobody ‹_› hc.symm
    · split at hc
      · simp at hc
      · rename_i hn ho
        have held : holdPacket c p (log (.submit c p.words) s) = .next t →
            (∀ i, decodePacket p = .instr i → forSequencer i s = false) → SubmitStep c p s t := by
          intro h hq
          obtain ⟨hi, rfl⟩ := whenInited_next h
          exact .held (by omega) (by simpa using ho) hi hq rfl
        unfold submittedTurn at hc
        split at hc
        · rename_i i hd
          cases hq : forSequencer i s
          · simp only [forSequencer_log, hq, Bool.false_eq_true, if_false, Turn.done.injEq] at hc
            exact held hc (fun j hj => by rw [hd] at hj; simp only [Decoded.instr.injEq] at hj; exact hj ▸ hq)
          · simp [hq] at hc
        · rename_i r hd
          simp only [Turn.done.injEq] at hc
          exact held hc (fun j hj => by rw [hd] at hj; simp at hj)

/-- The inversion of `step`. -/
theorem step_cases {s t : State} (h : step s = .next t) : s.cfg.wf = true ∧ StepCase s t := by
  by_cases hw : s.cfg.wf = true
  · refine ⟨hw, ?_⟩
    unfold step turn at h
    rw [hw] at h
    simp only [Bool.not_true, Bool.false_eq_true, if_false] at h
    cases hm : nextMove s with
    | sequencer =>
      simp only [hm, sequencerTurn] at h
      cases hd : decodePhase (afterMove s).ph with
      | instr i => rw [hd] at h; exact .sequencer hm i hd h
      | reject r => rw [hd] at h; simp at h
    | hostPort c =>
      simp only [hm, hostPortTurn] at h
      cases hf : findPending c (afterMove s).pending with
      | none => rw [hf] at h; exact .hostPort c hm (.nothing (by simpa using h.symm))
      | some e =>
        simp only [hf] at h
        cases hd : decodePacket e.packet with
        | instr i =>
          cases hq : forSequencer i (afterMove s) <;>
            simp only [hd, hq, Bool.false_eq_true, if_true, if_false, Host.Outcome.next.injEq] at h
          · exact .hostPort c hm (.command e i hf hd hq h)
          · exact .hostPort c hm (.nothing h.symm)
        | reject r => rw [hd] at h; exact .hostPort c hm (.illegal e r hf hd h)
    | controller => rw [hm] at h; exact .controller hm (by simpa using h.symm)
    | submit c p => rw [hm] at h; exact .submit c p hm (submitTurn_next h)
    | callerStore a b => rw [hm] at h; exact .callerStore a b hm (by simpa using h.symm)
    | platformWrite r v => rw [hm] at h; exact .platformWrite r v hm (by simpa using h.symm)
    | platformRead r => rw [hm] at h; exact .platformRead r hm (by simpa using h.symm)
    | platformRestore v => rw [hm] at h; exact .platformRestore v hm (by simpa using h.symm)
    | reset => rw [hm] at h; exact .reset hm (by simpa using h.symm)
  · unfold step turn at h
    simp [hw] at h

/-- What holds of a state and is kept by every step holds after any number of steps. -/
theorem run_keeps (M : Host.Core) {Inv : M.State → Prop} (hs : ∀ s t, Inv s → M.step s = .next t → Inv t) :
    ∀ (k : Nat) (s t : M.State), Inv s → M.run k s = .next t → Inv t
  | 0, s, t, hi, h => by
    simp only [Host.Core.run, Host.Outcome.next.injEq] at h
    exact h ▸ hi
  | k + 1, s, t, hi, h => by
    simp only [Host.Core.run] at h
    split at h
    · exact run_keeps M hs k _ t (hs s _ hi ‹_›) h
    · simp at h
    · simp at h

/-- TX_FETCH, when it answers (R212). -/
theorem execTxFetch_next {s t : State} (h : execTxFetch s = .next t) :
    (s.idx < s.ctx.txLen ∧ txAddr s < addrSpace ∧
      ∃ b o, (inWindow s.cfg (txAddr s) = false → b = s.mem.read (txAddr s) ∧ o = s.oracle) ∧
        t = goto Ph.txWrite { s with oracle := o, history := .memRead (txAddr s) b :: s.history, txb := b }) ∨
    (¬ s.idx < s.ctx.txLen ∧ t = goto Ph.txWrite { s with txb := dummyByte }) := by
  unfold execTxFetch at h
  split at h
  · split at h
    · rename_i hlt _ b s' hr
      obtain ⟨ha, hb, hs⟩ := memRead_some hr
      simp only [Host.Outcome.next.injEq] at h
      exact .inl ⟨hlt, ha, b, s'.oracle, hb, by rw [← h, hs]⟩
    · simp at h
  · simp only [Host.Outcome.next.injEq] at h
    exact .inr ⟨‹_›, h.symm⟩

/-- RX_STORE, when it answers (R216). -/
theorem execRxStore_next {s t : State} (h : execRxStore s = .next t) :
    (s.idx < s.ctx.rxLen ∧ rxAddr s < addrSpace ∧
      t = nextFrame { s with mem := s.mem.write (rxAddr s) s.rxb, history := .memWrite (rxAddr s) s.rxb :: s.history }) ∨
    (¬ s.idx < s.ctx.rxLen ∧ t = nextFrame s) := by
  unfold execRxStore at h
  split at h
  · split at h
    · rename_i hlt _ s' hr
      obtain ⟨ha, hs⟩ := memWrite_some hr
      simp only [Host.Outcome.next.injEq] at h
      exact .inl ⟨hlt, ha, by rw [← h, hs]⟩
    · simp at h
  · simp only [Host.Outcome.next.injEq] at h
    exact .inr ⟨‹_›, h.symm⟩

/-- TRANSCEIVE, when it answers (R285). -/
theorem execTransceive_next {cnt : BitVec 4} {d : BitVec 24} {tp tl rp rl : Word} {s t : State}
    (h : execTransceive cnt d tp tl rp rl s = .next t) :
    s.inited = true ∧ ((busyNow s = true ∧ t = hostAnswer .contextEngaged 0#32 s) ∨
      (busyNow s = false ∧ transferFits tp tl rp rl = true ∧
        ((s.cfg.nonblocking = false ∧ t = joinWaiters s.portCaller (transferPacket 0x3#4 cnt d tp tl rp rl) s) ∨
         (s.cfg.nonblocking = true ∧ t = joinOffered s.portCaller (transferPacket 0x3#4 cnt d tp tl rp rl) s)))) := by
  unfold execTransceive at h
  cases hi : s.inited <;> cases hb : busyNow s <;> cases hf : transferFits tp tl rp rl <;>
    cases hn : s.cfg.nonblocking <;> simp [hi, hb, hf, hn] at h <;> simp [h]

/-- INIT, when it answers (R280). -/
theorem execInit_next {s t : State} (h : execInit s = .next t) :
    s.inited = false ∧ s.initPending = none ∧ s.ph = Ph.idle ∧ t = { s with initPending := some s.portCaller } := by
  unfold execInit at h
  split at h
  · simp at h
  · rename_i hc
    simp only [Bool.or_eq_true, not_or, Bool.not_eq_true, bne_eq_false_iff_eq, Option.isSome_eq_false_iff,
      Option.isNone_iff_eq_none] at hc
    exact ⟨hc.1.1, hc.1.2, hc.2, by simpa using h.symm⟩

/-- CANRELEASE, when it answers (R288): one STATUS read and the response its transmit-idle bit asks for. -/
theorem execCanRelease_next {s t : State} (h : execCanRelease s = .next t) :
    s.inited = true ∧ t = { s with
      oracle := (drawWord s).2.oracle
      history := .resp s.portCaller (if (readStatus s).1.txidle then 0x00000000#32 else 0x0000030B#32)
          (if (readStatus s).1.txidle then 1#32 else 0#32) ::
        .regRead .status (regAddr s.cfg .status) (readStatus s).1.word :: s.history } := by
  obtain ⟨hi, rfl⟩ := whenInited_next h
  refine ⟨hi, ?_⟩
  have hs := readStatus_state s
  cases hr : (readStatus s).1.txidle <;>
    simp [canRelease, hostAnswer, respond, log, statusR0, classCode, causeClass, causeCode, hr, hs]

/-- What no move of another agent on the controller changes: the controller's own step writes the controller, the
history and the supply only (R252). -/
theorem completeFrame_state (s : State) :
    completeFrame s = { s with ctl := (completeFrame s).ctl, oracle := (completeFrame s).oracle
                               history := (completeFrame s).history } := by
  unfold completeFrame strayFrame finishFrame
  split
  · simp only []; rw [drawWord_state]; simp [log]
  · split
    · rfl
    · split
      · simp [log]
      · simp only []; rw [drawByte_state]; simp [log]

/-- A read by another agent changes RXREADY, the flag of R366 and the supply only. -/
theorem platformRead_state (r : Reg) (s : State) :
    ∃ y o, platformRead r s = { s with
      ctl := { s.ctl with rxready := y, txnVoid := s.ctl.txnVoid || (decide (r = .rxdata) && s.ctx.lock) }, oracle := o } := by
  unfold platformRead
  split
  · rename_i h
    exact ⟨_, (drawWord s).2.oracle, by simp only [h, decide_true, Bool.true_and]; rw [drawWord_state]⟩
  · rename_i h
    exact ⟨s.ctl.rxready, s.oracle, by simp [h]⟩

/-- What a reset event leaves (R350, R352). -/
theorem resetEvent_state (s : State) :
    resetEvent s = { State.resetWith s.cfg with
      ctl := { s.ctl with isVoid := s.ctl.isVoid || s.ph != Ph.idle || !readyForFirst s.ctl }
      mem := s.mem, agenda := s.agenda, oracle := s.oracle
      history := if s.csn = 0b111#3 then s.history else .csn 0b111#3 :: s.history } := by
  unfold resetEvent
  simp only []
  split <;> simp [log]

/-- A candidate is a waiter, or with NONBLOCKING = 1 one that has found the guard free, on arrival or before it was
answered (R193, R290; log 12). -/
theorem mem_candidates {s : State} {w : Pending} (h : w ∈ candidates s) :
    (s.cfg.nonblocking = false ∧ w ∈ s.waiters) ∨
      (s.cfg.nonblocking = true ∧ (w ∈ s.offered ∨ (w ∈ s.pending ∧ unanswered w = true))) := by
  unfold candidates at h
  split at h
  · rename_i hn; exact .inr ⟨hn, by simpa using h⟩
  · rename_i hn; exact .inl ⟨by simpa using hn, h⟩

/-- Where acquisition is blocking the candidates are the members of WAITERS (R291). -/
theorem candidates_of_blocking {s : State} (h : s.cfg.nonblocking = false) : candidates s = s.waiters := by
  simp [candidates, h]

/-- Where it is not they are those that have found the guard free (R193, R290). -/
theorem candidates_of_nonblocking {s : State} (h : s.cfg.nonblocking = true) :
    candidates s = s.offered ++ s.pending.filter unanswered := by
  simp [candidates, h]

/-- Whom an IDLE step accepts is a candidate (R191, R194). -/
theorem acceptWaiter_cases (s : State) :
    (candidates s = [] ∧ acceptWaiter s = goto Ph.idle s) ∨
    (∃ w ∈ candidates s, acceptWaiter s = acquire w s ∨ acceptWaiter s = acquire w (drawPick s).2) := by
  unfold acceptWaiter
  split
  · exact .inl ⟨‹_›, rfl⟩
  · rename_i w hw; exact .inr ⟨w, by simp [hw], .inl rfl⟩
  · rename_i w rest _ hw
    refine .inr ⟨((w :: rest)[(drawPick s).1 % (w :: rest).length]?).getD w, ?_, .inr rfl⟩
    rw [hw, List.getElem?_eq_getElem (Nat.mod_lt _ (by simp))]
    simp

/-- Any candidate can be the one that is accepted: the supply decides (R194, U13). -/
theorem acceptWaiter_any {s : State} {w : Pending} (hw : w ∈ candidates s) :
    ∃ o o', acceptWaiter { s with oracle := o } = acquire w { s with oracle := o' } := by
  obtain ⟨k, hk, he⟩ := List.getElem_of_mem hw
  have hc : ∀ o, candidates { s with oracle := o } = candidates s := fun _ => rfl
  refine ⟨{ s.oracle with picks := [k] }, ?_⟩
  unfold acceptWaiter
  rw [hc]
  split
  · rename_i h; rw [h] at hw; simp at hw
  · rename_i x h
    rw [h] at hw; exact ⟨{ s.oracle with picks := [k] }, by rw [List.mem_singleton.mp hw]⟩
  · rename_i x rest _ h
    refine ⟨{ s.oracle with picks := [] }, ?_⟩
    have hl : k % (x :: rest).length = k := Nat.mod_eq_of_lt (by rw [← h]; exact hk)
    have hx : (x :: rest)[k]? = some w := by rw [← h, List.getElem?_eq_getElem hk, he]
    simp only [drawPick, hl, hx, Option.getD_some]

end Sys2Proof.Machine
end

