-- ==== Sys2Proof/Laws/Phases.lean ====
section
/-! SUPPORT. The inversion of the Sequencer's step: for each phase everything it can do when it answers, with the next
state written out (R171 to R174, R153 to R155, R195, R197, R211 to R217, R281 to R283, R291). -/

namespace Sys2Proof.Machine

/-- What a phase that answers has done: one constructor for each way a phase can end. -/
inductive PhaseCase (s t : State) : Prop where
  | idle (hp : s.ph = Ph.idle) (ht : t = goto Ph.idle s)
  | acceptInit (c : Nat) (hp : s.ph = Ph.idle) (hi : s.inited = false) (hc : s.initPending = some c)
      (ht : t = acceptInit c s)
  | acceptWaiter (w : Pending) (o : Oracle) (hp : s.ph = Ph.idle) (hi : s.inited = true) (hl : s.ctx.lock = false)
      (hw : w ∈ candidates s) (ht : t = acquire w { s with oracle := o })
  | validated (e : Enc) (hp : s.ph = Ph.validate) (hv : validate s.cfg.lay (desc s) = .ok e)
      (ht : t = { s with enc := e, ph := Ph.cfgCtrl })
  | rejected (c : Cause) (hp : s.ph = Ph.validate) (hv : validate s.cfg.lay (desc s) = .err c) (ht : t = raise c s)
  | cfgCtrl (old : Word) (o : Oracle) (hp : s.ph = Ph.cfgCtrl)
      (hv : contractHolds s = true → old = s.ctl.ctrl ∧ o = s.oracle)
      (ht : t = voidUnlessMode { s with
        ctl := { s.ctl with ctrl := ctrlUpdate s.cfg.lay old s.enc }, ph := Ph.cfgFrame, oracle := o
        history := .regWrite .ctrl (regAddr s.cfg .ctrl) (ctrlUpdate s.cfg.lay old s.enc) ::
          .regRead .ctrl (regAddr s.cfg .ctrl) old :: s.history })
  | cfgFrame (hp : s.ph = Ph.cfgFrame)
      (ht : t = { s with
        ctl := { s.ctl with frame := s.enc.frame.setWidth 32 }, ph := Ph.setup
        history := .regWrite .frame (regAddr s.cfg .frame) (s.enc.frame.setWidth 32) :: s.history })
  | badCount (hp : s.ph = Ph.setup) (hc : s.cmdbuf.cnt ≠ pairCount) (ht : t = raise .pairCount s)
  | setup (p : BitVec 5) (hp : s.ph = Ph.setup) (hc : s.cmdbuf.cnt = pairCount)
      (hn : p = if maxLen s.cmdbuf.w2 s.cmdbuf.w4 = 0#32 then Ph.complete else Ph.csAssert)
      (ht : t = { s with
        ctx := { s.ctx with txPtr := s.cmdbuf.w1, txLen := s.cmdbuf.w2, rxPtr := s.cmdbuf.w3, rxLen := s.cmdbuf.w4
                            done := false }
        xstat := 0x00#8, idx := 0#32, ph := p })
  | csAssert (hp : s.ph = Ph.csAssert)
      (ht : t = { s with csn := csnFor (descCsidx (desc s)), ph := Ph.txFetch
                         history := .csn (csnFor (descCsidx (desc s))) :: s.history })
  | txFetch (b : Byte) (o : Oracle) (hp : s.ph = Ph.txFetch) (hl : s.idx < s.ctx.txLen) (ha : txAddr s < addrSpace)
      (hb : inWindow s.cfg (txAddr s) = false → b = s.mem.read (txAddr s) ∧ o = s.oracle)
      (ht : t = { s with txb := b, ph := Ph.txWrite, oracle := o, history := .memRead (txAddr s) b :: s.history })
  | txPad (hp : s.ph = Ph.txFetch) (hl : ¬ s.idx < s.ctx.txLen) (ht : t = { s with txb := dummyByte, ph := Ph.txWrite })
  | txWrite (hp : s.ph = Ph.txWrite) (hq : (contractHolds s && s.ctl.inflight) = false)
      (ht : t = { s with
        ctl := ctlWrite .txdata (s.txb.setWidth 32) s.ctl, pollcnt := 0, ph := Ph.pollTxc
        history := .regWrite .txdata (regAddr s.cfg .txdata) (s.txb.setWidth 32) :: s.history })
  | polled (hp : s.ph = Ph.pollTxc) (hr : (readStatus s).1.txc = true)
      (ht : t = goto Ph.rxRead (readStatus s).2)
  | hung (hp : s.ph = Ph.pollTxc) (hr : (readStatus s).1.txc = false) (hl : pollLimitReached s.cfg s.pollcnt = true)
      (ht : t = hang (readStatus s).2)
  | pollAgain (hp : s.ph = Ph.pollTxc) (hr : (readStatus s).1.txc = false)
      (hl : pollLimitReached s.cfg s.pollcnt = false)
      (ht : t = goto Ph.pollTxc { (readStatus s).2 with pollcnt := pollCountNext s.cfg s.pollcnt })
  | rxRead (b : Byte) (y : Bool) (o : Oracle) (hp : s.ph = Ph.rxRead)
      (hb : contractHolds s = true → s.ctl.rxready = true → b = s.ctl.rxh ∧ o = s.oracle)
      (hy : contractHolds s = true → y = false)
      (ht : t = { s with
        rxb := b, ctl := { s.ctl with rxready := y }, ph := Ph.rxStore, oracle := o
        history := .regRead .rxdata (regAddr s.cfg .rxdata) (b.setWidth 32) :: s.history })
  | rxStore (hp : s.ph = Ph.rxStore) (hl : s.idx < s.ctx.rxLen) (ha : rxAddr s < addrSpace)
      (ht : t = nextFrame { s with mem := s.mem.write (rxAddr s) s.rxb
                                   history := .memWrite (rxAddr s) s.rxb :: s.history })
  | rxSkip (hp : s.ph = Ph.rxStore) (hl : ¬ s.idx < s.ctx.rxLen) (ht : t = nextFrame s)
  | csDeassert (hp : s.ph = Ph.csDeassert)
      (ht : t = { s with csn := 0b111#3, ph := Ph.complete, history := .csn 0b111#3 :: s.history })
  | complete (hp : s.ph = Ph.complete)
      (ht : t = { s with
        ctx := { s.ctx with status := s.xstat, done := true, lock := false }
        result := completeR0 s.xstat, rdata := s.idx, ph := Ph.idle
        history := .resp s.owner (completeR0 s.xstat) s.idx :: s.history })
  | initClock (hp : s.ph = Ph.initClock)
      (ht : t = { s with ph := Ph.initPins, history := .enableClock s.cfg.clockId :: s.history })
  | initPins (hp : s.ph = Ph.initPins)
      (ht : t = { s with
        ph := Ph.routeDisable
        history := .configurePin s.cfg.pins.cs.pin .pushPull :: .configurePin s.cfg.pins.din.pin .input ::
          .configurePin s.cfg.pins.dout.pin .pushPull :: .configurePin s.cfg.pins.clk.pin .pushPull :: s.history })
  | routeDisable (hp : s.ph = Ph.routeDisable)
      (ht : t = { s with ctl := { s.ctl with routepen := 0x00000000#32 }, ph := Ph.routeLoc0
                         history := .regWrite .routepen (regAddr s.cfg .routepen) 0x00000000#32 :: s.history })
  | routeLoc0 (hp : s.ph = Ph.routeLoc0)
      (ht : t = { s with ctl := { s.ctl with routeloc0 := routeloc0Value s.cfg }, ph := Ph.routeLoc1
                         history := .regWrite .routeloc0 (regAddr s.cfg .routeloc0) (routeloc0Value s.cfg) :: s.history })
  | routeLoc1 (hp : s.ph = Ph.routeLoc1)
      (ht : t = { s with
        ctl := { s.ctl with routeloc1 := s.cfg.lay.routeloc1Default }, ph := Ph.routeEnable
        history := .regWrite .routeloc1 (regAddr s.cfg .routeloc1) s.cfg.lay.routeloc1Default :: s.history })
  | routeEnable (hp : s.ph = Ph.routeEnable)
      (ht : t = { s with
        ctl := { s.ctl with routepen := s.cfg.lay.routepenAll }, ph := Ph.initContext
        history := .regWrite .routepen (regAddr s.cfg .routepen) s.cfg.lay.routepenAll :: s.history })
  | initContext (hp : s.ph = Ph.initContext)
      (ht : t = { s with
        ctx := { txPtr := 0#32, txLen := 0#32, rxPtr := 0#32, rxLen := 0#32, status := 0x00#8, done := false, lock := false }
        inited := true, result := statusR0 .none, rdata := 0#32, ph := Ph.idle
        history := .resp s.owner (statusR0 .none) 0#32 :: s.history })

/-- What IDLE can do. -/
theorem idle_cases {s t : State} (hp : s.ph = Ph.idle) (he : execIdle s = .next t) : PhaseCase s t := by
  simp only [execIdle, Host.Outcome.next.injEq] at he
  subst he
  cases hi : s.inited with
  | false =>
    simp only [Bool.false_eq_true, if_false]
    cases hc : s.initPending with
    | none => exact .idle hp rfl
    | some c => exact .acceptInit c hp hi hc rfl
  | true =>
    cases hl : s.ctx.lock with
    | true => exact .idle hp (by simp)
    | false =>
      simp only [if_true, Bool.false_eq_true, if_false]
      rcases acceptWaiter_cases s with ⟨_, e⟩ | ⟨w, hw, e | e⟩
      · exact .idle hp e
      · exact .acceptWaiter w s.oracle hp hi hl hw e
      · exact .acceptWaiter w (drawPick s).2.oracle hp hi hl hw (by rw [e]; conv_lhs => rw [drawPick_state])

/-- What CFG_CTRL can do. -/
theorem cfgCtrl_cases {s t : State} (hp : s.ph = Ph.cfgCtrl) (he : execCfgCtrl s = .next t) : PhaseCase s t := by
  simp only [execCfgCtrl, Host.Outcome.next.injEq] at he
  subst he
  refine .cfgCtrl (readCtrl s).1 (readCtrl s).2.oracle hp (fun h => ?_) ?_
  · rw [readCtrl_of_contract h]; exact ⟨rfl, rfl⟩
  · conv_lhs => rw [readCtrl_state]
    rfl

/-- What RX_READ can do. -/
theorem rxRead_cases {s t : State} (hp : s.ph = Ph.rxRead) (he : execRxRead s = .next t) : PhaseCase s t := by
  simp only [execRxRead, Host.Outcome.next.injEq] at he
  subst he
  refine .rxRead (readRxdata s).1 (rxreadyAfterRead s (drawWord s).1) (readRxdata s).2.oracle hp
    (fun h hr => readRxdata_of_ready h hr) (fun h => rxreadyAfterRead_of_contract h _) ?_
  simp only [readRxdata]
  split
  · simp [goto, log]
  · simp only []; rw [drawWord_state]; simp [goto, log]

/-- The inversion of the Sequencer's step. -/
theorem phase_cases {s t : State} {i : Instr} (hd : decodePhase s.ph = .instr i) (he : exec i s = .next t) :
    PhaseCase s t := by
  rcases decodePhase_cases hd with ⟨hp, rfl⟩ | ⟨hp, rfl⟩ | ⟨hp, rfl⟩ | ⟨hp, rfl⟩ | ⟨hp, rfl⟩ | ⟨hp, rfl⟩ | ⟨hp, rfl⟩ |
    ⟨hp, rfl⟩ | ⟨hp, rfl⟩ | ⟨hp, rfl⟩ | ⟨hp, rfl⟩ | ⟨hp, rfl⟩ | ⟨hp, rfl⟩ | ⟨hp, rfl⟩ | ⟨hp, rfl⟩ | ⟨hp, rfl⟩ |
    ⟨hp, rfl⟩ | ⟨hp, rfl⟩ | ⟨hp, rfl⟩ | ⟨hp, rfl⟩ <;> clear hd <;> simp only [exec] at he
  · exact idle_cases hp he
  · unfold execValidatePh at he
    split at he <;> simp only [Host.Outcome.next.injEq] at he
    · exact .validated _ hp ‹_› he.symm
    · exact .rejected _ hp ‹_› he.symm
  · exact cfgCtrl_cases hp he
  · simp only [execCfgFrame, Host.Outcome.next.injEq] at he
    exact .cfgFrame hp (by rw [← he]; simp only [goto, regWrite, ctlWrite, log])
  · unfold execSetup at he
    simp only [] at he
    split at he <;> simp only [Host.Outcome.next.injEq] at he
    · exact .badCount hp ‹_› he.symm
    · rename_i hc; exact .setup _ hp (not_not.mp hc) rfl he.symm
  · simp only [execCsAssert, Host.Outcome.next.injEq] at he
    exact .csAssert hp (by rw [← he]; simp only [goto, driveCsn, log])
  · rcases execTxFetch_next he with ⟨hl, ha, b, o, hb, ht⟩ | ⟨hl, ht⟩
    · exact .txFetch b o hp hl ha hb ht
    · exact .txPad hp hl ht
  · unfold execTxWrite at he
    split at he
    · simp at he
    · simp only [Host.Outcome.next.injEq] at he
      rename_i hc; exact .txWrite hp (Bool.eq_false_iff.mpr hc) (by rw [← he]; rfl)
  · simp only [execPollTxc, Host.Outcome.next.injEq] at he
    cases hr : (readStatus s).1.txc with
    | true => exact .polled hp hr (by rw [← he, hr]; rfl)
    | false =>
      cases hl : pollLimitReached s.cfg s.pollcnt with
      | true => exact .hung hp hr hl (by rw [← he, hr, hl]; rfl)
      | false => exact .pollAgain hp hr hl (by rw [← he, hr, hl]; rfl)
  · exact rxRead_cases hp he
  · rcases execRxStore_next he with ⟨hl, ha, ht⟩ | ⟨hl, ht⟩
    · exact .rxStore hp hl ha ht
    · exact .rxSkip hp hl ht
  · simp only [execCsDeassert, Host.Outcome.next.injEq] at he
    exact .csDeassert hp (by rw [← he]; simp only [goto, driveCsn, log])
  · simp only [execComplete, Host.Outcome.next.injEq] at he
    exact .complete hp (by rw [← he]; simp only [goto, respond, log])
  · simp only [execInitClock, Host.Outcome.next.injEq] at he
    exact .initClock hp (by rw [← he]; simp only [goto, log])
  · simp only [execInitPins, Host.Outcome.next.injEq] at he
    exact .initPins hp (by rw [← he]; simp only [goto, log])
  · simp only [execRouteDisable, Host.Outcome.next.injEq] at he
    exact .routeDisable hp (by rw [← he]; simp only [goto, regWrite, ctlWrite, log])
  · simp only [execRouteLoc0, Host.Outcome.next.injEq] at he
    exact .routeLoc0 hp (by rw [← he]; simp only [goto, regWrite, ctlWrite, log])
  · simp only [execRouteLoc1, Host.Outcome.next.injEq] at he
    exact .routeLoc1 hp (by rw [← he]; simp only [goto, regWrite, ctlWrite, log])
  · simp only [execRouteEnable, Host.Outcome.next.injEq] at he
    exact .routeEnable hp (by rw [← he]; simp only [goto, regWrite, ctlWrite, log])
  · simp only [execInitContext, Host.Outcome.next.injEq] at he
    exact .initContext hp (by rw [← he]; simp only [goto, respond, log, causeCode])

end Sys2Proof.Machine
end

