-- ==== Sys2Proof/Tests/Slice0.lean ====
section
/-! SUPPORT. The model's own tests. Expected values are those of spec/95_test_vectors.md, or of the encoding tables of
spec/30_encoding.md; each group names its source. Then one witness for every statement that has hypotheses. -/

open Sys2Proof Sys2Proof.Machine

namespace Sys2Proof.Tests

/-! ### Well-formedness: an ill-formed term for each check, which the check refuses -/

def lay : RegLayout := RegLayout.default
def cfg : Config := Config.reference

theorem test_reference_wf : cfg.wf = true := by decide
theorem test_wf_base : { cfg with base := 0x40010002#32 }.wf = false := by decide
theorem test_wf_poll_limit : { cfg with pollLimit := some 0 }.wf = false := by decide
theorem test_wf_callers : { cfg with nCallers := 0 }.wf = false := by decide
theorem test_wf_layout : { cfg with lay := { lay with offFrame := 0 } }.wf = false := by decide
theorem test_wf_offsets_distinct : { lay with offFrame := 0 }.wf = false := by decide
theorem test_wf_offsets_words : { lay with offRouteloc1 := 0x22 }.wf = false := by decide
theorem test_wf_offsets_range : { lay with offRouteloc1 := 4294967296 }.wf = false := by decide
theorem test_wf_ctrl_bits : { lay with autocsBit := 0 }.wf = false := by decide
theorem test_wf_loopbk_range : { lay with loopbkBit := 32 }.wf = false := by decide
theorem test_wf_autocs_range : { lay with autocsBit := 32 }.wf = false := by decide
theorem test_wf_status_bits : { lay with txidleBit := 0 }.wf = false := by decide
theorem test_wf_txc_range : { lay with txcBit := 32 }.wf = false := by decide
theorem test_wf_txidle_range : { lay with txidleBit := 32 }.wf = false := by decide
theorem test_wf_pen_bits : { lay with txpenBit := 0, routepenAll := 0xD#32 }.wf = false := by decide
theorem test_wf_pen_range : { lay with rxpenBit := 32, routepenAll := 0xE#32 }.wf = false := by decide
theorem test_wf_pen_all : { lay with routepenAll := 0x7#32 }.wf = false := by decide
theorem test_wf_loc_width : { lay with rxLoc := { hi := 6, lo := 0 } }.wf = false := by decide
theorem test_wf_loc_range : { lay with clkLoc := { hi := 32, lo := 25 } }.wf = false := by decide
theorem test_wf_loc_overlap : { lay with txLoc := { hi := 14, lo := 7 } }.wf = false := by decide
theorem test_wf_short_packet :
    (Packet.mk 0x10000000#32 0#32 0#32 0#32 1#32).wf = false ∧ (Packet.mk 0x30000000#32 0#32 0#32 0#32 1#32).wf = true := by
  decide

/-- FRAME_VALUE's fields: 8 data bits, parity 0, one stop bit (R42, R110). -/
theorem test_frame_value_fields :
    fieldOf lay.dataBits 0x1008#32 = 8 ∧ fieldOf lay.parity 0x1008#32 = 0 ∧ fieldOf lay.stopBits 0x1008#32 = 1 := by decide

/-! ### Decoding: a word for every constructor, written out from R101, R103, R104 and R116 -/

theorem test_decode_init : decode (.packet [0b0001_0000_000000000000000000000000#32]) = .instr .init := by decide
/-- OP 0x2, CSIDX = 2, LOOP, WSIZE = 8. -/
theorem test_decode_validate :
    decode (.packet [0b0010_0000_00000010_0_0_00_0001000_0_1_0_0_0#32]) = .instr (.validate 0x020108#24) := by decide
theorem test_decode_transceive :
    decode (.packet [0x32000100#32, 0x100#32, 5#32, 0x200#32, 3#32]) =
      .instr (.transceive 2#4 0x000100#24 0x100#32 5#32 0x200#32 3#32) := by decide
theorem test_decode_transceive_async :
    decode (.packet [0x4FFFFFFF#32, 1#32, 2#32, 3#32, 4#32]) =
      .instr (.transceiveAsync 15#4 0xFFFFFF#24 1#32 2#32 3#32 4#32) := by decide
theorem test_decode_canrelease : decode (.packet [0x50000000#32]) = .instr .canRelease := by decide
theorem test_decode_phases :
    [0b00000#5, 0b00001#5, 0b00010#5, 0b00011#5, 0b00100#5, 0b00101#5, 0b00110#5, 0b00111#5, 0b01000#5, 0b01001#5].map
        (fun c => decode (.phase c)) =
      [.instr .idle, .instr .validatePh, .instr .cfgCtrl, .instr .cfgFrame, .instr .setup, .instr .csAssert,
       .instr .txFetch, .instr .txWrite, .instr .pollTxc, .instr .rxRead] := by decide
theorem test_decode_more_phases :
    [0b01010#5, 0b01011#5, 0b01100#5, 0b01101#5, 0b01110#5, 0b01111#5, 0b10000#5, 0b10001#5, 0b10010#5, 0b10011#5].map
        (fun c => decode (.phase c)) =
      [.instr .rxStore, .instr .csDeassert, .instr .complete, .instr .initClock, .instr .initPins, .instr .routeDisable,
       .instr .routeLoc0, .instr .routeLoc1, .instr .routeEnable, .instr .initContext] := by decide
/-- The illegal first words of section 2.1. -/
theorem test_decode_illegal :
    [0x10000001#32, 0x1F000000#32, 0x21000100#32, 0x50000100#32].map (fun w => decode (.packet [w])) =
      [.reject .mustBeZero, .reject .mustBeZero, .reject .mustBeZero, .reject .mustBeZero] ∧
    [0x00000000#32, 0x60000000#32, 0xF0000000#32, 0xFFFFFFFF#32].map (fun w => decode (.packet [w])) =
      [.reject .reservedOpcode, .reject .reservedOpcode, .reject .reservedOpcode, .reject .reservedOpcode] := by decide
/-- The host's numbering: the second word counts on from bit 32; a phase row has fewer than 32 bits. -/
theorem test_decode_table_words :
    decodeTableWord 160 (0x31000108 + 0x20000000 * 2 ^ 32 + 3 * 2 ^ 64 + 0x20000100 * 2 ^ 96 + 4 * 2 ^ 128) =
      some (.transceive 1#4 0x000108#24 0x20000000#32 3#32 0x20000100#32 4#32) ∧
    decodeTableWord 32 0x20000100 = some (.validate 0x000100#24) ∧ decodeTableWord 8 18 = some .routeEnable ∧
    decodeTableWord 8 20 = none := by decide

/-! ### One step of each instruction -/

/-- The next state, if there is one. -/
def after (r : Host.Outcome State Fault Refusal) : Option State :=
  match r with
  | .next t => some t
  | .fault _ => none
  | .refused _ => none

/-- The controller ready, the platform's bit 10 of CTRL set (section 3), FRAME as every transaction writes it. -/
def ready : Controller := { Controller.boot with ctrl := 0x400#32, mode := 0x400#32, frame := 0x1008#32 }

/-- After INIT, the platform's bit 10 of CTRL set (section 3). -/
def base : State := { State.reset with inited := true, ctl := ready }

/-- In a transaction of caller 1 at phase `p`, the given command latched. -/
def busy (p : BitVec 5) (w0 : Word) : State :=
  { base with ph := p, owner := 1, ctx := { base.ctx with lock := true }, agenda := [.sequencer]
              cmdbuf := { w0 := w0, w1 := 0x100#32, w2 := 5#32, w3 := 0x200#32, w4 := 3#32 } }

/-- A frame of a transaction with TXLEN 5 and RXLEN 3 at phase `p` and index `k`, slave 0 selected. -/
def framing (p : BitVec 5) (k : Word) : State :=
  { busy p 0x31000100#32 with
      ctx := { txPtr := 0x100#32, txLen := 5#32, rxPtr := 0x200#32, rxLen := 3#32, status := 0#8, done := false, lock := true }
      idx := k, csn := 0b110#3, mem := [(0x100, 0x9F#8)] }

/-- Section 1, S1 and S2. -/
theorem test_validate_ok :
    (after (exec (.validate 0x020108#24) base)).map (·.history) = some [.resp 0 0x00000000#32 0x00011008#32] := by decide
theorem test_validate_first_failure :
    [0xFFFFFF#24, 0x02FFFF#24, 0x00F11F#24, 0x00711F#24, 0x00311F#24, 0x00011F#24, 0x00010F#24, 0x000109#24].map (validate lay) =
      [.err .csIndex, .err .wordSize, .err .csPolarity, .err .lockOn, .err .lineMode, .err .bitOrder, .err .clockMode,
       .err .role] := by decide
/-- Section 2.1: 0x4FFFFFFF and four words. -/
theorem test_transceive_async :
    (after (exec (.transceiveAsync 15#4 0xFFFFFF#24 0#32 0#32 0#32 0#32) base)).map (·.history) =
      some [.resp 0 0x0000060E#32 0#32] := by decide
/-- Section 2.7. -/
theorem test_canrelease_idle :
    (after (exec .canRelease base)).map (fun t => t.history.head?) = some (some (.resp 0 0x00000000#32 1#32)) := by decide
theorem test_canrelease_void_word :
    (after (exec .canRelease { base with faultHang := true, oracle := { base.oracle with reads := [0xFFFFFFFD#32] } })).map
      (·.history) = some [.resp 0 0x0000030B#32 0#32, .regRead .status 0x40010008#32 0xFFFFFFFD#32] := by decide
theorem test_transceive_waits :
    (after (exec (.transceive 1#4 0x000100#24 0x100#32 5#32 0xFFFFFFFD#32 3#32) base)).map (fun t => (t.waiters, t.history)) =
      some ([{ caller := 0, packet := { w0 := 0x31000100#32, w1 := 0x100#32, w2 := 5#32, w3 := 0xFFFFFFFD#32, w4 := 3#32 } }], []) := by
  decide
theorem test_transceive_busy :
    (after (exec (.transceive 1#4 0x000100#24 0x100#32 5#32 0x200#32 3#32)
      { busy Ph.setup 0x31000100#32 with cfg := { cfg with nonblocking := true }, portCaller := 1 })).map
        (fun t => (t.waiters, t.history)) = some ([], [.resp 1 0x0000030A#32 0#32]) := by decide
theorem test_init_pending :
    (after (exec .init { State.reset with portCaller := 1 })).map (fun t => (t.initPending, t.ph)) = some (some 1, Ph.idle) := by
  decide
theorem test_idle_accepts_init :
    (after (exec .idle { State.reset with initPending := some 1 })).map (fun t => (t.owner, t.ph, t.initPending)) =
      some (1, Ph.initClock, none) := by decide
theorem test_idle_accepts_waiter :
    (after (exec .idle { base with waiters := [{ caller := 1, packet := { w0 := 0x31000100#32, w1 := 1#32, w2 := 2#32, w3 := 3#32, w4 := 4#32 } }] })).map
      (fun t => (t.owner, t.ph, t.ctx.lock, t.cmdbuf.w4, t.waiters)) = some (1, Ph.validate, true, 4#32, []) := by decide
/-- Section 2.9: raise. -/
theorem test_validate_ph_raises :
    (after (exec .validatePh { busy Ph.validate 0x31000110#32 with
        rdata := 3#32, ctx := { base.ctx with lock := true, done := true } })).map
      (fun t => ((t.result, t.rdata, t.ctx.lock), t.ctx.done, t.ph, t.history)) =
    some ((0x00000106#32, 0#32, false), true, Ph.idle, [.resp 1 0x00000106#32 0#32]) := by decide
theorem test_validate_ph_encodes :
    (after (exec .validatePh (busy Ph.validate 0x31020108#32))).map (fun t => (t.enc, t.ph, t.history)) =
      some ({ frame := 0x1008#16, loopbk := true, autocs := false }, Ph.cfgCtrl, []) := by decide
/-- Section 2.3. -/
theorem test_cfg_ctrl_values :
    [(0x00000000#32, true), (0x00000001#32, false), (0x00000003#32, true), (0x00000402#32, true), (0xA5A5A5A7#32, false)].map
        (fun p => ctrlUpdate lay p.1 { frame := 0#16, loopbk := p.2, autocs := false }) =
      [0x00000001#32, 0x00000000#32, 0x00000001#32, 0x00000401#32, 0xA5A5A5A4#32] := by decide
theorem test_cfg_ctrl_step :
    (after (exec .cfgCtrl { busy Ph.cfgCtrl 0x31000108#32 with enc := { frame := 0x1008#16, loopbk := true, autocs := false } })).map
      (fun t => (t.ctl.ctrl, t.ph, t.history)) =
    some (0x401#32, Ph.cfgFrame,
      [.regWrite .ctrl 0x40010000#32 0x401#32, .regRead .ctrl 0x40010000#32 0x400#32]) := by decide
theorem test_cfg_frame :
    (after (exec .cfgFrame { busy Ph.cfgFrame 0x31000100#32 with enc := { frame := 0x1008#16, loopbk := false, autocs := false } })).map
      (fun t => (t.ctl.frame, t.ph, t.history)) =
    some (0x1008#32, Ph.setup, [.regWrite .frame 0x40010004#32 0x1008#32]) := by decide
/-- Section 2.5. -/
theorem test_setup :
    (after (exec .setup (busy Ph.setup 0x31000100#32))).map (fun t => (t.ctx.txPtr, t.ctx.txLen, t.ctx.rxPtr, t.ctx.rxLen, t.ph)) =
      some (0x100#32, 5#32, 0x200#32, 3#32, Ph.csAssert) := by decide
theorem test_setup_pair_count :
    (after (exec .setup (busy Ph.setup 0x32000100#32))).map (fun t => (t.result, t.ctx.lock, t.ctx.txLen, t.ph)) =
      some (0x00000209#32, false, 0#32, Ph.idle) := by decide
/-- Section 2.6. -/
theorem test_cs_assert :
    [0x31000100#32, 0x31010100#32, 0x31020100#32].map (fun w => (after (exec .csAssert (busy Ph.csAssert w))).map (·.csn)) =
      [some 0b110#3, some 0b101#3, some 0b011#3] := by decide
theorem test_tx_fetch :
    (after (exec .txFetch (framing Ph.txFetch 0#32))).map (fun t => (t.txb, t.ph, t.history)) =
      some (0x9F#8, Ph.txWrite, [.memRead 0x100 0x9F#8]) := by decide
theorem test_tx_fetch_pads :
    (after (exec .txFetch (framing Ph.txFetch 5#32))).map (fun t => (t.txb, t.ph, t.history)) =
      some (0x00#8, Ph.txWrite, []) := by decide
theorem test_tx_write :
    (after (exec .txWrite { framing Ph.txWrite 0#32 with txb := 0x9F#8, pollcnt := 17 })).map
      (fun t => ((t.ctl.txframe, t.ctl.inflight, t.ctl.txc, t.ctl.txidle), t.pollcnt, t.ph, t.history)) =
    some ((0x9F#8, true, false, false), 0, Ph.pollTxc, [.regWrite .txdata 0x4001000C#32 0x9F#32]) := by decide
/-- `RR STATUS -> 0xFFFFFFFD` and `-> 0x0`, read where the word is not the contract's. -/
theorem test_poll_txc_seen :
    (after (exec .pollTxc { framing Ph.pollTxc 0#32 with ctl := { Controller.boot with isVoid := true }, oracle := { base.oracle with reads := [0xFFFFFFFD#32] } })).map
      (fun t => (t.pollcnt, t.ph)) = some (0, Ph.rxRead) := by decide
theorem test_poll_txc_limit :
    [0, 998, 999].map (fun n => (after (exec .pollTxc { framing Ph.pollTxc 0#32 with pollcnt := n, oracle := { base.oracle with reads := [0#32] } })).map
      (fun t => (t.pollcnt, t.xstat, t.faultHang, t.ph))) =
    [some (1, 0x00#8, false, Ph.pollTxc), some (999, 0x00#8, false, Ph.pollTxc), some (999, 0x0C#8, true, Ph.csDeassert)] := by
  decide
theorem test_rx_read :
    (after (exec .rxRead { framing Ph.rxRead 0#32 with ctl := { ready with rxh := 0xEF#8, rxready := true } })).map
      (fun t => (t.rxb, t.ctl.rxready, t.ph, t.history)) =
    some (0xEF#8, false, Ph.rxStore, [.regRead .rxdata 0x40010010#32 0xEF#32]) := by decide
theorem test_rx_store :
    (after (exec .rxStore { framing Ph.rxStore 2#32 with rxb := 0x40#8 })).map (fun t => (t.mem, t.idx, t.ph)) =
      some ([(0x100, 0x9F#8), (0x202, 0x40#8)], 3#32, Ph.txFetch) := by decide
theorem test_rx_store_last :
    (after (exec .rxStore { framing Ph.rxStore 4#32 with rxb := 0x40#8 })).map (fun t => (t.mem, t.idx, t.ph)) =
      some ([(0x100, 0x9F#8)], 5#32, Ph.csDeassert) := by decide
theorem test_cs_deassert :
    (after (exec .csDeassert { framing Ph.csDeassert 5#32 with csn := 0b101#3 })).map (fun t => (t.csn, t.ph, t.history)) =
      some (0b111#3, Ph.complete, [.csn 0b111#3]) := by decide
theorem test_complete_ok :
    (after (exec .complete (framing Ph.complete 5#32))).map
      (fun t => ((t.ctx.status, t.ctx.done, t.ctx.lock), t.result, t.rdata, t.ph, t.history)) =
    some ((0x00#8, true, false), 0x00000000#32, 5#32, Ph.idle, [.resp 1 0x00000000#32 5#32]) := by decide
theorem test_complete_hang :
    (after (exec .complete { framing Ph.complete 2#32 with xstat := 0x0C#8 })).map (fun t => (t.ctx.status, t.history)) =
      some (0x0C#8, [.resp 1 0x0000040C#32 2#32]) := by decide
/-- Program P1. -/
theorem test_init_clock :
    (after (exec .initClock { State.reset with ph := Ph.initClock })).map (fun t => (t.ph, t.history)) =
      some (Ph.initPins, [.enableClock 7]) := by decide
theorem test_init_pins :
    (after (exec .initPins { State.reset with ph := Ph.initPins })).map (fun t => (t.ph, t.history)) =
      some (Ph.routeDisable, [.configurePin 35 .pushPull, .configurePin 33 .input, .configurePin 32 .pushPull,
        .configurePin 34 .pushPull]) := by decide
theorem test_route_disable :
    (after (exec .routeDisable { State.reset with ctl := { Controller.boot with routepen := 0xF#32 } })).map
      (fun t => (t.ctl.routepen, t.ph, t.history)) =
    some (0#32, Ph.routeLoc0, [.regWrite .routepen 0x40010014#32 0#32]) := by decide
theorem test_route_loc0 :
    (after (exec .routeLoc0 State.reset)).map (fun t => (t.ctl.routeloc0, t.ph, t.history)) =
      some (0x0B0C0A09#32, Ph.routeLoc1, [.regWrite .routeloc0 0x40010018#32 0x0B0C0A09#32]) := by decide
theorem test_route_loc1 :
    (after (exec .routeLoc1 State.reset)).map (fun t => (t.ctl.routeloc1, t.ph, t.history)) =
      some (0#32, Ph.routeEnable, [.regWrite .routeloc1 0x4001001C#32 0#32]) := by decide
theorem test_route_enable :
    (after (exec .routeEnable State.reset)).map (fun t => (t.ctl.routepen, t.ph, t.history)) =
      some (0xF#32, Ph.initContext, [.regWrite .routepen 0x40010014#32 0xF#32]) := by decide
theorem test_init_context :
    (after (exec .initContext { State.reset with ph := Ph.initContext, owner := 1 })).map (fun t => (t.inited, t.ph, t.history)) =
      some (true, Ph.idle, [.resp 1 0#32 0#32]) := by decide
/-- No role connected, as before the routing sequence. -/
def unrouted : Route := { clk := none, dout := none, din := none, cs := none }

/-- ROUTEPEN = 0xF and ROUTELOC0 as R172's example writes it connect the binding's codes; ROUTEPEN = 0 disconnects all. -/
theorem test_route :
    routeOf lay { ready with routepen := 0xF#32, routeloc0 := 0x0B0C0A09#32 } =
      { clk := some 0x0B#8, dout := some 0x0A#8, din := some 0x09#8, cs := some 0x0C#8 } ∧
    routeOf lay { ready with routepen := 0x0#32, routeloc0 := 0x0B0C0A09#32 } = unrouted := by decide
/-- Section 2.10: CompleteFrame in loopback and with slave byte 0xC3. -/
theorem test_complete_frame :
    [(1#32, []), (0#32, [0xC3#8])].map (fun p =>
      let t := completeFrame { base with
        ctl := { ready with ctrl := 0x400#32 ||| p.1, txframe := 0x5A#8, inflight := true, txidle := false }
        oracle := { base.oracle with slave := p.2 } }
      ((t.ctl.rxh, t.ctl.rxready, t.ctl.txc), t.ctl.txidle, t.ctl.inflight, t.history)) =
    [((0x5A#8, true, true), true, false, [.frame 0b111#3 0x5A#8 0x5A#8 unrouted]),
     ((0xC3#8, true, true), true, false, [.frame 0b111#3 0x5A#8 0xC3#8 unrouted])] := by decide
/-- R258: with FRAME = 0 a frame another agent has started is not the contract's; its bits and bytes are the supply's. -/
theorem test_frame_not_covered :
    let t := completeFrame { base with
      ctl := { ready with frame := 0#32, inflight := true, txframe := 0x5A#8 }
      oracle := { base.oracle with reads := [0x02C30201#32] } }
    (t.ctl.rxh, t.ctl.rxready, t.ctl.txc, t.ctl.txnVoid, t.history) =
      (0xC3#8, false, true, false, [.frame 0b111#3 0x01#8 0x02#8 unrouted]) := by decide
/-- Section 2.10: frame 0xA5 with a slave returning 0x3C. -/
theorem test_edges :
    (frameEdges false 0xA5#8 0x3C#8).filterMap (fun e => match e with
      | .rise b => some b
      | .mosi _ => none
      | .fall => none) = [false, false, true, true, true, true, false, false] ∧
    shiftIn (frameEdges false 0xA5#8 0x3C#8) 0xFF#8 = 0x3C#8 := by decide
/-- `step` runs exactly the placed instruction as the first one after reset. -/
theorem test_step_first_phase :
    (after (step (State.reset.withFetchWord 8 17))).map (fun t => (t.ctl.routeloc1, t.ph, t.agenda)) =
      some (0#32, Ph.routeEnable, []) := by decide
theorem test_step_first_command :
    (after (step (State.reset.withFetchWord 32 0x20000200))).map (·.history) = some [.resp 0 0x00000102#32 0#32] := by decide

/-! ### Witnesses: for every statement with hypotheses a concrete state and operands that meet them, for each clause at a
boundary value of its range -/

theorem witness_DecodeOfEncode :
    (Instr.transceive 0xF#4 0xFFFFFF#24 0xFFFFFFFF#32 0#32 0#32 0xFFFFFFFF#32).wf = true ∧ Instr.initContext.wf = true := by
  decide
theorem witness_EncodeOfDecode :
    decode (.packet [0x20FFFFFF#32]) = .instr (.validate 0xFFFFFF#24) ∧ decode (.phase 19#5) = .instr .initContext := by decide
/-- For each clause a first word at the end of its range, and that it falls under no other. -/
theorem witness_DecoderIsTotal :
    (0x3FFFFFFF#32).toNat / 2 ^ 28 = 3 ∧ (0x40000000#32).toNat / 2 ^ 28 = 4 ∧ (0x20FFFFFF#32).toNat / 2 ^ 24 = 0x20 ∧
    ((0x21000000#32).toNat / 2 ^ 28 ≠ 3 ∧ (0x21000000#32).toNat / 2 ^ 28 ≠ 4 ∧ 0x21000000#32 ≠ 0x10000000#32 ∧
      0x21000000#32 ≠ 0x50000000#32 ∧ (0x21000000#32).toNat / 2 ^ 24 ≠ 0x20) := by decide

/-- The Sequencer moves next. -/
def seqNext (p : BitVec 5) : State := { base with ph := p, agenda := [.sequencer] }

/-- The host port is about to take packet `p` of caller 1. -/
def portNext (p : Packet) : State := { base with pending := [{ caller := 1, packet := p }], agenda := [.hostPort 1] }

/-- Caller 1 is about to submit packet `p`. -/
def submitting (p : Packet) : State := { base with agenda := [.submit 1 p] }

/-- A packet of one word. -/
def word1 (w : Word) : Packet := { w0 := w, w1 := 0#32, w2 := 0#32, w3 := 0#32, w4 := 0#32 }

/-- A TRANSCEIVE whose buffers end at the top of the address space. -/
def topPacket : Packet := { w0 := 0x31000100#32, w1 := 0xFFFFFFFF#32, w2 := 1#32, w3 := 0#32, w4 := 0xFFFFFFFF#32 }

theorem witness_SequencerStep :
    movesNext .sequencer (seqNext 19#5) ∧ decodePhase (seqNext 19#5).ph = .instr .initContext ∧ (seqNext 19#5).agenda ≠ [] :=
  ⟨⟨by decide, rfl⟩, rfl, by decide⟩
theorem witness_HostPortStep :
    (portNext (word1 0x50000000#32)).cfg.wf = true ∧
    findPending 1 (portNext (word1 0x50000000#32)).pending = some { caller := 1, packet := word1 0x50000000#32 } ∧
    decodePacket (word1 0x50000000#32) = .instr .canRelease ∧
    nextMove (portNext (word1 0x50000000#32)) = .hostPort 1 ∧
    ¬ OfTheSequencer .canRelease (word1 0x50000000#32) (portNext (word1 0x50000000#32)) :=
  ⟨by decide, by decide, by decide, rfl, by simp [OfTheSequencer]⟩
/-- INIT and a TRANSCEIVE that waits are the Sequencer's, also found by the host port; a BUSY TRANSCEIVE is not. -/
theorem witness_SubmissionRuns :
    nextMove (submitting topPacket) = .submit 1 topPacket ∧ 1 < (submitting topPacket).cfg.nCallers ∧
    heldPackets 1 (submitting topPacket) = 0 ∧
    decodePacket topPacket = .instr (.transceive 1#4 0x000100#24 0xFFFFFFFF#32 1#32 0#32 0xFFFFFFFF#32) ∧
    OfTheSequencer (.transceive 1#4 0x000100#24 0xFFFFFFFF#32 1#32 0#32 0xFFFFFFFF#32) topPacket (submitting topPacket) ∧
    OfTheSequencer .init (word1 0x10000000#32) State.reset ∧
    ¬ OfTheSequencer (.transceive 1#4 0x000100#24 0xFFFFFFFF#32 1#32 0#32 0xFFFFFFFF#32) topPacket
      { base with ctx := { base.ctx with lock := true }, cfg := { cfg with nonblocking := true } } :=
  ⟨rfl, by decide, by decide, by decide, .inr ⟨⟨_, _, _, _, _, _, rfl⟩, by decide, by decide⟩, .inl rfl,
   by simp [OfTheSequencer]⟩
/-- Program P5: the submission joins WAITERS; program P1: INIT is pending (R38, R291). -/
theorem witness_SubmissionJoins :
    (after (step (submitting topPacket))).map (fun t => (t.waiters.map (·.caller), t.pending, t.history)) =
      some ([1], [], [.submit 1 topPacket.words]) ∧
    (after (step { State.reset with agenda := [.submit 1 (word1 0x10000000#32)] })).map (·.initPending) = some (some 1) := by
  decide
/-- The host port writes nothing of SPIMSEQ's state: a TRANSCEIVE that is not BUSY stays where it is (R15, R290). -/
theorem test_host_port_leaves_transceive :
    (after (step (portNext topPacket))).map (fun t => (t.waiters, t.pending.map (·.caller), t.history)) = some ([], [1], []) := by
  decide
theorem witness_IllegalPacket :
    movesNext (.hostPort 1) (portNext (word1 0xF0000000#32)) ∧ (portNext (word1 0xF0000000#32)).inited = true ∧
    findPending 1 (portNext (word1 0xF0000000#32)).pending = some { caller := 1, packet := word1 0xF0000000#32 } ∧
    decodePacket (word1 0xF0000000#32) = .reject .reservedOpcode := ⟨⟨by decide, rfl⟩, rfl, by decide, by decide⟩
theorem witness_ReservedPhase :
    (movesNext .sequencer (seqNext 20#5) ∧ 20 ≤ (seqNext 20#5).ph.toNat) ∧
    (movesNext .sequencer (seqNext 31#5) ∧ 20 ≤ (seqNext 31#5).ph.toNat) :=
  ⟨⟨⟨by decide, rfl⟩, by decide⟩, ⟨⟨by decide, rfl⟩, by decide⟩⟩
theorem witness_ValidateCommand :
    base.inited = true ∧ validate base.cfg.lay 0x020108#24 = .ok { frame := 0x1008#16, loopbk := true, autocs := false } ∧
    validate base.cfg.lay 0x000101#24 = .err .role := by decide
theorem witness_Async : base.inited = true := rfl
theorem witness_CanRelease : base.inited = true ∧ base.cfg.wf = true ∧ contractHolds base = true := by decide

/-- The guard is held, acquisition non-blocking. -/
def engaged : State := { busy Ph.setup 0x31000100#32 with cfg := { cfg with nonblocking := true } }

theorem witness_TransceiveBusy : engaged.inited = true ∧ engaged.ctx.lock = true ∧ engaged.cfg.nonblocking = true := by decide
/-- Each way not to be busy, buffers that end at the top of the address space. -/
theorem witness_TransceiveJoins :
    (base.inited = true ∧ (base.ctx.lock = false ∨ base.cfg.nonblocking = false) ∧
      (0xFFFFFFFB#32).toNat + (5#32).toNat ≤ 2 ^ 32 ∧ (0xFFFFFFFF#32).toNat + (1#32).toNat ≤ 2 ^ 32 ∧
      findPending base.portCaller base.waiters = none ∧ findPending base.portCaller base.offered = none ∧
      base.cfg.nonblocking = false) ∧ engaged.cfg.nonblocking = true ∧
    (busy Ph.setup 0#32).ctx.lock = true ∧ (busy Ph.setup 0#32).cfg.nonblocking = false ∧
    { engaged with ctx := base.ctx }.ctx.lock = false := by decide
theorem witness_WrappingTransfer :
    base.inited = true ∧ base.ctx.lock = false ∧ 2 ^ 32 < (0xFFFFFFFB#32).toNat + (6#32).toNat ∧
    2 ^ 32 < (0xFFFFFFFF#32).toNat + (2#32).toNat := by decide
theorem witness_Init :
    (State.reset.inited = false ∧ State.reset.initPending = none ∧ State.reset.ph = 0#5) ∧ base.inited = true ∧
    { State.reset with initPending := some 0 }.initPending ≠ none ∧ { State.reset with ph := 13#5 }.ph ≠ 0#5 := by decide
/-- Reset, and the last of the phases of another caller's INIT. -/
theorem witness_NothingBeforeInit :
    State.reset.inited = false ∧
    (movesNext (.submit 1 topPacket) { State.reset with agenda := [.submit 1 topPacket], ph := 19#5 } ∧
      1 < State.reset.cfg.nCallers ∧ heldPackets 1 { State.reset with agenda := [.submit 1 topPacket], ph := 19#5 } = 0 ∧
      topPacket.w0 ≠ 0x10000000#32) := ⟨rfl, ⟨by decide, rfl⟩, by decide, by decide, by decide⟩

/-- Caller 1, the last one, is about to submit. -/
def submitNext : State := { base with agenda := [.submit 1 (word1 0x50000000#32)] }

theorem witness_CallerSubmits :
    (movesNext (.submit 1 (word1 0x50000000#32)) submitNext ∧ 1 < submitNext.cfg.nCallers ∧ heldPackets 1 submitNext = 0 ∧
      submitNext.inited = true ∧ ∀ i, decodePacket (word1 0x50000000#32) = .instr i →
        ¬ OfTheSequencer i (word1 0x50000000#32) submitNext) ∧
    heldPackets 1 { submitNext with pending := [{ caller := 1, packet := word1 0x50000000#32 }] } ≠ 0 ∧
    heldPackets 1 { submitNext with waiters := [{ caller := 1, packet := word1 0x50000000#32 }] } ≠ 0 ∧
    heldPackets 1 { submitNext with offered := [{ caller := 1, packet := word1 0x50000000#32 }] } ≠ 0 ∧
    heldPackets 1 { submitNext with initPending := some 1 } ≠ 0 ∧ heldPackets 1 { submitNext with owner := 1, ph := 1#5 } ≠ 0 :=
  ⟨⟨⟨by decide, rfl⟩, by decide, by decide, rfl, fun i h => by
      have : Decoded.instr .canRelease = .instr i := h
      simp only [Decoded.instr.injEq] at this
      simp [← this, OfTheSequencer]⟩,
   by decide, by decide, by decide, by decide, by decide⟩
theorem witness_Idle :
    ({ State.reset with initPending := some 1 }.inited = false ∧ { State.reset with initPending := some 1 }.initPending = some 1) ∧
    ({ base with waiters := [{ caller := 0, packet := word1 0#32 }, { caller := 1, packet := word1 0#32 }] }.inited = true ∧
      base.ctx.lock = false ∧ base.cfg.nonblocking = false ∧
      { base with waiters := [{ caller := 0, packet := word1 0#32 }, { caller := 1, packet := word1 0#32 }] }.waiters ≠ []) ∧
    (State.reset.inited = false ∧ State.reset.initPending = none) ∧ (base.inited = true ∧ base.waiters = []) ∧
    (busy Ph.idle 0#32).ctx.lock = true := by decide
/-- Where a buffer begins and ends to overlap the window 0x40010000 to 0x4001001F (R72, R355 (d)), and one that does not
exist. -/
theorem witness_IdleOverlap :
    [(0x4001001F#32, 1#32), (0x40010020#32, 1#32), (0x4000FFFF#32, 2#32), (0x4000FFFF#32, 1#32), (0x40010000#32, 0#32)].map
      (fun b => overlapsWindow cfg b.1 b.2) = [true, false, true, false, false] := by decide
/-- A window that passes the top of the address space (log 32). -/
theorem witness_IdleOverlapTop :
    [(0x0000000F#32, 1#32), (0x00000010#32, 1#32)].map (fun b => overlapsWindow { cfg with base := 0xFFFFFFF0#32 } b.1 b.2) =
      [true, false] := by decide
theorem witness_Routing : State.reset.cfg.wf = true := by decide
theorem witness_ValidatePhase :
    validate cfg.lay (BitVec.ofNat 24 (busy Ph.validate 0x31020108#32).cmdbuf.w0.toNat) =
      .ok { frame := 0x1008#16, loopbk := true, autocs := false } ∧
    validate cfg.lay (BitVec.ofNat 24 (busy Ph.validate 0x31030108#32).cmdbuf.w0.toNat) = .err .csIndex := by decide
theorem witness_CfgCtrl :
    (busy Ph.cfgCtrl 0x31000108#32).cfg.wf = true ∧ contractHolds (busy Ph.cfgCtrl 0x31000108#32) = true := by decide
/-- Counts 0 and 2 beside 1, lengths 0 and 0 beside 0 and 1. -/
theorem witness_Setup :
    (0x30000100#32).toNat / 2 ^ 24 % 16 ≠ 1 ∧ (0x32000100#32).toNat / 2 ^ 24 % 16 ≠ 1 ∧ (0x31000100#32).toNat / 2 ^ 24 % 16 = 1 ∧
    max (0#32).toNat (0#32).toNat = 0 ∧ 0 < max (0#32).toNat (1#32).toNat := by decide
theorem witness_ChipSelect :
    (busy Ph.csAssert 0x31020100#32).cmdbuf.w0.toNat / 2 ^ 16 % 2 ^ 8 < 3 ∧
    (busy Ph.csAssert 0x31000100#32).cmdbuf.w0.toNat / 2 ^ 16 % 2 ^ 8 < 3 := by decide

/-- Frame 4 of a buffer whose last byte is the last of the address space. -/
def topFrame (k : Word) : State :=
  { framing Ph.txFetch k with ctx := { (framing Ph.txFetch k).ctx with
      txPtr := 0xFFFFFFFB#32, txLen := 5#32, rxPtr := 0xFFFFFFFC#32, rxLen := 4#32 } }

theorem witness_TxFetch :
    ((topFrame 4#32).idx.toNat < (topFrame 4#32).ctx.txLen.toNat ∧
      (topFrame 4#32).ctx.txPtr.toNat + (topFrame 4#32).ctx.txLen.toNat ≤ 2 ^ 32 ∧
      inWindow cfg ((topFrame 4#32).ctx.txPtr.toNat + (topFrame 4#32).idx.toNat) = false) ∧
    (topFrame 5#32).ctx.txLen.toNat ≤ (topFrame 5#32).idx.toNat := by decide
/-- The ends of the register window, BASE to BASE + 0x1F (R72), and what the fetch then does (U6). -/
theorem witness_TxFetchInWindow :
    [0x4000FFFF, 0x40010000, 0x4001001F, 0x40010020].map (inWindow cfg) = [false, true, true, false] ∧
    (after (exec .txFetch { framing Ph.txFetch 0#32 with
      ctx := { txPtr := 0x4001001F#32, txLen := 1#32, rxPtr := 0#32, rxLen := 0#32, status := 0#8, done := false, lock := true }
      oracle.reads := [0x1A5#32] })).map (fun t => (t.txb, t.ph, t.history)) =
      some (0xA5#8, Ph.txWrite, [.memRead 0x4001001F 0xA5#8]) := by decide

/-- In POLL_TXC with a frame in flight. -/
def polling (n : Nat) : State :=
  { framing Ph.pollTxc 2#32 with
      pollcnt := n, ctl := { ready with inflight := true, txc := false, txidle := false, txframe := 0x5A#8 } }

theorem witness_TxWrite :
    contractHolds (framing Ph.txWrite 0#32) = true ∧ (framing Ph.txWrite 0#32).ctl.inflight = false := by decide
theorem witness_TxWriteWithoutAContract :
    contractHolds { polling 0 with faultHang := true } = false ∧ { polling 0 with faultHang := true }.ctl.inflight = true := by
  decide
theorem witness_TxWriteInFlight : contractHolds (polling 0) = true ∧ (polling 0).ctl.inflight = true := by decide
/-- The reads before the last allowed one and the last, and no limit. -/
theorem witness_PollTxc :
    (polling 0).cfg.wf = true ∧ contractHolds (polling 0) = true ∧ (0xFFFFFFFD#32).getLsbD (polling 0).cfg.lay.txcBit = true ∧
    (0xFFFFFFFE#32).getLsbD (polling 0).cfg.lay.txcBit = false ∧
    { cfg with pollLimit := none }.wf = true ∧ (polling 998).cfg.pollLimit = some 1000 ∧ (polling 998).pollcnt + 1 < 1000 ∧
    1000 ≤ (polling 999).pollcnt + 1 := by decide

/-- In RX_READ with the received byte unread. -/
def received : State := { framing Ph.rxRead 2#32 with ctl := { ready with rxh := 0xC3#8, rxready := true } }

theorem witness_RxRead : contractHolds received = true ∧ received.ctl.rxready = true := by decide
/-- Without a contract the byte and RXREADY are the supply's (R265). -/
theorem test_rx_read_void :
    (after (exec .rxRead { received with ctl := { received.ctl with txnVoid := true }, oracle.reads := [0x15A#32] })).map
      (fun t => (t.rxb, t.ctl.rxready)) = some (0x5A#8, true) := by decide
/-- The last stored frame, the first discarded one, a frame that is not the last and the last. -/
theorem witness_RxStore :
    Memory.wf (topFrame 3#32).mem = true ∧ (topFrame 3#32).ctx.rxPtr.toNat + (topFrame 3#32).ctx.rxLen.toNat ≤ 2 ^ 32 ∧
    (topFrame 3#32).idx.toNat < (topFrame 3#32).ctx.rxLen.toNat ∧ (topFrame 4#32).ctx.rxLen.toNat ≤ (topFrame 4#32).idx.toNat ∧
    (topFrame 3#32).idx.toNat + 1 < max (topFrame 3#32).ctx.txLen.toNat (topFrame 3#32).ctx.rxLen.toNat ∧
    max (topFrame 4#32).ctx.txLen.toNat (topFrame 4#32).ctx.rxLen.toNat ≤ (topFrame 4#32).idx.toNat + 1 := by decide

/-- The controller moves next. -/
def ctlNext (s : State) : State := { s with agenda := [.controller] }

theorem witness_FrameCompletion :
    movesNext .controller (ctlNext (polling 0)) ∧ contractHolds (ctlNext (polling 0)) = true ∧
    (ctlNext (polling 0)).ctl.inflight = true ∧ (ctlNext (polling 0)).ctl.ctrl.getLsbD cfg.lay.loopbkBit = false ∧
    (0x401#32).getLsbD cfg.lay.loopbkBit = true := ⟨⟨by decide, rfl⟩, by decide, rfl, by decide, by decide⟩
theorem witness_NoFrame :
    movesNext .controller (ctlNext base) ∧ contractHolds (ctlNext base) = true ∧ (ctlNext base).ctl.inflight = false :=
  ⟨⟨by decide, rfl⟩, by decide, rfl⟩
theorem witness_ResetEvent :
    movesNext .reset { polling 3 with agenda := [.reset], faultHang := true } ∧ (polling 3).ph ≠ 0#5 :=
  ⟨⟨by decide, rfl⟩, by decide⟩
/-- A transaction that a reset drops gets no response and is never finished (R352, R371). -/
theorem witness_DroppedIsNotAnswered :
    (after (step { polling 3 with agenda := [.reset], history := [.submit 1 [0x31000100#32]] })).map
      (fun t => (heldPackets 1 t, answered 1 t, t.history)) = some (0, false, [.csn 0b111#3, .submit 1 [0x31000100#32]]) := by decide
/-- A reset in IDLE: the contract holds where R355 (c) holds, not with TXC = 1 left by a transaction, nor after a hang. -/
theorem witness_ResetInIdle :
    [ready, { ready with txc := true }, { ready with isVoid := true }, { ready with txnVoid := true }].map
        (fun k => (after (step { base with ctl := k, faultHang := k.isVoid, agenda := [.reset] })).map ctlVoid) =
      [some false, some true, some true, some true] := by decide

theorem polling_rule39 : Rule39 (polling 999) where
  guard := by simp only [inPhases]; decide
  selectPhases := by simp only [inPhases]; decide
  selected := fun _ => by decide
  index := fun _ => by show (2 : Nat) ≤ 5; decide
  indexBelow := fun _ => by show (2 : Nat) < 5; decide
  legalPhase := by show (8 : Nat) < 20; decide
  beforeInit := fun h => by cases h
  validated := fun _ => by decide
  nonempty := fun h => absurd h (show Ph.pollTxc ≠ Ph.csAssert by decide)

theorem polling_safe : Safe (polling 999) where
  rule39 := polling_rule39
  transfer :=
    { waitersFit := fun w hw => by cases hw
      offeredFit := fun w hw => by cases hw
      latchFits := fun _ => by show transferFits 0x100#32 5#32 0x200#32 3#32 = true; decide
      contextFits := by show transferFits 0x100#32 5#32 0x200#32 3#32 = true; decide
      running := fun _ => rfl
      ended := fun _ => .inl rfl
      noTruncation := fun hp _ => by have : (11 : Nat) ≤ 8 := hp.1; omega
      hung := fun hp _ => by have : (11 : Nat) ≤ 8 := hp.1; omega
      polls := fun _ k hk => by
        have : some 1000 = some k := hk
        have e : 1000 = k := by simpa using this
        show 999 < k
        omega }
  controller :=
    { quiet := fun _ _ hp => absurd rfl hp
      polled := fun _ _ => ⟨fun _ => rfl, fun _ => rfl⟩
      autocsOff := fun _ _ => by decide
      modeKept := fun _ _ => by decide
      encoded := rfl
      encodedFrame := fun hp => by have : (8 : Nat) ≤ 3 := hp.2; omega
      framed := fun _ _ => by decide }
  memory := by show Memory.wf [(0x100, 0x9F#8)] = true; decide
  nobodyWaits := fun h => absurd h (by decide)

theorem witness_StepInvariants :
    Safe (polling 999) ∧ Rule39 (polling 999) ∧ ∃ t, step (polling 999) = .next t :=
  ⟨polling_safe, polling_rule39, _, rfl⟩
theorem witness_SequencerNeverStops : Safe (polling 999) ∧ movesNext .sequencer (polling 999) :=
  ⟨polling_safe, by decide, rfl⟩

/-- In ROUTE_LOC0 right after ROUTE_DISABLE. -/
def routing : State :=
  { State.reset with ph := Ph.routeLoc0, agenda := [.sequencer], history := [.regWrite .routepen 0x40010014#32 0#32] }

theorem witness_RoutingOrder : RouteInv routing ∧ ∃ t, step routing = .next t :=
  ⟨⟨trivial, fun _ => rfl⟩, _, rfl⟩
theorem witness_StatusWords :
    respondsLawfully (portNext (word1 0x60000000#32)).history ∧ ∃ t, step (portNext (word1 0x60000000#32)) = .next t :=
  ⟨fun c r0 r1 h => absurd h (by simp [portNext, base, State.reset, State.resetWith]), _, rfl⟩
theorem witness_OneResponse :
    Balanced submitNext ∧ nextMove submitNext ≠ .reset ∧ ∃ t, step submitNext = .next t :=
  ⟨fun c => by simp [submitNext, base, State.reset, State.resetWith, heldPackets, submitsOf, responsesTo, answered, responseSent, findPending,
     Ph.idle],
   by decide, _, rfl⟩
theorem witness_StickyFlags :
    (∃ t, step { polling 0 with faultHang := true } = .next t) ∧ nextMove { polling 0 with faultHang := true } ≠ .reset ∧
    { polling 0 with faultHang := true }.faultHang = true ∧ (polling 0).inited = true := ⟨⟨_, rfl⟩, by decide, rfl, rfl⟩
theorem witness_PhaseTable :
    ((∃ t, step (polling 999) = .next t) ∧ nextMove (polling 999) = .sequencer ∧ nextMove (polling 999) ≠ .reset) ∧
    (∃ t, step (ctlNext (polling 0)) = .next t) ∧ nextMove (ctlNext (polling 0)) ≠ .sequencer :=
  ⟨⟨⟨_, rfl⟩, rfl, by decide⟩, ⟨_, rfl⟩, by decide⟩

/-- In RX_STORE at the last stored frame. -/
def storing : State := { framing Ph.rxStore 2#32 with rxb := 0x40#8 }

theorem witness_MemoryChanges :
    Memory.wf storing.mem = true ∧ (∀ x b, nextMove storing ≠ .callerStore x b) ∧
    ∃ t, step storing = .next t ∧ t.mem.read 0x202 ≠ storing.mem.read 0x202 :=
  ⟨by decide, fun _ _ h => (by cases h), _, rfl, by decide⟩
theorem witness_HostPort :
    nextMove (portNext (word1 0x50000000#32)) = .hostPort 1 ∧ ∃ t, step (portNext (word1 0x50000000#32)) = .next t :=
  ⟨rfl, _, rfl⟩
/-- A caller waits, the Sequencer in IDLE. -/
def awaited : State :=
  { base with waiters := [{ caller := 1, packet := { w0 := 0x31000100#32, w1 := 1#32, w2 := 2#32, w3 := 3#32, w4 := 4#32 } }]
              agenda := [.sequencer] }

/-- CMDBUF, OWNER, WAITERS and CTX.LOCK change in IDLE, WAITERS and the pending INIT also with a submission. -/
theorem witness_WritersIdle :
    (∃ t, step awaited = .next t ∧ nextMove awaited ≠ .reset ∧ t.cmdbuf ≠ awaited.cmdbuf ∧ t.owner ≠ awaited.owner ∧
      t.waiters ≠ awaited.waiters ∧ t.ctx.lock ≠ awaited.ctx.lock) ∧
    (∃ t, step (submitting topPacket) = .next t ∧ t.waiters ≠ [] ∧ topPacket.w0.toNat / 2 ^ 28 = 3) ∧
    ∃ t, step { State.reset with agenda := [.submit 1 (word1 0x10000000#32)] } = .next t ∧ t.initPending ≠ none :=
  ⟨⟨_, rfl, by decide, by decide, by decide, by decide, by decide⟩, ⟨_, rfl, by decide, by decide⟩, _, rfl, by decide⟩
/-- ENC, the buffer references, DONE, IDX, XSTAT. -/
theorem witness_WritersSetup :
    (∃ t, step (busy Ph.validate 0x31020108#32) = .next t ∧ t.enc ≠ (busy Ph.validate 0x31020108#32).enc) ∧
    ∃ t, step { busy Ph.setup 0x31000100#32 with
        idx := 9#32, xstat := 0x0C#8, ctx := { base.ctx with lock := true, done := true } } = .next t ∧
      t.ctx.txLen ≠ 0#32 ∧ t.ctx.done ≠ true ∧ t.idx ≠ 9#32 ∧ t.xstat ≠ 0x0C#8 := by
  exact ⟨⟨_, rfl, by decide⟩, _, rfl, by decide, by decide, by decide, by decide⟩
/-- TXB, RXB, POLLCNT, FAULT_HANG, CSN, CTX.STATUS. -/
theorem witness_WritersLoop :
    (∃ t, step (framing Ph.txFetch 0#32) = .next t ∧ t.txb ≠ (framing Ph.txFetch 0#32).txb) ∧
    (∃ t, step received = .next t ∧ t.rxb ≠ received.rxb) ∧
    (∃ t, step (polling 999) = .next t ∧ t.faultHang ≠ (polling 999).faultHang) ∧
    (∃ t, step (polling 0) = .next t ∧ t.pollcnt ≠ 0) ∧
    (∃ t, step (framing Ph.csDeassert 5#32) = .next t ∧ t.csn ≠ (framing Ph.csDeassert 5#32).csn) ∧
    (∃ t, step { framing Ph.complete 2#32 with xstat := 0x0C#8 } = .next t ∧ t.ctx.status ≠ 0x00#8) :=
  ⟨⟨_, rfl, by decide⟩, ⟨_, rfl, by decide⟩, ⟨_, rfl, by decide⟩, ⟨_, rfl, by decide⟩, ⟨_, rfl, by decide⟩, ⟨_, rfl, by decide⟩⟩
/-- RESULT and INITED. -/
theorem witness_Writers :
    ∃ t, step { routing with ph := Ph.initContext, result := 7#32 } = .next t ∧ nextMove routing ≠ .reset ∧ t.result ≠ 7#32 ∧
      t.inited ≠ routing.inited :=
  ⟨_, rfl, by decide, by decide, by decide⟩
theorem witness_PlatformBits :
    (∃ t, step { busy Ph.cfgCtrl 0x31000108#32 with enc := { frame := 0#16, loopbk := true, autocs := false } } = .next t ∧
      t.ctl.ctrl ≠ (busy Ph.cfgCtrl 0x31000108#32).ctl.ctrl) ∧
    nextMove (busy Ph.cfgCtrl 0x31000108#32) = .sequencer ∧ contractHolds (busy Ph.cfgCtrl 0x31000108#32) = true ∧
    10 ≠ cfg.lay.loopbkBit ∧ 10 ≠ cfg.lay.autocsBit := ⟨⟨_, rfl, by decide⟩, rfl, by decide, by decide, by decide⟩

/-- In COMPLETE after all five frames. -/
def finished : State := { framing Ph.complete 5#32 with csn := 0b111#3 }

theorem witness_NoTransferCutShort : Safe finished ∧ movesNext .sequencer finished ∧ finished.ph = 12#5 := by
  refine ⟨⟨⟨by simp only [inPhases]; decide, by simp only [inPhases]; decide, fun h => ?_, fun _ => ?_, fun h => ?_, ?_,
    fun h => ?_, fun _ => ?_, fun h => ?_⟩, ⟨fun w hw => ?_,
    fun _ hw => absurd hw (by simp [finished, framing, busy, base, State.reset, State.resetWith]), fun h => ?_, ?_,
    fun h => ?_, fun _ => .inl rfl, fun _ _ => rfl, fun _ h => ?_, fun h => ?_⟩, ⟨fun _ _ _ => rfl, fun _ h => ?_, fun _ _ => by decide,
    fun _ _ => by decide, rfl, fun h => ?_, fun _ _ => by decide⟩, by decide, fun h => absurd h (by decide)⟩, ⟨by decide, rfl⟩, rfl⟩
  · have : (12 : Nat) ≤ 11 := h.2; omega
  · show (5 : Nat) ≤ 5; decide
  · have : (12 : Nat) ≤ 10 := h.2; omega
  · show (12 : Nat) < 20; decide
  · cases h
  · decide
  · exact absurd h (by decide)
  · cases hw
  · have : (12 : Nat) ≤ 4 := h.2; omega
  · show transferFits 0x100#32 5#32 0x200#32 3#32 = true; decide
  · have : (12 : Nat) ≤ 10 := h.2; omega
  · exact absurd h (by decide)
  · exact absurd h (by decide)
  · exact absurd h (by decide)
  · have : (12 : Nat) ≤ 3 := h.2; omega

/-- Acquisition is non-blocking, a TRANSCEIVE has found the guard free. -/
def offering : State :=
  { base with cfg := { cfg with nonblocking := true }
              offered := [{ caller := 1, packet := { w0 := 0x31000100#32, w1 := 0xFFFFFFFF#32, w2 := 1#32, w3 := 3#32, w4 := 4#32 } }] }

theorem witness_Offered :
    (offering.inited = true ∧ offering.ctx.lock = false ∧ offering.cfg.nonblocking = true ∧ offering.waiters = []) ∧
    Acceptable { caller := 1, packet := { w0 := 0x31000100#32, w1 := 0xFFFFFFFF#32, w2 := 1#32, w3 := 3#32, w4 := 4#32 } } offering ∧
    Acceptable { caller := 1, packet := topPacket } { portNext topPacket with cfg := offering.cfg } ∧
    ¬ ∃ w, Acceptable w { base with cfg := offering.cfg } :=
  ⟨by decide, .inl (by decide), .inr ⟨by decide, by decide, by decide⟩,
   fun ⟨_, h⟩ => by simp [Acceptable, base, State.reset, State.resetWith] at h⟩
/-- R290: submitted while the guard was held and not answered yet, accepted once the guard is free. -/
theorem witness_UnansweredAccepted :
    (after (exec .idle { portNext topPacket with cfg := offering.cfg })).map (fun t => (t.owner, t.ph, t.pending)) =
      some (1, Ph.validate, []) := by decide
/-- It stays on its way to the next IDLE step when another joins it (R285). -/
theorem test_offered_is_not_tested_again :
    (after (exec (.transceive 1#4 0x000100#24 0x100#32 5#32 0x200#32 3#32) { offering with portCaller := 0 })).map
      (fun t => (t.waiters, t.offered.map (·.caller), t.history)) = some ([], [0, 1], []) := by decide
/-- R355 (c): TXC = 0 is asked for at the first acceptance after a reset, not at a later one. A first one that fails
makes the contract void until the platform restores the controller. -/
theorem witness_FirstAcceptance :
    [(false, 0#32), (true, 0#32), (true, 0x31000100#32)].map (fun p =>
      (after (exec .idle { base with
        ctl := { ready with txc := p.1 }, cmdbuf := word1 p.2
        waiters := [{ caller := 1, packet := word1 0x31000100#32 }] })).map (fun t => (t.ctl.txnVoid, t.ctl.isVoid))) =
      [some (false, false), some (true, true), some (false, false)] := by decide
/-- R366: another agent writes ROUTEPEN in a transaction, void for that transaction and not for the next, accepted with
R355 holding. -/
theorem witness_VoidForOneTransaction :
    ctlVoid (platformWrite .routepen 0xF#32 { busy Ph.setup 0x31000100#32 with inited := true }) = true ∧
    (after (exec .idle { base with
      ctl := { ready with txnVoid := true }, cmdbuf := word1 0x31000100#32
      waiters := [{ caller := 1, packet := word1 0x31000100#32 }] })).map (fun t => (t.ph, ctlVoid t, contractHolds t)) =
      some (Ph.validate, false, true) := by decide
theorem witness_RoutingConnects :
    State.reset.cfg.wf = true ∧ ∃ t1 t2 t3 t4, exec .routeDisable State.reset = .next t1 ∧ exec .routeLoc0 t1 = .next t2 ∧
      exec .routeLoc1 t2 = .next t3 ∧ exec .routeEnable t3 = .next t4 := ⟨by decide, _, _, _, _, rfl, rfl, rfl, rfl⟩
/-- After a hang in IDLE, in each order. -/
theorem witness_Recover :
    (base.cfg.wf = true ∧ { base with faultHang := true }.ph = 0#5 ∧ { base with faultHang := true }.ctx.lock = false) ∧
    ((0x400#32).getLsbD base.cfg.lay.autocsBit = false) := by decide
theorem witness_FinishedRun :
    runFinished (seqNext 0#5) = true ∧ Balanced (seqNext 0#5) ∧ (∃ t, step (seqNext 0#5) = .next t) ∧
    nextMove (seqNext 0#5) = .sequencer ∧
    (runFinished (ctlNext base) = true ∧ nextMove (ctlNext base) = .controller ∧ contractHolds (ctlNext base) = true) :=
  ⟨by decide,
   fun c => by simp [seqNext, base, State.reset, State.resetWith, heldPackets, submitsOf, responsesTo, answered, responseSent, findPending,
     Ph.idle],
   ⟨_, rfl⟩, rfl, by decide, rfl, by decide⟩

theorem witness_ParametersNotAdmitted : { base with cfg := { cfg with pollLimit := some 0 } }.cfg.wf = false := by decide

end Sys2Proof.Tests
end

/-! ### What a move makes of a step, and the host port's part of it (R15, R290) -/

namespace Sys2Proof.Machine

theorem afterMove_oracle_of_agenda {s : State} (h : s.agenda ≠ []) : (afterMove s).oracle = s.oracle := by
  unfold afterMove
  split
  · rfl
  · exact absurd ‹_› h

/-! The turns of the moves that run an instruction, and what a step does with a turn. -/

theorem turn_of_sequencer {s : State} (hw : s.cfg.wf = true) (hm : nextMove s = .sequencer) :
    turn s = sequencerTurn (afterMove s) := by
  simp [turn, hw, hm]

theorem turn_of_hostPort {s : State} {c : Nat} (hw : s.cfg.wf = true) (hm : nextMove s = .hostPort c) :
    turn s = hostPortTurn c (afterMove s) := by
  simp [turn, hw, hm]

theorem turn_of_submit {s : State} {c : Nat} {p : Packet} (hw : s.cfg.wf = true) (hm : nextMove s = .submit c p) :
    turn s = submitTurn c p (afterMove s) := by
  simp [turn, hw, hm]

theorem turn_of_not_wf {s : State} (hw : s.cfg.wf = false) : turn s = .done (.refused .parametersNotAdmitted) := by
  simp [turn, hw]

theorem step_of_run {s t : State} {i : Instr} (h : turn s = .run i t) : step s = exec i t := by
  simp [step, h]

theorem step_of_done {s : State} {o : Result} (h : turn s = .done o) : step s = o := by
  simp [step, h]

/-! Which packets are the Sequencer's (R290), in the words of the statements. -/

@[simp] theorem forSequencer_afterMove (i : Instr) (s : State) : forSequencer i (afterMove s) = forSequencer i s := by
  cases i <;> simp [forSequencer, busyNow]

@[simp] theorem forSequencer_takePacket (i : Instr) (c : Nat) (s : State) :
    forSequencer i (takePacket c s) = forSequencer i s := by
  cases i <;> rfl

theorem buffersFit_iff (p : Packet) : BuffersFit p ↔ transferFits p.w1 p.w2 p.w3 p.w4 = true :=
  (transferFits_iff ..).symm

theorem busyNow_eq_false_iff (s : State) : busyNow s = false ↔ s.ctx.lock = false ∨ s.cfg.nonblocking = false := by
  simp [busyNow, imp_iff_not_or]

/-- The model's test `forSequencer` is what the statements call a packet of the Sequencer's. -/
theorem forSequencer_iff {p : Packet} {i : Instr} {s : State} (hd : decodePacket p = .instr i) :
    forSequencer i s = true ↔ OfTheSequencer i p s := by
  rw [forSequencer_cases hd, OfTheSequencer, buffersFit_iff, ← busyNow_eq_false_iff]
  rcases decodePacket_cases hd with rfl | rfl | rfl | rfl | rfl <;> simp [and_comm]

/-- A caller has a packet outstanding exactly when it is held in one of the places (R292). -/
theorem outstanding_eq_false_iff (c : Nat) (s : State) : outstanding c s = false ↔ heldPackets c s = 0 := by
  simp [outstanding, heldPackets, and_assoc]

@[simp] theorem outstanding_afterMove (c : Nat) (s : State) : outstanding c (afterMove s) = outstanding c s := by
  simp [outstanding]

/-! The host port's and the submission's turns, case by case. -/

theorem hostPortTurn_of_command {c : Nat} {s : State} {e : Pending} {i : Instr} (hf : findPending c s.pending = some e)
    (hd : decodePacket e.packet = .instr i) :
    hostPortTurn c s = if forSequencer i s then .done (.next s) else .run i (takePacket c s) := by
  simp [hostPortTurn, hf, hd]

theorem submitTurn_of_command {c : Nat} {p : Packet} {s : State} {i : Instr} (hc : c < s.cfg.nCallers)
    (ho : outstanding c s = false) (hd : decodePacket p = .instr i) (hq : forSequencer i s = true) :
    submitTurn c p s = .run i { log (.submit c p.words) s with portCaller := c } := by
  simp only [submitTurn, submittedTurn, Nat.not_le.mpr hc, ho, hd, forSequencer_log, hq, if_true, if_false,
    Bool.false_eq_true]

/-! What the host port's step leaves unchanged (R15, R241, R284, R287 to R290). -/

/-- A step whose move is the host port's is the host port's part of it. -/
theorem hostPortStep_of_step {s t : State} {c : Nat} (hm : nextMove s = .hostPort c) (h : step s = .next t) :
    HostPortStep c (afterMove s) t := by
  obtain ⟨-, hc⟩ := step_cases h
  cases hc with
  | hostPort d hd ht =>
    obtain rfl : c = d := by simpa using hm.symm.trans hd
    exact ht
  | _ => simp_all

theorem onlyAnswers_hostAnswer (k : Cause) (r1 : Word) (s : State) : OnlyAnswers s (hostAnswer k r1 s) := rfl

/-- A command that is not the Sequencer's writes nothing but its answer, with the STATUS read it may make (R284, R287,
R288, R290). -/
theorem exec_onlyAnswers {p : Packet} {i : Instr} {s t : State} (hd : decodePacket p = .instr i)
    (hq : forSequencer i s = false) (h : exec i s = .next t) : OnlyAnswers s t := by
  rcases decodePacket_cases hd with rfl | rfl | rfl | rfl | rfl
  · -- INIT is the Sequencer's.
    simp [forSequencer] at hq
  · -- CANRELEASE
    obtain ⟨-, rfl⟩ := execCanRelease_next h
    rfl
  · -- VALIDATE
    obtain ⟨-, rfl⟩ := whenInited_next h
    split <;> exact onlyAnswers_hostAnswer _ _ s
  · -- TRANSCEIVE is answered BUSY, or it is the Sequencer's.
    obtain ⟨-, ⟨-, rfl⟩ | ⟨hb, hfit, -⟩⟩ := execTransceive_next h
    · exact onlyAnswers_hostAnswer _ _ s
    · simp [forSequencer, hb, hfit] at hq
  · -- TRANSCEIVE_ASYNC
    obtain ⟨-, rfl⟩ := whenInited_next h
    exact onlyAnswers_hostAnswer _ _ s

/-- The host port leaves everything as it is, or it takes the packet and answers. -/
theorem HostPortStep.answers {c : Nat} {s t : State} (h : HostPortStep c s t) : t = s ∨ OnlyAnswers (takePacket c s) t := by
  cases h with
  | nothing ht => exact .inl ht
  | command e i _ hd hq ht => exact .inr (exec_onlyAnswers hd (by simpa using hq) ht)
  | illegal e r _ _ ht =>
    obtain ⟨-, rfl⟩ := whenInited_next ht
    exact .inr (onlyAnswers_hostAnswer _ _ _)

/-- The frame of the host port's step. The submitted packets lose the one it answers, or none if it answers none. -/
theorem HostPortStep.frame {c : Nat} {s t : State} (h : HostPortStep c s t) :
    (t.pending = s.pending ∨ t.pending = erasePending c s.pending) ∧
    t = { s with pending := t.pending, portCaller := t.portCaller, oracle := t.oracle, history := t.history } := by
  obtain ht | ht := h.answers <;> rw [ht]
  · exact ⟨.inl rfl, rfl⟩
  · exact ⟨.inr rfl, rfl⟩

/-- Settles O51: the frame of the host port's part of the step, around which the step only takes the move off the
agenda. -/
theorem hostPortDisturbsNothing : Obligations.HostPortDisturbsNothing := by
  intro s t c hm h
  obtain ⟨hp, ht⟩ := (hostPortStep_of_step hm h).frame
  rw [afterMove_pending] at hp
  refine ⟨fun a => ?_, fun d hd => ?_, ?_⟩
  · have hmem : t.mem = s.mem := (congrArg State.mem ht).trans (afterMove_mem s)
    rw [hmem]
  · obtain hp | hp := hp <;> rw [hp]
    exact findPending_erase_other hd _
  · rw [afterMove_state] at ht
    exact ht

/-- Settles O5: the Sequencer's turn is the phase PH names, and PH is untouched by taking the move. -/
theorem sequencerStepRunsThePhase : Obligations.SequencerStepRunsThePhase := by
  intro s i ⟨hw, hm⟩ hd
  have hturn : turn s = .run i (afterMove s) := by
    rw [turn_of_sequencer hw hm, sequencerTurn, afterMove_ph, hd]
  exact ⟨step_of_run hturn, afterMove_state s, afterMove_oracle_of_agenda⟩

/-- Settles O6: the turn of the host port and that of a submission, with the model's test for a packet of the
Sequencer's read as `OfTheSequencer`. -/
theorem hostPortStepRunsThePacket : Obligations.HostPortStepRunsThePacket := by
  intro s c i hw
  refine ⟨fun e hm hf hd => ?_, fun p hm hd hc hheld hq => ?_⟩
  · have hturn := (turn_of_hostPort hw hm).trans
      (hostPortTurn_of_command (by rwa [afterMove_pending]) hd)
    rw [forSequencer_afterMove] at hturn
    rw [← forSequencer_iff hd]
    refine ⟨fun hq => ⟨takePacket c (afterMove s), step_of_run (by simpa [hq] using hturn), rfl, ?_, fun d hcd => ?_⟩,
      fun hq => step_of_done (by simpa [hq] using hturn)⟩
    · exact findPending_erase_same c _
    · rw [takePacket_pending, afterMove_pending, findPending_erase_other hcd]
  · have hturn := (turn_of_submit hw hm).trans
      (submitTurn_of_command (by rwa [afterMove_cfg]) (by rwa [outstanding_afterMove, outstanding_eq_false_iff]) hd
        (by rwa [forSequencer_afterMove, forSequencer_iff hd]))
    rw [step_of_run hturn, log, afterMove_history]

/-- Settles O55: the turn of such a state is a refusal, whatever its next move. -/
theorem parametersMustBeAdmitted : Obligations.ParametersMustBeAdmitted := fun _ hw => step_of_done (turn_of_not_wf hw)

end Sys2Proof.Machine

/-! ### Who writes the registers of the block: the submission, and the moves that run no phase (R15) -/

namespace Sys2Proof.Machine

/-- Only the packet 0x10000000 is an INIT (R103, R117). -/
theorem init_of_decodePacket {p : Packet} (h : decodePacket p = .instr .init) : p.w0 = 0x10000000#32 := by
  have hfields : p.w0.extractLsb' 28 4 = 0x1#4 ∧ p.w0.extractLsb' 0 28 = 0#28 := by
    unfold decodePacket at h
    repeat' split at h
    all_goals simp_all [Packet.op]
  obtain ⟨hcnt, hdesc⟩ := (low28_eq_zero_iff _).mp hfields.2
  rw [← firstWord_of_fields p.w0, hfields.1, hcnt, hdesc]
  rfl

/-- A TRANSCEIVE has opcode 0x3 (R103). -/
theorem op_of_decodePacket_transceive {p : Packet} {cnt : BitVec 4} {d : BitVec 24} {tp tl rp rl : Word}
    (h : decodePacket p = .instr (.transceive cnt d tp tl rp rl)) : p.op = 0x3#4 := by
  unfold decodePacket at h
  repeat' split at h
  all_goals simp_all

/-- A packet with the opcode of TRANSCEIVE is the one its operands make (R101). -/
theorem transferPacket_of_op {p : Packet} (h : p.op = 0x3#4) :
    transferPacket 0x3#4 p.cnt p.desc p.w1 p.w2 p.w3 p.w4 = p := by
  rw [← h, transferPacket, Packet.op, Packet.cnt, Packet.desc, firstWord_of_fields]

theorem op_eq_iff (p : Packet) (k : BitVec 4) : p.op = k ↔ p.w0.toNat / 2 ^ 28 = k.toNat := by
  rw [Packet.op, ← BitVec.toNat_inj, BitVec.extractLsb'_toNat, Nat.shiftRight_eq_div_pow]
  omega

/-- What a submission that is answered leaves (R73, R285, R290, R291): nothing, or the packet in the place its command
gives it. -/
inductive Submitted (c : Nat) (p : Packet) (s t : State) : Prop where
  | nobody (ht : t = s)
  | held (ht : t = { s with pending := insertPending { caller := c, packet := p } s.pending
                            history := .submit c p.words :: s.history })
  | init (hp : p.w0 = 0x10000000#32)
      (ht : t = { s with initPending := some c, portCaller := c, history := .submit c p.words :: s.history })
  | waits (hp : p.op = 0x3#4) (hf : transferFits p.w1 p.w2 p.w3 p.w4 = true) (hn : s.cfg.nonblocking = false)
      (ht : t = { s with waiters := insertPending { caller := c, packet := p } s.waiters, portCaller := c
                         history := .submit c p.words :: s.history })
  | offered (hp : p.op = 0x3#4) (hf : transferFits p.w1 p.w2 p.w3 p.w4 = true) (hn : s.cfg.nonblocking = true)
      (ht : t = { s with offered := insertPending { caller := c, packet := p } s.offered, portCaller := c
                         history := .submit c p.words :: s.history })

theorem SubmitStep.submitted {c : Nat} {p : Packet} {s t : State} (h : SubmitStep c p s t) : Submitted c p s t := by
  cases h with
  | nobody _ ht => exact .nobody ht
  | held _ _ _ _ ht => exact .held ht
  | command i _ _ hd hq ht =>
    rcases (forSequencer_cases hd).mp hq with rfl | ⟨rfl, hb, hf⟩
    · obtain ⟨-, -, -, rfl⟩ := execInit_next ht
      exact .init (init_of_decodePacket hd) rfl
    · have hop := op_of_decodePacket_transceive hd
      obtain ⟨-, ⟨hb', -⟩ | ⟨-, -, ⟨hn, rfl⟩ | ⟨hn, rfl⟩⟩⟩ := execTransceive_next ht
      · exact absurd hb (Bool.not_eq_false _ ▸ hb')
      · rw [transferPacket_of_op hop]
        exact .waits hop hf hn rfl
      · rw [transferPacket_of_op hop]
        exact .offered hop hf hn rfl

/-- What the Sequencer alone writes is as before: all but the sets of packets, the controller, buffer memory and the
model's own fields (R15). -/
def SequencerStateKept (s t : State) : Prop :=
  t = { s with
    waiters := t.waiters, offered := t.offered, initPending := t.initPending, pending := t.pending
    portCaller := t.portCaller, ctl := t.ctl, mem := t.mem, agenda := t.agenda, oracle := t.oracle
    history := t.history }

theorem afterMove_kept (s : State) : SequencerStateKept s (afterMove s) := by
  rw [afterMove_state]; rfl

theorem Submitted.kept {c : Nat} {p : Packet} {s t : State} (h : Submitted c p s t) : SequencerStateKept s t := by
  cases h <;> subst t <;> rfl

theorem HostPortStep.kept {c : Nat} {s t : State} (h : HostPortStep c s t) : SequencerStateKept s t := by
  rw [h.frame.2]; rfl

theorem completeFrame_kept (s : State) : SequencerStateKept s (completeFrame s) := by
  rw [completeFrame_state]; rfl

theorem platformRead_kept (r : Reg) (s : State) : SequencerStateKept s (platformRead r s) := by
  obtain ⟨y, o, h⟩ := platformRead_state r s
  rw [h]; rfl

/-- A reset event leaves the block as the state right after reset has it (R350). -/
theorem resetEvent_kept (s : State) : SequencerStateKept (State.resetWith s.cfg) (resetEvent s) := by
  rw [resetEvent_state]; rfl

theorem SequencerStateKept.trans {s s' t : State} (h : SequencerStateKept s s') (h' : SequencerStateKept s' t) :
    SequencerStateKept s t := by
  rw [h] at h'
  exact h'

/-- What a step that answers does to the state with the move taken off the agenda: the phase that PH names, a reset, or
the step of an agent that leaves what the Sequencer alone writes as it is (R15). -/
theorem StepCase.phase_or_kept {s t : State} (h : StepCase s t) :
    (nextMove s = .sequencer ∧ PhaseCase (afterMove s) t) ∨ (nextMove s = .reset ∧ t = resetEvent (afterMove s)) ∨
    (nextMove s ≠ .sequencer ∧ SequencerStateKept (afterMove s) t) := by
  cases h with
  | sequencer hm i hd ht => exact .inl ⟨hm, phase_cases hd ht⟩
  | reset hm ht => exact .inr (.inl ⟨hm, ht⟩)
  | hostPort c hm ht => exact .inr (.inr ⟨by simp [hm], ht.kept⟩)
  | controller hm ht => exact .inr (.inr ⟨by simp [hm], ht ▸ completeFrame_kept _⟩)
  | submit c p hm ht => exact .inr (.inr ⟨by simp [hm], ht.submitted.kept⟩)
  | callerStore a b hm ht => exact .inr (.inr ⟨by simp [hm], by rw [ht]; rfl⟩)
  | platformWrite r v hm ht => exact .inr (.inr ⟨by simp [hm], by rw [ht]; rfl⟩)
  | platformRead r hm ht => exact .inr (.inr ⟨by simp [hm], ht ▸ platformRead_kept _ _⟩)
  | platformRestore v hm ht => exact .inr (.inr ⟨by simp [hm], by rw [ht]; rfl⟩)

/-! ### FAULT_HANG, INITED and the parameters (R9, R35, R36) -/

theorem PhaseCase.cfg_eq {s t : State} (h : PhaseCase s t) : t.cfg = s.cfg := by
  cases h <;> subst t <;> simp

/-- Only the hang path of POLL_TXC writes FAULT_HANG, and it sets it (R36, R218). -/
theorem PhaseCase.faultHang_mono {s t : State} (h : PhaseCase s t) (hf : s.faultHang = true) : t.faultHang = true := by
  cases h with
  | hung _ _ _ ht => rw [ht]; rfl
  | _ => subst t; simp [hf]

/-- Only INIT_CONTEXT writes INITED, and it sets it (R35, R283). -/
theorem PhaseCase.inited_mono {s t : State} (h : PhaseCase s t) (hi : s.inited = true) : t.inited = true := by
  cases h with
  | initContext _ ht => rw [ht]
  | _ => subst t; simp [hi]

/-- Settles O48: the phases set these flags and never clear them; another agent's step leaves them as they are. -/
theorem stickyFlagsAndParameters : Obligations.StickyFlagsAndParameters := by
  intro s t h
  obtain ⟨-, hc⟩ := step_cases h
  rcases hc.phase_or_kept with ⟨-, hp⟩ | ⟨hm, rfl⟩ | ⟨-, hk⟩
  · exact ⟨by simpa using hp.cfg_eq,
      fun _ => ⟨fun hf => hp.faultHang_mono (by simpa using hf), fun hi => hp.inited_mono (by simpa using hi)⟩⟩
  · exact ⟨(congrArg State.cfg (resetEvent_kept (afterMove s))).trans (afterMove_cfg s), fun hr => absurd hm hr⟩
  · have hall := (afterMove_kept s).trans hk
    rw [hall]
    exact ⟨rfl, fun _ => ⟨id, id⟩⟩

end Sys2Proof.Machine

/-! ### The invariants of R39: read phase by phase, at reset, and along every step -/

namespace Sys2Proof.Machine

/-- What R39 asks for outside a transaction: the guard is free and no slave is selected. -/
structure AtRest (s : State) : Prop where
  phase : inPhases 0 0 s ∨ inPhases 13 19 s
  free : s.ctx.lock = false
  high : s.csn = 0b111#3

/-- What it asks for of a transaction while no slave is selected. -/
structure Holding (s : State) : Prop where
  phase : inPhases 1 5 s ∨ inPhases 12 12 s
  held : s.ctx.lock = true
  ready : s.inited = true
  high : s.csn = 0b111#3
  line : inPhases 2 12 s → (descCsidx (desc s)).toNat < 3
  index : inPhases 5 12 s → s.idx.toNat ≤ (longest s).toNat
  below : inPhases 5 5 s → s.idx.toNat < (longest s).toNat

/-- What it asks for of a transaction while a slave is selected. -/
structure Selecting (s : State) : Prop where
  phase : inPhases 6 11 s
  held : s.ctx.lock = true
  ready : s.inited = true
  line : (descCsidx (desc s)).toNat < 3
  low : s.csn = csnFor (descCsidx (desc s))
  index : s.idx.toNat ≤ (longest s).toNat
  below : inPhases 6 10 s → s.idx.toNat < (longest s).toNat

theorem AtRest.rule39 {s : State} (h : AtRest s) : Rule39 s := by
  obtain ⟨hp, hl, hc⟩ := h
  have outside : ¬ inPhases 1 12 s := by omega
  exact {
    guard := by simp [hl, outside]
    selectPhases := by simp [hc]; omega
    selected := by omega
    index := by omega
    indexBelow := by omega
    legalPhase := by omega
    beforeInit := fun _ => hp.imp_left fun h0 => BitVec.eq_of_toNat_eq (by simpa using h0.2)
    validated := by omega
    nonempty := fun he => by simp [inPhases, he] at outside }

theorem Holding.rule39 {s : State} (h : Holding s) : Rule39 s := by
  have hp := h.phase
  have inside : inPhases 1 12 s := by omega
  exact {
    guard := iff_of_true h.held inside
    selectPhases := by simp [h.high]; omega
    selected := by omega
    index := h.index
    indexBelow := by omega
    legalPhase := by omega
    beforeInit := by simp [h.ready]
    validated := h.line
    nonempty := fun he => h.below (by simp [inPhases, he]) }

theorem Selecting.rule39 {s : State} (h : Selecting s) : Rule39 s := by
  have hp := h.phase
  have inside : inPhases 1 12 s := by omega
  exact {
    guard := iff_of_true h.held inside
    selectPhases := iff_of_true (h.low ▸ csnFor_ne_idle h.line) hp
    selected := fun _ => h.low ▸ csnFor_getLsbD _
    index := fun _ => h.index
    indexBelow := h.below
    legalPhase := by omega
    beforeInit := by simp [h.ready]
    validated := fun _ => h.line
    nonempty := fun he => by simp [inPhases, he] at hp }

theorem Rule39.high {s : State} (h : Rule39 s) (hp : ¬ inPhases 6 11 s) : s.csn = 0b111#3 :=
  not_not.mp (mt h.selectPhases.mp hp)

theorem Rule39.ready {s : State} (h : Rule39 s) (hp : inPhases 1 12 s) : s.inited = true := by
  by_contra hi
  rcases h.beforeInit (by simpa using hi) with h0 | h13
  · simp [inPhases, h0] at hp
  · omega

theorem Rule39.atRest {s : State} (h : Rule39 s) (hp : inPhases 0 0 s ∨ inPhases 13 19 s) : AtRest s where
  phase := hp
  free := Bool.eq_false_iff.mpr (mt h.guard.mp (by omega))
  high := h.high (by omega)

theorem Rule39.holding {s : State} (h : Rule39 s) (hp : inPhases 1 5 s ∨ inPhases 12 12 s) : Holding s where
  phase := hp
  held := h.guard.mpr (by omega)
  ready := h.ready (by omega)
  high := h.high (by omega)
  line := h.validated
  index := h.index
  below := fun h5 => h.nonempty (BitVec.eq_of_toNat_eq (Nat.le_antisymm h5.2 h5.1))

theorem Rule39.selecting {s : State} (h : Rule39 s) (hp : inPhases 6 11 s) : Selecting s where
  phase := hp
  held := h.guard.mpr (by omega)
  ready := h.ready (by omega)
  line := h.validated (by omega)
  low := BitVec.eq_of_getLsbD_eq fun k hk => (h.selected hp k hk).trans (csnFor_getLsbD _ k hk).symm
  index := h.index (by omega)
  below := h.indexBelow

/-- Settles O40. -/
theorem rule39HoldsAtReset : Obligations.Rule39HoldsAtReset := fun _ =>
  AtRest.rule39 ⟨.inl ⟨Nat.le_refl _, Nat.le_refl _⟩, rfl, rfl⟩

/-- Settles O38: the record `State.resetWith` read field by field. -/
theorem resetValuesAreThoseOfRule53 : Obligations.ResetValuesAreThoseOfRule53 := by
  rintro cfg s rfl
  exact ⟨rfl, rfl, rfl, rfl, rfl, rfl, rfl, rfl, rfl, rfl, rfl, rfl, rfl, rfl, rfl, rfl, rfl, rfl, rfl, rfl⟩

/-- R39 speaks of nothing that another agent writes. -/
theorem Rule39.of_kept {s t : State} (h : Rule39 s) (hk : SequencerStateKept s t) : Rule39 t := by
  rw [hk]
  exact ⟨h.guard, h.selectPhases, h.selected, h.index, h.indexBelow, h.legalPhase, h.beforeInit, h.validated, h.nonempty⟩

/-- An accepted descriptor has a supported chip-select index and gives its own encoding (R141, R151). -/
theorem validate_ok {l : RegLayout} {d : BitVec 24} {e : Enc} (h : validate l d = .ok e) :
    (descCsidx d).toNat < 3 ∧ e = encodingOf l d := by
  unfold validate at h
  by_cases hc : checkCsIndex d = true
  · refine ⟨of_decide_eq_true hc, ?_⟩
    repeat' split at h
    all_goals simp_all
  · simp [hc] at h


/-- What R39 speaks of beside PH is as before. -/
structure SameTransaction (s t : State) : Prop where
  ctx : t.ctx = s.ctx := by simp
  csn : t.csn = s.csn := by simp
  cmdbuf : t.cmdbuf = s.cmdbuf := by simp
  idx : t.idx = s.idx := by simp
  inited : t.inited = s.inited := by simp

theorem AtRest.keep {s t : State} (h : AtRest s) (hk : SameTransaction s t) (hp : inPhases 0 0 t ∨ inPhases 13 19 t) :
    AtRest t :=
  ⟨hp, hk.ctx ▸ h.free, hk.csn ▸ h.high⟩

/-- Past VALIDATE and before CS_ASSERT a transaction goes on with the chip-select index it has. -/
theorem Holding.keep {s t : State} (h : Holding s) (hk : SameTransaction s t) (hp : inPhases 1 4 t)
    (hl : (descCsidx (desc s)).toNat < 3) : Holding t where
  phase := .inl (by omega)
  held := hk.ctx ▸ h.held
  ready := hk.inited ▸ h.ready
  high := hk.csn ▸ h.high
  line := fun _ => by rwa [desc, hk.cmdbuf]
  index := by omega
  below := by omega

/-- With a slave selected and a frame to clock a transaction goes on as it is. -/
theorem Selecting.keep {s t : State} (h : Selecting s) (hk : SameTransaction s t) (hs : inPhases 6 10 s)
    (ht : inPhases 6 11 t) : Selecting t where
  phase := ht
  held := hk.ctx ▸ h.held
  ready := hk.inited ▸ h.ready
  line := by rw [desc, hk.cmdbuf]; exact h.line
  low := by rw [desc, hk.cmdbuf, hk.csn]; exact h.low
  index := by rw [longest, hk.ctx, hk.idx]; exact h.index
  below := fun _ => by rw [longest, hk.ctx, hk.idx]; exact h.below hs

/-- Counting a frame that is below the longest length does not wrap (R216). -/
theorem toNat_nextFrame_idx {s : State} (h : s.idx.toNat < (longest s).toNat) :
    (nextFrame s).idx.toNat = s.idx.toNat + 1 := by
  rw [nextFrame_idx, BitVec.toNat_add, BitVec.toNat_one (by omega)]
  omega

@[simp] theorem longest_nextFrame (s : State) : longest (nextFrame s) = longest s := rfl

/-- RX_STORE goes on to a frame below the longest length, or to CS_DEASSERT (R216). -/
theorem nextFrame_phase (s : State) :
    (inPhases 6 6 (nextFrame s) ∧ s.idx.toNat + 1 < (longest s).toNat) ∨
    (inPhases 11 11 (nextFrame s) ∧ (longest s).toNat ≤ s.idx.toNat + 1) := by
  simp only [inPhases, nextFrame_ph]
  split <;> simp <;> omega

theorem Selecting.nextFrame {s : State} (h : Selecting s) (hs : inPhases 6 10 s) : Selecting (nextFrame s) := by
  have hlt := h.below hs
  have hidx := toNat_nextFrame_idx hlt
  have hph := nextFrame_phase s
  refine ⟨by omega, h.held, h.ready, h.line, h.low, ?_, fun hp => ?_⟩ <;> rw [longest_nextFrame] <;> omega

/-- SETUP goes on to COMPLETE with nothing to clock, and to CS_ASSERT with a first frame (R195, R221). -/
theorem setup_phase {s t : State} {p : BitVec 5}
    (hn : p = if maxLen s.cmdbuf.w2 s.cmdbuf.w4 = 0#32 then Ph.complete else Ph.csAssert) (hp : t.ph = p)
    (hl : longest t = maxLen s.cmdbuf.w2 s.cmdbuf.w4) :
    (inPhases 12 12 t ∧ longest t = 0#32) ∨ (inPhases 5 5 t ∧ 0 < (longest t).toNat) := by
  rw [inPhases, inPhases, hp, hn, hl]
  split
  · simp_all
  · simp_all [← BitVec.toNat_inj]
    omega

/-- The phases keep R39: each takes the block from the rest or the part of a transaction it stands in to the next. -/
theorem PhaseCase.rule39 {s t : State} (h : Rule39 s) (hc : PhaseCase s t) : Rule39 t := by
  cases hc with
  | idle hp ht | acceptInit _ hp _ _ ht | initClock hp ht | initPins hp ht | routeDisable hp ht | routeLoc0 hp ht
  | routeLoc1 hp ht | routeEnable hp ht =>
    subst ht
    exact ((h.atRest (by simp [inPhases, hp])).keep {} (by simp [inPhases])).rule39
  | acceptWaiter w o hp hi hl hw ht =>
    subst ht
    have hs := h.atRest (by simp [inPhases, hp])
    exact Holding.rule39
      { phase := by simp [inPhases], held := rfl, ready := hi, high := hs.high, line := by simp [inPhases]
        index := by simp [inPhases], below := by simp [inPhases] }
  | validated e hp hv ht =>
    subst ht
    exact ((h.holding (by simp [inPhases, hp])).keep {} (by simp [inPhases]) (validate_ok hv).1).rule39
  | cfgCtrl _ _ hp _ ht | cfgFrame hp ht =>
    subst ht
    have hs := h.holding (by simp [inPhases, hp])
    exact (hs.keep {} (by simp [inPhases]) (hs.line (by simp [inPhases, hp]))).rule39
  | rejected _ hp _ ht | badCount hp _ ht | complete hp ht =>
    subst ht
    have hs := h.holding (by simp [inPhases, hp])
    exact AtRest.rule39 ⟨by simp [inPhases], rfl, hs.high⟩
  | initContext hp ht =>
    subst ht
    have hs := h.atRest (by simp [inPhases, hp])
    exact AtRest.rule39 ⟨by simp [inPhases], rfl, hs.high⟩
  | setup p hp hc hn ht =>
    have hs := h.holding (by simp [inPhases, hp])
    have hph := setup_phase hn (t := t) (by rw [ht]) (by rw [ht]; rfl)
    have hidx : t.idx.toNat = 0 := by rw [ht]; rfl
    exact Holding.rule39
      { phase := by omega, held := by rw [ht]; exact hs.held, ready := by rw [ht]; exact hs.ready
        high := by rw [ht]; exact hs.high
        line := fun _ => by rw [ht]; exact hs.line (by simp [inPhases, hp])
        index := by omega, below := by omega }
  | csAssert hp ht =>
    subst ht
    have hs := h.holding (by simp [inPhases, hp])
    have hlt := hs.below (by simp [inPhases, hp])
    exact Selecting.rule39
      { phase := by simp [inPhases], held := hs.held, ready := hs.ready, line := hs.line (by simp [inPhases, hp])
        low := rfl, index := Nat.le_of_lt hlt, below := fun _ => hlt }
  | txFetch _ _ hp _ _ _ ht | txPad hp _ ht | txWrite hp _ ht | polled hp _ ht | hung hp _ _ ht | pollAgain hp _ _ ht
  | rxRead _ _ _ hp _ _ ht =>
    subst ht
    exact ((h.selecting (by simp [inPhases, hp])).keep {} (by simp [inPhases, hp]) (by simp [inPhases])).rule39
  | rxStore hp _ _ ht =>
    subst ht
    have hs := h.selecting (by simp [inPhases, hp])
    have hp' := (by simp [inPhases, hp] : inPhases 6 10 s)
    exact Selecting.rule39 (Selecting.nextFrame (hs.keep {} hp' hs.phase) hp')
  | rxSkip hp _ ht =>
    subst ht
    exact ((h.selecting (by simp [inPhases, hp])).nextFrame (by simp [inPhases, hp])).rule39
  | csDeassert hp ht =>
    subst ht
    have hs := h.selecting (by simp [inPhases, hp])
    exact Holding.rule39
      { phase := by simp [inPhases], held := hs.held, ready := hs.ready, high := rfl, line := fun _ => hs.line
        index := fun _ => hs.index, below := by simp [inPhases] }

/-- Settles O41: a phase takes the block along R39's parts, a reset puts it at rest, and no other agent writes what R39
speaks of. -/
theorem everyStepKeepsRule39 : Obligations.EveryStepKeepsRule39 := by
  intro s t h hst
  have hs := h.of_kept (afterMove_kept s)
  obtain ⟨-, hc⟩ := step_cases hst
  obtain ⟨-, hp⟩ | ⟨-, rfl⟩ | ⟨-, hk⟩ := hc.phase_or_kept
  · exact hp.rule39 hs
  · exact (rule39HoldsAtReset _).of_kept (resetEvent_kept _)
  · exact hs.of_kept hk

end Sys2Proof.Machine

/-! ### The transfer: what every step keeps of it (R75, R332) -/

namespace Sys2Proof.Machine

/-- The part of the transfer invariant that every phase asks for: what is held or latched does not wrap (R75). -/
structure TransfersFit (s : State) : Prop where
  waiters : ∀ w ∈ s.waiters, transferFits w.packet.w1 w.packet.w2 w.packet.w3 w.packet.w4 = true
  offered : ∀ w ∈ s.offered, transferFits w.packet.w1 w.packet.w2 w.packet.w3 w.packet.w4 = true
  context : transferFits s.ctx.txPtr s.ctx.txLen s.ctx.rxPtr s.ctx.rxLen = true

theorem TransferInv.fit {s : State} (h : TransferInv s) : TransfersFit s := ⟨h.waitersFit, h.offeredFit, h.contextFits⟩

theorem ph_ne_pollTxc {s : State} (h : ¬ inPhases 8 8 s) : s.ph ≠ Ph.pollTxc :=
  fun he => h (by simp [inPhases, he])

/-- Outside a transaction nothing more is asked for. -/
theorem TransfersFit.outside {s : State} (h : TransfersFit s) (hp : inPhases 0 0 s ∨ inPhases 13 19 s) : TransferInv s where
  waitersFit := h.waiters
  offeredFit := h.offered
  contextFits := h.context
  latchFits := by omega
  running := by omega
  ended := by omega
  noTruncation := by omega
  hung := by omega
  polls := fun he => absurd he (ph_ne_pollTxc (by omega))

/-- Up to SETUP the latched packet fits. -/
theorem TransfersFit.preparing {s : State} (h : TransfersFit s) (hp : inPhases 1 4 s)
    (hl : transferFits s.cmdbuf.w1 s.cmdbuf.w2 s.cmdbuf.w3 s.cmdbuf.w4 = true) : TransferInv s where
  waitersFit := h.waiters
  offeredFit := h.offered
  contextFits := h.context
  latchFits := fun _ => hl
  running := by omega
  ended := by omega
  noTruncation := by omega
  hung := by omega
  polls := fun he => absurd he (ph_ne_pollTxc (by omega))

/-- While frames are clocked XSTAT is 0x00 (R33). -/
theorem TransfersFit.clocking {s : State} (h : TransfersFit s) (hp : inPhases 5 10 s) (hx : s.xstat = 0x00#8)
    (hn : s.ph = Ph.pollTxc → ∀ n, s.cfg.pollLimit = some n → s.pollcnt < n) : TransferInv s where
  waitersFit := h.waiters
  offeredFit := h.offered
  contextFits := h.context
  latchFits := by omega
  running := fun _ => hx
  ended := by omega
  noTruncation := by omega
  hung := by omega
  polls := hn

/-- A transfer at its end: all frames clocked, or a hang below that (R218, R332). -/
def Outcome (s : State) : Prop :=
  (s.xstat = 0x00#8 ∧ s.idx = longest s) ∨
  (s.xstat = 0x0C#8 ∧ s.idx.toNat < (longest s).toNat ∧ s.faultHang = true)

theorem TransfersFit.ending {s : State} (h : TransfersFit s) (hp : inPhases 11 12 s) (ho : Outcome s) : TransferInv s where
  waitersFit := h.waiters
  offeredFit := h.offered
  contextFits := h.context
  latchFits := by omega
  running := by omega
  ended := fun _ => ho.imp And.left And.left
  noTruncation := fun _ hx => by
    obtain ⟨-, hi⟩ | ⟨hx', -⟩ := ho
    · exact hi
    · rw [hx] at hx'; contradiction
  hung := fun _ hx => by
    obtain ⟨hx', -⟩ | ⟨-, hi⟩ := ho
    · rw [hx] at hx'; contradiction
    · exact hi
  polls := fun he => absurd he (ph_ne_pollTxc (by omega))

theorem TransferInv.outcome {s : State} (h : TransferInv s) (hp : inPhases 11 12 s) : Outcome s :=
  (h.ended hp).imp (fun hx => ⟨hx, h.noTruncation hp hx⟩) (fun hx => ⟨hx, h.hung hp hx⟩)

/-- Whom an IDLE step accepts has a transfer that does not wrap (R75). -/
theorem TransfersFit.candidate {s : State} (h : TransfersFit s) {w : Pending} (hw : w ∈ candidates s) :
    transferFits w.packet.w1 w.packet.w2 w.packet.w3 w.packet.w4 = true := by
  obtain ⟨-, hw⟩ | ⟨-, hw | ⟨-, hu⟩⟩ := mem_candidates hw
  · exact h.waiters w hw
  · exact h.offered w hw
  · exact (Bool.and_eq_true_iff.mp hu).2

theorem TransfersFit.acquire {s : State} (h : TransfersFit s) (w : Pending) (o : Oracle) :
    TransfersFit (acquire w { s with oracle := o }) := by
  refine ⟨fun x hx => h.waiters x (mem_erasePending hx), fun x hx => h.offered x ?_, h.context⟩
  rw [acquire_offered] at hx
  split at hx
  · exact mem_erasePending hx
  · exact hx

/-- The phases keep what is held and latched from wrapping: an IDLE step takes a waiter away, SETUP latches a packet that
fits, INIT_CONTEXT clears the context (R75, R195, R283). -/
theorem PhaseCase.transfersFit {s t : State} (h : TransferInv s) (hc : PhaseCase s t) : TransfersFit t := by
  cases hc with
  | acceptWaiter w o _ _ _ _ ht => exact ht ▸ h.fit.acquire w o
  | setup p hp _ _ ht => exact ht ▸ ⟨h.waitersFit, h.offeredFit, h.latchFits (by simp [inPhases, hp])⟩
  | initContext _ ht => exact ht ▸ ⟨h.waitersFit, h.offeredFit, rfl⟩
  | _ =>
    subst t
    exact ⟨by simpa using h.waitersFit, by simpa using h.offeredFit, by simpa using h.contextFits⟩

/-- The end of a frame: the last one leaves a finished transfer, any other goes on (R216). -/
theorem TransferInv.nextFrame {s : State} (h : TransfersFit s) (hx : s.xstat = 0x00#8)
    (hlt : s.idx.toNat < (longest s).toNat) : TransferInv (nextFrame s) := by
  have hf : TransfersFit (Machine.nextFrame s) := ⟨h.waiters, h.offered, h.context⟩
  obtain ⟨hp, -⟩ | ⟨hp, hl⟩ := nextFrame_phase s
  · exact hf.clocking (by omega) hx (fun he => absurd he (ph_ne_pollTxc (by omega)))
  · refine hf.ending (by omega) (.inl ⟨hx, BitVec.eq_of_toNat_eq ?_⟩)
    rw [toNat_nextFrame_idx hlt, longest_nextFrame]
    omega

theorem pollCountNext_lt {c : Config} {k n : Nat} (h : pollLimitReached c k = false) (hn : c.pollLimit = some n) :
    pollCountNext c k < n := by
  simp_all [pollLimitReached, pollCountNext]

/-- A phase that goes on clocking, with no change but PH, the transmit and receive bytes and what is the world's. -/
theorem TransferInv.clocking {s t : State} (h : TransferInv s) (hf : TransfersFit t) (hs : inPhases 5 10 s)
    (ht : inPhases 5 10 t) (hx : t.xstat = s.xstat) (hp : ¬ inPhases 8 8 t) : TransferInv t :=
  hf.clocking ht (hx ▸ h.running hs) (fun he => absurd he (ph_ne_pollTxc hp))

/-- The phases keep the transfer invariant. -/
theorem PhaseCase.transferInv {s t : State} (hw : s.cfg.wf = true) (hr : Rule39 s) (h : TransferInv s)
    (hc : PhaseCase s t) : TransferInv t := by
  have hf := hc.transfersFit h
  cases hc with
  | idle _ ht | acceptInit _ _ _ _ ht | rejected _ _ _ ht | badCount _ _ ht | complete _ ht | initClock _ ht
  | initPins _ ht | routeDisable _ ht | routeLoc0 _ ht | routeLoc1 _ ht | routeEnable _ ht | initContext _ ht =>
    exact hf.outside (by simp [inPhases, ht])
  | acceptWaiter w o hp hi hl hw ht =>
    exact hf.preparing (by simp [inPhases, ht]) (by simpa [ht] using h.fit.candidate hw)
  | validated _ hp _ ht | cfgCtrl _ _ hp _ ht | cfgFrame hp ht =>
    exact hf.preparing (by simp [inPhases, ht]) (by simpa [ht] using h.latchFits (by simp [inPhases, hp]))
  | setup p hp hc hn ht =>
    have hxstat : t.xstat = 0x00#8 := by rw [ht]
    have hidx : t.idx = 0#32 := by rw [ht]
    obtain ⟨hp, hl⟩ | ⟨hp, -⟩ := setup_phase hn (t := t) (by rw [ht]) (by rw [ht]; rfl)
    · exact hf.ending (by omega) (.inl ⟨hxstat, hidx.trans hl.symm⟩)
    · exact hf.clocking (by omega) hxstat (fun he => absurd he (ph_ne_pollTxc (by omega)))
  | csAssert hp ht | txFetch _ _ hp _ _ _ ht | txPad hp _ ht | polled hp _ ht | rxRead _ _ _ hp _ _ ht =>
    exact h.clocking hf (by simp [inPhases, hp]) (by simp [inPhases, ht]) (by simp [ht]) (by simp [inPhases, ht])
  | txWrite hp _ ht =>
    refine hf.clocking (by simp [inPhases, ht]) (by simpa [ht] using h.running (by simp [inPhases, hp])) fun _ n hn => ?_
    have hpos := (Config.wf_parts hw).2.1
    have hn' : s.cfg.pollLimit = some n := by simpa [ht] using hn
    have hcnt : t.pollcnt = 0 := by rw [ht]
    rcases Nat.eq_zero_or_pos n with rfl | h0
    · exact absurd hn' hpos
    · omega
  | pollAgain hp _ hl ht =>
    refine hf.clocking (by simp [inPhases, ht]) (by simpa [ht] using h.running (by simp [inPhases, hp])) fun _ n hn => ?_
    have hcnt : t.pollcnt = pollCountNext s.cfg s.pollcnt := by rw [ht]; rfl
    exact hcnt ▸ pollCountNext_lt hl (by simpa [ht] using hn)
  | hung hp _ _ ht =>
    have hlt := hr.indexBelow (by simp [inPhases, hp])
    exact hf.ending (by simp [inPhases, ht]) (.inr ⟨by rw [ht]; rfl, by simpa [ht, longest] using hlt, by rw [ht]; rfl⟩)
  | rxStore hp _ _ ht =>
    have hs : inPhases 6 10 s := by simp [inPhases, hp]
    exact ht ▸ TransferInv.nextFrame ⟨h.waitersFit, h.offeredFit, h.contextFits⟩ (h.running (by omega)) (hr.indexBelow hs)
  | rxSkip hp _ ht =>
    have hs : inPhases 6 10 s := by simp [inPhases, hp]
    exact ht ▸ TransferInv.nextFrame h.fit (h.running (by omega)) (hr.indexBelow hs)
  | csDeassert hp ht =>
    exact hf.ending (by simp [inPhases, ht]) (by rw [ht]; exact h.outcome (by simp [inPhases, hp]))

/-- Another agent's step keeps the transfer invariant if the packets that wait fit. -/
theorem TransferInv.of_kept {s t : State} (h : TransferInv s) (hk : SequencerStateKept s t)
    (hw : ∀ w ∈ t.waiters, w ∈ s.waiters ∨ transferFits w.packet.w1 w.packet.w2 w.packet.w3 w.packet.w4 = true)
    (ho : ∀ w ∈ t.offered, w ∈ s.offered ∨ transferFits w.packet.w1 w.packet.w2 w.packet.w3 w.packet.w4 = true) :
    TransferInv t := by
  have hw' := fun w hm => (hw w hm).elim (h.waitersFit w) id
  have ho' := fun w hm => (ho w hm).elim (h.offeredFit w) id
  rw [hk]
  exact ⟨hw', ho', h.latchFits, h.contextFits, h.running, h.ended, h.noTruncation, h.hung, h.polls⟩

end Sys2Proof.Machine

/-! ### The controller: what every step keeps of the contract (R219, R257, R258, R355) -/

namespace Sys2Proof.Machine

/-- The contract is not restored in the middle of a transaction, the controller stays as configured, and the frame in
its shifter stays or has ended (R252). -/
structure ContractKept (s t : State) : Prop where
  inForce : ctlVoid t = false → ctlVoid s = false := by simp [ctlVoid]
  autocs : ctlAutocs t = ctlAutocs s := by simp [ctlAutocs]
  mode : modeHolds t = modeHolds s := by simp [modeHolds]
  frame : frameCovered t = frameCovered s := by simp [frameCovered]
  shifter : (t.ctl.inflight = s.ctl.inflight ∧ t.ctl.txc = s.ctl.txc) ∨ (t.ctl.inflight = false ∧ t.ctl.txc = true) := by
    simp

/-- Outside a transaction only the latched encoding is spoken of. -/
theorem ControllerInv.outside {s : State} (he : s.enc.autocs = false) (hp : ¬ inPhases 1 12 s) : ControllerInv s where
  quiet := by omega
  polled := fun _ he => absurd he (ph_ne_pollTxc (by omega))
  autocsOff := by omega
  modeKept := by omega
  encoded := he
  encodedFrame := by omega
  framed := by omega

/-- Where the contract is void only the latched encoding is spoken of. -/
theorem ControllerInv.of_void {t : State} (hv : ctlVoid t = true) (ha : t.enc.autocs = false)
    (hf : inPhases 2 3 t → t.enc.frame = t.cfg.lay.frameValue) : ControllerInv t where
  quiet := by simp [hv]
  polled := by simp [hv]
  autocsOff := by simp [hv]
  modeKept := by simp [hv]
  encoded := ha
  encodedFrame := hf
  framed := by simp [hv]

/-- Up to SETUP no frame is in flight; CTRL and then FRAME are configured (R154, R155). -/
theorem ControllerInv.preparing {s : State} (hp : inPhases 1 4 s) (hq : ctlVoid s = false → s.ctl.inflight = false)
    (he : s.enc.autocs = false) (hef : inPhases 2 3 s → s.enc.frame = s.cfg.lay.frameValue)
    (hc : ctlVoid s = false → inPhases 3 4 s → ctlAutocs s = false ∧ modeHolds s = true)
    (hf : ctlVoid s = false → inPhases 4 4 s → frameCovered s = true) : ControllerInv s where
  quiet := fun hv _ _ => hq hv
  polled := fun _ he => absurd he (ph_ne_pollTxc (by omega))
  autocsOff := fun hv _ => (hc hv (by omega)).1
  modeKept := fun hv _ => (hc hv (by omega)).2
  encoded := he
  encodedFrame := hef
  framed := fun hv _ => hf hv (by omega)

/-- From CS_ASSERT on the controller is configured, and a frame is in flight only in POLL_TXC (R219). -/
theorem ControllerInv.clocking {s : State} (hp : inPhases 5 12 s)
    (hq : ctlVoid s = false → s.ph ≠ Ph.pollTxc → s.ctl.inflight = false)
    (hi : ctlVoid s = false → s.ph = Ph.pollTxc → (s.ctl.inflight = true ↔ s.ctl.txc = false))
    (he : s.enc.autocs = false)
    (hc : ctlVoid s = false → inPhases 5 11 s → ctlAutocs s = false ∧ modeHolds s = true ∧ frameCovered s = true) :
    ControllerInv s where
  quiet := fun hv _ => hq hv
  polled := hi
  autocsOff := fun hv _ => (hc hv (by omega)).1
  modeKept := fun hv _ => (hc hv (by omega)).2.1
  encoded := he
  encodedFrame := by omega
  framed := fun hv _ => (hc hv (by omega)).2.2

theorem ControllerInv.noFrame {s : State} (h : ControllerInv s) (hv : ctlVoid s = false)
    (hp : inPhases 1 12 s ∧ ¬ inPhases 8 8 s) : s.ctl.inflight = false :=
  h.quiet hv hp.1 (ph_ne_pollTxc hp.2)

theorem ControllerInv.configured {s : State} (h : ControllerInv s) (hv : ctlVoid s = false) (hp : inPhases 4 11 s) :
    ctlAutocs s = false ∧ modeHolds s = true ∧ frameCovered s = true :=
  ⟨h.autocsOff hv (by omega), h.modeKept hv (by omega), h.framed hv hp⟩

/-- A step within the configured part of a transaction, not into or out of the poll, keeps the controller's invariant. -/
theorem ControllerInv.keep {s t : State} (h : ControllerInv s) (hk : ContractKept s t) (he : t.enc = s.enc)
    (hs : inPhases 4 11 s ∧ ¬ inPhases 8 8 s) (ht : inPhases 5 12 t ∧ ¬ inPhases 8 8 t) : ControllerInv t := by
  refine .clocking ht.1 (fun hv _ => ?_) (fun _ he => absurd he (ph_ne_pollTxc ht.2)) (he ▸ h.encoded) (fun hv _ => ?_)
  · obtain ⟨hi, -⟩ | ⟨hi, -⟩ := hk.shifter
    · exact hi.trans (h.noFrame (hk.inForce hv) (by omega))
    · exact hi
  · rw [hk.autocs, hk.mode, hk.frame]
    exact h.configured (hk.inForce hv) hs.1

/-- A step that leaves PH as it is keeps it. -/
theorem ControllerInv.keep_phase {s t : State} (h : ControllerInv s) (hk : ContractKept s t) (hp : t.ph = s.ph)
    (he : t.enc = s.enc) (hc : t.cfg = s.cfg) : ControllerInv t := by
  have hph : ∀ {lo hi}, inPhases lo hi t → inPhases lo hi s := by simp [inPhases, hp]
  exact {
    quiet := fun hv ht hne => by
      obtain ⟨hi, -⟩ | ⟨hi, -⟩ := hk.shifter
      · exact hi.trans (h.quiet (hk.inForce hv) (hph ht) (hp ▸ hne))
      · exact hi
    polled := fun hv ht => by
      obtain ⟨hi, hx⟩ | ⟨hi, hx⟩ := hk.shifter
      · rw [hi, hx]; exact h.polled (hk.inForce hv) (hp ▸ ht)
      · simp [hi, hx]
    autocsOff := fun hv ht => hk.autocs.trans (h.autocsOff (hk.inForce hv) (hph ht))
    modeKept := fun hv ht => hk.mode.trans (h.modeKept (hk.inForce hv) (hph ht))
    encoded := he ▸ h.encoded
    encodedFrame := fun ht => by rw [he, hc]; exact h.encodedFrame (hph ht)
    framed := fun hv ht => hk.frame.trans (h.framed (hk.inForce hv) (hph ht)) }

/-- The step of an agent that has nothing to do with the controller. -/
theorem ControllerInv.of_same_ctl {s t : State} (h : ControllerInv s) (hk : SequencerStateKept s t)
    (hc : t.ctl = s.ctl) : ControllerInv t := by
  rw [hk, hc]
  exact ⟨h.quiet, h.polled, h.autocsOff, h.modeKept, h.encoded, h.encodedFrame, h.framed⟩

/-- An agent that holds the contract void during a transaction keeps the invariant (R366). -/
theorem ControllerInv.of_void_when_held {s t : State} (h : ControllerInv s) (hr : Rule39 s) (hk : SequencerStateKept s t)
    (hv : s.ctx.lock = true → ctlVoid t = true) : ControllerInv t := by
  have he : t.enc = s.enc := by rw [hk]
  have hc : t.cfg = s.cfg := by rw [hk]
  have hp : t.ph = s.ph := by rw [hk]
  have hph : ∀ {lo hi}, inPhases lo hi t → inPhases lo hi s := by simp [inPhases, hp]
  by_cases hin : inPhases 1 12 t
  · exact .of_void (hv (hr.guard.mpr (hph hin))) (he ▸ h.encoded) (fun ht => by rw [he, hc]; exact h.encodedFrame (hph ht))
  · exact .outside (he ▸ h.encoded) hin

/-- The controller's own step: a stray frame in a transaction voids the contract, a covered one ends (R252, R265). -/
theorem completeFrame_cases (s : State) :
    (s.ctx.lock = true → (completeFrame s).ctl.txnVoid = true) ∨ (completeFrame s).ctl = s.ctl ∨
    ∃ r, (completeFrame s).ctl =
      { s.ctl with rxh := r, srIn := r, rxready := true, txc := true, txidle := true, inflight := false } := by
  unfold completeFrame
  split
  · exact .inl fun hl => by simp [strayFrame, hl]
  · split
    · exact .inr (.inl rfl)
    · refine .inr (.inr ?_)
      split
      · exact ⟨_, rfl⟩
      · exact ⟨(drawByte s).1, by simp⟩

theorem ControllerInv.completeFrame {s : State} (h : ControllerInv s) (hr : Rule39 s) :
    ControllerInv (completeFrame s) := by
  have hk := completeFrame_kept s
  obtain hv | hc | ⟨r, hc⟩ := completeFrame_cases s
  · exact h.of_void_when_held hr hk fun hl => by simp [ctlVoid, hv hl]
  · exact h.of_same_ctl hk hc
  · rw [hk]
    refine h.keep_phase ?_ rfl rfl rfl
    exact { inForce := by simp [ctlVoid, hc], autocs := by simp [ctlAutocs, hc], mode := by simp [modeHolds, hc]
            frame := by simp [frameCovered, hc], shifter := by simp [hc] }

theorem ControllerInv.platformWrite {s : State} (h : ControllerInv s) (hr : Rule39 s) (r : Reg) (v : Word) :
    ControllerInv (platformWrite r v s) :=
  h.of_void_when_held hr rfl fun hl => by simp [ctlVoid, Machine.platformWrite, platformWriteKeeps, hl]

theorem ControllerInv.platformRestore {s : State} (h : ControllerInv s) (hr : Rule39 s) (v : Word) :
    ControllerInv (platformRestore v s) :=
  h.of_void_when_held hr rfl fun hl => by simp [ctlVoid, Machine.platformRestore, hl]

theorem ControllerInv.platformRead {s : State} (h : ControllerInv s) (r : Reg) : ControllerInv (platformRead r s) := by
  obtain ⟨y, o, ht⟩ := platformRead_state r s
  rw [ht]
  exact h.keep_phase { inForce := by simp [ctlVoid]; tauto } rfl rfl rfl

/-- Past CFG_FRAME the contract is in force unless it is void. -/
theorem ControllerInv.contract {s : State} (h : ControllerInv s) (hr : Rule39 s) (hp : inPhases 4 11 s)
    (hv : ctlVoid s = false) : contractHolds s = true := by
  simp [contractHolds, hv, hr.ready (by omega), h.configured hv hp]

/-- An acceptance that leaves the contract in force has found no frame in flight (R355, R366). -/
theorem inflight_of_voidAtAcceptance {p : Packet} {s : State} (h : voidAtAcceptance p s = false) : s.ctl.inflight = false := by
  simp only [voidAtAcceptance, readyToAccept, readyForFirst, idleAndEmpty, Bool.or_eq_false_iff] at h
  obtain ⟨⟨-, h⟩, -⟩ := h
  split at h <;> simp_all

/-- CFG_CTRL leaves auto-chip-select off (R122, R154, R257). -/
theorem ctrlUpdate_autocs {l : RegLayout} (h : l.wf = true) (old : Word) (e : Enc) :
    (ctrlUpdate l old e).getLsbD l.autocsBit = e.autocs := by
  rw [ctrlUpdate_getLsbD h, if_neg (RegLayout.wf_bits h).1.symm, if_pos rfl]

/-- The acceptance tests the contract, and finds no frame in flight where it holds (R355, R366). -/
theorem ControllerInv.acquire {s : State} (h : ControllerInv s) (w : Pending) (o : Oracle) :
    ControllerInv (acquire w { s with oracle := o }) := by
  refine .preparing (by simp [inPhases]) (fun hv => ?_) h.encoded (by simp [inPhases]) (by simp [inPhases])
    (by simp [inPhases])
  simp only [ctlVoid, acquire_ctl, Bool.or_eq_false_iff] at hv
  exact inflight_of_voidAtAcceptance (p := w.packet) (s := s) hv.1.2

/-- CFG_CTRL turns auto-chip-select off, and voids the contract where R355 (b) fails then (R154, R257). -/
theorem ControllerInv.cfgCtrl {s : State} (h : ControllerInv s) (hw : s.cfg.wf = true) (hp : s.ph = Ph.cfgCtrl)
    (old : Word) (o : Oracle) (es : List Event) :
    ControllerInv (voidUnlessMode { s with
      ctl := { s.ctl with ctrl := ctrlUpdate s.cfg.lay old s.enc }, ph := Ph.cfgFrame, oracle := o, history := es }) := by
  have hvoid : ∀ u : State, ctlVoid (voidUnlessMode u) = false → ctlVoid u = false ∧ modeHolds u = true := by
    intro u
    simp only [ctlVoid, voidUnlessMode_ctl, voidUnlessMode_faultHang, Bool.or_eq_false_iff, Bool.not_eq_false']
    exact fun ⟨⟨hi, ht, hm⟩, hf⟩ => ⟨⟨⟨hi, ht⟩, hf⟩, hm⟩
  have hautocs := (ctrlUpdate_autocs (Config.wf_parts hw).2.2.2 old s.enc).trans h.encoded
  exact .preparing (by simp [inPhases]) (fun hv => h.noFrame (hvoid _ hv).1 (by simp [inPhases, hp])) h.encoded
    (fun _ => h.encodedFrame (by simp [inPhases, hp])) (fun hv _ => ⟨hautocs, (hvoid _ hv).2⟩) (by simp [inPhases])

/-- The poll that finds TXC set where the contract holds finds the frame ended (R214, R252). -/
theorem inflight_of_polled {s : State} (h : ControllerInv s) (hw : s.cfg.wf = true) (hr : Rule39 s)
    (hp : s.ph = Ph.pollTxc) (htxc : (readStatus s).1.txc = true) (hv : ctlVoid s = false) : s.ctl.inflight = false := by
  have hread := ((readStatus_bits s hw).2.2 (h.contract hr (by simp [inPhases, hp]) hv)).1
  simpa [← hread, htxc] using h.polled hv hp

/-- The phases keep the controller's invariant. -/
theorem PhaseCase.controllerInv {s t : State} (hw : s.cfg.wf = true) (hr : Rule39 s) (h : ControllerInv s)
    (hc : PhaseCase s t) : ControllerInv t := by
  cases hc with
  | idle _ ht | acceptInit _ _ _ _ ht | rejected _ _ _ ht | badCount _ _ ht | complete _ ht | initClock _ ht
  | initPins _ ht | routeDisable _ ht | routeLoc0 _ ht | routeLoc1 _ ht | routeEnable _ ht | initContext _ ht =>
    exact .outside (by simpa [ht] using h.encoded) (by simp [inPhases, ht])
  | acceptWaiter w o _ _ _ _ ht => exact ht ▸ h.acquire w o
  | validated e hp hv ht =>
    obtain ⟨-, rfl⟩ := validate_ok hv
    subst ht
    exact .preparing (by simp [inPhases]) (fun hv => h.noFrame hv (by simp [inPhases, hp])) rfl (fun _ => rfl)
      (by simp [inPhases]) (by simp [inPhases])
  | cfgCtrl old o hp _ ht => exact ht ▸ h.cfgCtrl hw hp old o _
  | cfgFrame hp ht =>
    subst ht
    exact .preparing (by simp [inPhases]) (fun hv => h.noFrame hv (by simp [inPhases, hp])) h.encoded
      (by simp [inPhases])
      (fun hv _ => ⟨h.autocsOff hv (by simp [inPhases, hp]), h.modeKept hv (by simp [inPhases, hp])⟩)
      (fun _ _ => by simp [frameCovered, h.encodedFrame (by simp [inPhases, hp])])
  | setup p hp hc hn ht =>
    have hph := setup_phase hn (t := t) (by rw [ht]) (by rw [ht]; rfl)
    subst ht
    exact h.keep {} rfl (by simp [inPhases, hp]) (by omega)
  | csAssert hp ht | txFetch _ _ hp _ _ _ ht | txPad hp _ ht | rxRead _ _ _ hp _ _ ht | csDeassert hp ht =>
    subst ht
    exact h.keep {} rfl (by simp [inPhases, hp]) (by simp [inPhases])
  | rxStore hp _ _ ht | rxSkip hp _ ht =>
    have hph : inPhases 6 6 t ∨ inPhases 11 11 t := by
      rw [ht]
      exact (nextFrame_phase _).imp And.left And.left
    subst ht
    exact h.keep {} rfl (by simp [inPhases, hp]) (by omega)
  | txWrite hp _ ht =>
    subst ht
    exact .clocking (by simp [inPhases]) (fun _ hne => absurd rfl hne) (fun _ _ => by simp [ctlWrite]) h.encoded
      (fun hv _ => h.configured hv (by simp [inPhases, hp]))
  | polled hp htxc ht =>
    have hph : inPhases 9 9 t := by simp [inPhases, ht]
    have hvoid : ctlVoid t = ctlVoid s := by simp [ht, ctlVoid]
    refine .clocking (by omega) (fun hv _ => ?_) (fun _ he => absurd he (ph_ne_pollTxc (by omega)))
      (by simpa [ht] using h.encoded) (fun hv _ => ?_)
    · simpa [ht] using inflight_of_polled h hw hr hp htxc (hvoid ▸ hv)
    · simpa [ht, ctlAutocs, modeHolds, frameCovered] using h.configured (hvoid ▸ hv) (by simp [inPhases, hp])
  | pollAgain hp _ hl ht =>
    subst ht
    exact h.keep_phase {} (by simp [hp]) (by simp) (by simp)
  | hung hp _ _ ht =>
    subst ht
    exact .of_void rfl (by simp [h.encoded]) (by simp [inPhases])

end Sys2Proof.Machine

/-! ### The safe states: reset, every step, and the Sequencer's next step (R39, R75, R219, R332) -/

namespace Sys2Proof.Machine

theorem transferInv_reset (cfg : Config) : TransferInv (State.resetWith cfg) :=
  TransfersFit.outside ⟨by simp [State.resetWith], by simp [State.resetWith], rfl⟩ (.inl ⟨Nat.le_refl _, Nat.le_refl _⟩)

/-- Settles O42: at reset PH is IDLE, no packet is held, the buffers are empty and so is the list that stands for
memory. -/
theorem resetIsSafe : Obligations.ResetIsSafe := fun cfg =>
  { rule39 := rule39HoldsAtReset cfg
    transfer := transferInv_reset cfg
    controller := .outside rfl (by simp [inPhases, State.resetWith])
    memory := rfl
    nobodyWaits := fun _ => rfl }

/-- The phases keep the canonical form: RX_STORE writes inside the address space (R71, R216). -/
theorem PhaseCase.memory_wf {s t : State} (hm : s.mem.wf = true) (hc : PhaseCase s t) : t.mem.wf = true := by
  cases hc with
  | rxStore _ _ ha ht => exact ht ▸ Memory.write_wf ha hm
  | _ => subst t; simpa using hm

/-- The phases only take callers out of WAITERS (R191). -/
theorem PhaseCase.waiters_eq_nil {s t : State} (hw : s.waiters = []) (hc : PhaseCase s t) : t.waiters = [] := by
  cases hc with
  | acceptWaiter w o _ _ _ _ ht => rw [ht, acquire_waiters, hw]; rfl
  | _ => subst t; simpa using hw

theorem PhaseCase.safe {s t : State} (hw : s.cfg.wf = true) (h : Safe s) (hc : PhaseCase s t) : Safe t where
  rule39 := hc.rule39 h.rule39
  transfer := hc.transferInv hw h.rule39 h.transfer
  controller := hc.controllerInv hw h.rule39 h.controller
  memory := hc.memory_wf h.memory
  nobodyWaits := fun hn => hc.waiters_eq_nil (h.nobodyWaits (hc.cfg_eq ▸ hn))

/-- A submission adds a packet that fits to WAITERS or, with NONBLOCKING = 1, to its place, or to neither (R38, R75). -/
theorem Submitted.sets {c : Nat} {p : Packet} {s t : State} (h : Submitted c p s t) :
    t.ctl = s.ctl ∧ t.mem = s.mem ∧
    (∀ w ∈ t.waiters, w ∈ s.waiters ∨ transferFits w.packet.w1 w.packet.w2 w.packet.w3 w.packet.w4 = true) ∧
    (∀ w ∈ t.offered, w ∈ s.offered ∨ transferFits w.packet.w1 w.packet.w2 w.packet.w3 w.packet.w4 = true) ∧
    (s.cfg.nonblocking = true → t.waiters = s.waiters) := by
  cases h with
  | nobody ht | held ht | init _ ht => subst ht; exact ⟨rfl, rfl, fun _ => .inl, fun _ => .inl, fun _ => rfl⟩
  | waits _ hf hn ht =>
    subst ht
    refine ⟨rfl, rfl, fun w hw => ?_, fun _ => .inl, fun hn' => by simp [hn] at hn'⟩
    obtain rfl | hw := mem_insertPending hw
    · exact .inr hf
    · exact .inl hw
  | offered _ hf _ ht =>
    subst ht
    refine ⟨rfl, rfl, fun _ => .inl, fun w hw => ?_, fun _ => rfl⟩
    obtain rfl | hw := mem_insertPending hw
    · exact .inr hf
    · exact .inl hw

/-- An agent that adds no packet to those that wait keeps a safe state safe, if it keeps the controller's invariant and
the canonical form of memory. -/
theorem Safe.of_kept {s t : State} (h : Safe s) (hk : SequencerStateKept s t) (hw : t.waiters = s.waiters)
    (ho : t.offered = s.offered) (hc : ControllerInv t) (hm : t.mem.wf = true) : Safe t where
  rule39 := h.rule39.of_kept hk
  transfer := h.transfer.of_kept hk (fun w hx => .inl (hw ▸ hx)) (fun w hx => .inl (ho ▸ hx))
  controller := hc
  memory := hm
  nobodyWaits := by rw [hw, hk]; exact h.nobodyWaits

theorem Safe.afterMove {s : State} (h : Safe s) : Safe (afterMove s) :=
  h.of_kept (afterMove_kept s) (by simp) (by simp) (h.controller.of_same_ctl (afterMove_kept s) (by simp))
    (by simpa using h.memory)

theorem Submitted.safe {c : Nat} {p : Packet} {s t : State} (h : Safe s) (hs : Submitted c p s t) : Safe t := by
  obtain ⟨hctl, hmem, hw, ho, hn⟩ := hs.sets
  have hcfg : t.cfg = s.cfg := by rw [hs.kept]
  exact {
    rule39 := h.rule39.of_kept hs.kept
    transfer := h.transfer.of_kept hs.kept hw ho
    controller := h.controller.of_same_ctl hs.kept hctl
    memory := hmem ▸ h.memory
    nobodyWaits := fun hb => (hn (hcfg ▸ hb)).trans (h.nobodyWaits (hcfg ▸ hb)) }

theorem Safe.resetEvent {s : State} (h : Safe s) : Safe (resetEvent s) where
  rule39 := (rule39HoldsAtReset _).of_kept (resetEvent_kept s)
  transfer := (transferInv_reset _).of_kept (resetEvent_kept s) (by simp [resetEvent_state, State.resetWith])
    (by simp [resetEvent_state, State.resetWith])
  controller := .outside (by rw [resetEvent_state]; rfl) (by simp [inPhases, resetEvent_state, State.resetWith])
  memory := by rw [resetEvent_state]; exact h.memory
  nobodyWaits := fun _ => by rw [resetEvent_state]; rfl

/-- Settles O43: the Sequencer's step by its phases, every other agent's by what it leaves of the sets of packets, of the
controller and of memory. -/
theorem everyStepKeepsSafe : Obligations.EveryStepKeepsSafe := by
  intro s t h hst
  obtain ⟨hw, hc⟩ := step_cases hst
  replace h := h.afterMove
  cases hc with
  | sequencer _ i hd ht => exact (phase_cases hd ht).safe (by simpa using hw) h
  | hostPort c _ ht =>
    rw [ht.frame.2]
    exact h.of_kept rfl rfl rfl (h.controller.of_same_ctl rfl rfl) h.memory
  | controller _ ht =>
    subst ht
    have hk := completeFrame_state (afterMove s)
    exact h.of_kept (completeFrame_kept _) (by rw [hk]) (by rw [hk]) (h.controller.completeFrame h.rule39)
      (by rw [hk]; exact h.memory)
  | submit c p _ ht => exact ht.submitted.safe h
  | callerStore a b _ ht =>
    exact ht ▸ h.of_kept rfl rfl rfl (h.controller.of_same_ctl rfl rfl) (Memory.write_wf a.isLt h.memory)
  | platformWrite r v _ ht => exact ht ▸ h.of_kept rfl rfl rfl (h.controller.platformWrite h.rule39 r v) h.memory
  | platformRead r _ ht =>
    obtain ⟨y, o, hk⟩ := platformRead_state r (afterMove s)
    have hctl := h.controller.platformRead r
    rw [ht]
    rw [hk] at hctl ⊢
    exact h.of_kept rfl rfl rfl hctl h.memory
  | platformRestore v _ ht => exact ht ▸ h.of_kept rfl rfl rfl (h.controller.platformRestore h.rule39 v) h.memory
  | reset _ ht => exact ht ▸ h.resetEvent

/-- A byte of a transfer that does not wrap lies in the address space (R75). -/
theorem txAddr_lt {s : State} (h : TransferInv s) (hl : s.idx < s.ctx.txLen) : txAddr s < addrSpace := by
  have hfit := ((transferFits_iff ..).mp h.contextFits).1
  rw [BitVec.lt_def] at hl
  rw [txAddr, addrSpace]
  omega

theorem rxAddr_lt {s : State} (h : TransferInv s) (hl : s.idx < s.ctx.rxLen) : rxAddr s < addrSpace := by
  have hfit := ((transferFits_iff ..).mp h.contextFits).2
  rw [BitVec.lt_def] at hl
  rw [rxAddr, addrSpace]
  omega

theorem execTxFetch_answers {s : State} (h : TransferInv s) : ∃ t, execTxFetch s = .next t := by
  unfold execTxFetch
  split
  · obtain ⟨b, s', hr⟩ := memRead_isSome s (txAddr_lt h ‹_›)
    simp [hr]
  · exact ⟨_, rfl⟩

theorem execRxStore_answers {s : State} (h : TransferInv s) : ∃ t, execRxStore s = .next t := by
  unfold execRxStore
  split
  · simp [memWrite_of_lt s.rxb s (rxAddr_lt h ‹_›)]
  · exact ⟨_, rfl⟩

/-- Where the contract holds TX_WRITE finds no frame in flight (R219, R251). -/
theorem execTxWrite_answers {s : State} (h : ControllerInv s) (hp : s.ph = Ph.txWrite) :
    ∃ t, execTxWrite s = .next t := by
  have hq : (contractHolds s && s.ctl.inflight) = false := by
    cases hc : contractHolds s with
    | false => rfl
    | true =>
      have hv : ctlVoid s = false := by simp_all [contractHolds]
      exact h.noFrame hv (by simp [inPhases, hp])
  simp [execTxWrite, hq]

/-- A phase answers from a safe state: TX_FETCH and RX_STORE stay in the address space, TX_WRITE finds no frame in
flight, and the others answer in any state. -/
theorem exec_phase_answers {s : State} {i : Instr} (h : Safe s) (hd : decodePhase s.ph = .instr i) :
    ∃ t, exec i s = .next t := by
  have hp := decodePhase_cases hd
  cases i with
  | txFetch => exact execTxFetch_answers h.transfer
  | txWrite => exact execTxWrite_answers h.controller (by simpa using hp)
  | rxStore => exact execRxStore_answers h.transfer
  | validatePh => simp only [exec, execValidatePh]; split <;> exact ⟨_, rfl⟩
  | setup => simp only [exec, execSetup]; split <;> exact ⟨_, rfl⟩
  | init | validate | transceive | transceiveAsync | canRelease => simp at hp
  | _ => exact ⟨_, rfl⟩

/-- The phase codes below 20 name a phase (R116). -/
theorem decodePhase_of_lt {p : BitVec 5} (h : p.toNat < 20) : ∃ i, decodePhase p = .instr i := by
  unfold decodePhase
  interval_cases p.toNat <;> exact ⟨_, rfl⟩

/-- Settles O44: R39 (iv) gives PH a phase, and a phase answers from a safe state. -/
theorem theSequencerNeverStops : Obligations.TheSequencerNeverStops := by
  intro s h ⟨hw, hm⟩
  obtain ⟨i, hd⟩ := decodePhase_of_lt h.afterMove.rule39.legalPhase
  obtain ⟨t, ht⟩ := exec_phase_answers h.afterMove hd
  have hturn : turn s = .run i (afterMove s) := by rw [turn_of_sequencer hw hm, sequencerTurn, hd]
  exact ⟨t, (step_of_run hturn).trans ht⟩

end Sys2Proof.Machine

/-! ### Each register has its writers (R22, R24 to R38) -/

namespace Sys2Proof.Machine

/-- What the step of move `m` from `s` to `t` may have written: for each register the phases that write it, and the
submissions that make a caller wait. A field that a proof leaves out is a register the step has not written. -/
structure RegisterWriters (m : Move) (s t : State) : Prop where
  cmdbuf : t.cmdbuf ≠ s.cmdbuf → m = .sequencer ∧ s.ph = Ph.idle ∧ t.ctx.lock = true := by simp
  owner : t.owner ≠ s.owner → m = .sequencer ∧ s.ph = Ph.idle := by simp
  waiting : t.waiters ≠ s.waiters ∨ t.offered ≠ s.offered →
    (m = .sequencer ∧ s.ph = Ph.idle) ∨ ∃ c p, m = .submit c p ∧ p.w0.toNat / 2 ^ 28 = 3 := by simp
  initPending : t.initPending ≠ s.initPending →
    (m = .sequencer ∧ s.ph = Ph.idle) ∨ ∃ c p, m = .submit c p ∧ p.w0 = 0x10000000#32 := by simp
  enc : t.enc ≠ s.enc → m = .sequencer ∧ s.ph = Ph.validate := by simp
  buffers : t.ctx.txPtr ≠ s.ctx.txPtr ∨ t.ctx.txLen ≠ s.ctx.txLen ∨ t.ctx.rxPtr ≠ s.ctx.rxPtr ∨
    t.ctx.rxLen ≠ s.ctx.rxLen → m = .sequencer ∧ (s.ph = Ph.setup ∨ s.ph = Ph.initContext) := by simp
  status : t.ctx.status ≠ s.ctx.status → m = .sequencer ∧ (s.ph = Ph.complete ∨ s.ph = Ph.initContext) := by simp
  done : t.ctx.done ≠ s.ctx.done →
    m = .sequencer ∧ (s.ph = Ph.setup ∨ s.ph = Ph.complete ∨ s.ph = Ph.initContext) := by simp
  lock : t.ctx.lock ≠ s.ctx.lock → m = .sequencer ∧
    (s.ph = Ph.idle ∨ s.ph = Ph.validate ∨ s.ph = Ph.setup ∨ s.ph = Ph.complete ∨ s.ph = Ph.initContext) := by simp
  idx : t.idx ≠ s.idx → m = .sequencer ∧ (s.ph = Ph.setup ∨ s.ph = Ph.rxStore) := by simp
  txb : t.txb ≠ s.txb → m = .sequencer ∧ s.ph = Ph.txFetch := by simp
  rxb : t.rxb ≠ s.rxb → m = .sequencer ∧ s.ph = Ph.rxRead := by simp
  pollcnt : t.pollcnt ≠ s.pollcnt → m = .sequencer ∧ (s.ph = Ph.txWrite ∨ s.ph = Ph.pollTxc) := by simp
  xstat : t.xstat ≠ s.xstat → m = .sequencer ∧ (s.ph = Ph.setup ∨ s.ph = Ph.pollTxc) := by simp
  csn : t.csn ≠ s.csn → m = .sequencer ∧ (s.ph = Ph.csAssert ∨ s.ph = Ph.csDeassert) := by simp
  inited : t.inited ≠ s.inited → m = .sequencer ∧ s.ph = Ph.initContext := by simp
  faultHang : t.faultHang ≠ s.faultHang → m = .sequencer ∧ s.ph = Ph.pollTxc := by simp
  answer : t.result ≠ s.result ∨ t.rdata ≠ s.rdata → m = .sequencer ∧
    (s.ph = Ph.validate ∨ s.ph = Ph.setup ∨ s.ph = Ph.complete ∨ s.ph = Ph.initContext) ∧
    t.history = .resp s.owner t.result t.rdata :: s.history := by simp

/-- What each phase writes (R21). -/
theorem PhaseCase.writers {s t : State} (hc : PhaseCase s t) : RegisterWriters .sequencer s t := by
  cases hc with
  | idle _ ht | cfgCtrl _ _ _ _ ht | cfgFrame _ ht | polled _ _ ht | initClock _ ht | initPins _ ht | routeDisable _ ht
  | routeLoc0 _ ht | routeLoc1 _ ht | routeEnable _ ht => subst ht; exact {}
  | acceptInit _ hp _ _ ht => subst ht; exact { owner := fun _ => ⟨rfl, hp⟩, initPending := fun _ => .inl ⟨rfl, hp⟩ }
  | acceptWaiter w o hp _ _ _ ht =>
    subst ht
    exact { cmdbuf := fun _ => ⟨rfl, hp, rfl⟩, owner := fun _ => ⟨rfl, hp⟩, waiting := fun _ => .inl ⟨rfl, hp⟩
            lock := fun _ => ⟨rfl, .inl hp⟩ }
  | validated _ hp _ ht => subst ht; exact { enc := fun _ => ⟨rfl, hp⟩ }
  | rejected _ hp _ ht =>
    subst ht; exact { lock := fun _ => ⟨rfl, .inr (.inl hp)⟩, answer := fun _ => ⟨rfl, .inl hp, rfl⟩ }
  | badCount hp _ ht =>
    subst ht
    exact { lock := fun _ => ⟨rfl, .inr (.inr (.inl hp))⟩, answer := fun _ => ⟨rfl, .inr (.inl hp), rfl⟩ }
  | setup _ hp _ _ ht =>
    subst ht
    exact { buffers := fun _ => ⟨rfl, .inl hp⟩, done := fun _ => ⟨rfl, .inl hp⟩, idx := fun _ => ⟨rfl, .inl hp⟩
            xstat := fun _ => ⟨rfl, .inl hp⟩ }
  | csAssert hp ht => subst ht; exact { csn := fun _ => ⟨rfl, .inl hp⟩ }
  | csDeassert hp ht => subst ht; exact { csn := fun _ => ⟨rfl, .inr hp⟩ }
  | txFetch _ _ hp _ _ _ ht | txPad hp _ ht => subst ht; exact { txb := fun _ => ⟨rfl, hp⟩ }
  | txWrite hp _ ht => subst ht; exact { pollcnt := fun _ => ⟨rfl, .inl hp⟩ }
  | hung hp _ _ ht => subst ht; exact { xstat := fun _ => ⟨rfl, .inr hp⟩, faultHang := fun _ => ⟨rfl, hp⟩ }
  | pollAgain hp _ _ ht => subst ht; exact { pollcnt := fun _ => ⟨rfl, .inr hp⟩ }
  | rxRead _ _ _ hp _ _ ht => subst ht; exact { rxb := fun _ => ⟨rfl, hp⟩ }
  | rxStore hp _ _ ht | rxSkip hp _ ht => subst ht; exact { idx := fun _ => ⟨rfl, .inr hp⟩ }
  | complete hp ht =>
    subst ht
    exact { status := fun _ => ⟨rfl, .inl hp⟩, done := fun _ => ⟨rfl, .inr (.inl hp)⟩
            lock := fun _ => ⟨rfl, .inr (.inr (.inr (.inl hp)))⟩
            answer := fun _ => ⟨rfl, .inr (.inr (.inl hp)), rfl⟩ }
  | initContext hp ht =>
    subst ht
    exact { buffers := fun _ => ⟨rfl, .inr hp⟩, status := fun _ => ⟨rfl, .inr hp⟩, done := fun _ => ⟨rfl, .inr (.inr hp)⟩
            lock := fun _ => ⟨rfl, .inr (.inr (.inr (.inr hp)))⟩, inited := fun _ => ⟨rfl, hp⟩
            answer := fun _ => ⟨rfl, .inr (.inr (.inr hp)), rfl⟩ }

/-- A submission makes its caller wait or its INIT pending, and writes no other register (R38, R291). -/
theorem Submitted.writers {c : Nat} {p : Packet} {s t : State} (h : Submitted c p s t) :
    RegisterWriters (.submit c p) s t := by
  cases h with
  | nobody ht | held ht => subst ht; exact {}
  | init hp ht => subst ht; exact { initPending := fun _ => .inr ⟨c, p, rfl, hp⟩ }
  | waits hp _ _ ht | offered hp _ _ ht =>
    subst ht; exact { waiting := fun _ => .inr ⟨c, p, rfl, (op_eq_iff p 3#4).mp hp⟩ }

/-- The other agents write none of them (R15). -/
theorem writers_of_kept {m : Move} {s t : State} (hk : SequencerStateKept s t) (hw : t.waiters = s.waiters)
    (ho : t.offered = s.offered) (hi : t.initPending = s.initPending) : RegisterWriters m s t := by
  rw [hk]
  exact { waiting := by simp [hw, ho], initPending := by simp [hi] }

theorem StepCase.writers {s t : State} (hc : StepCase s t) (hr : nextMove s ≠ .reset) :
    RegisterWriters (nextMove s) (afterMove s) t := by
  cases hc with
  | sequencer hm i hd ht => exact hm ▸ (phase_cases hd ht).writers
  | hostPort c hm ht => rw [ht.frame.2]; exact {}
  | controller hm ht => rw [ht, completeFrame_state]; exact {}
  | submit c p hm ht => exact hm ▸ ht.submitted.writers
  | callerStore a b hm ht => exact ht ▸ writers_of_kept rfl rfl rfl rfl
  | platformWrite r v hm ht => exact ht ▸ writers_of_kept rfl rfl rfl rfl
  | platformRestore v hm ht => exact ht ▸ writers_of_kept rfl rfl rfl rfl
  | platformRead r hm ht =>
    obtain ⟨y, o, hk⟩ := platformRead_state r (afterMove s)
    rw [ht, hk]; exact {}
  | reset hm _ => exact absurd hm hr

/-- Settles O52: taking the move off the agenda writes no register, so what the step may have written is what its phase
or its submission may. -/
theorem eachRegisterHasItsWriters : Obligations.EachRegisterHasItsWriters := by
  intro s t h hr
  obtain ⟨-, hc⟩ := step_cases h
  have hwr := hc.writers hr
  rw [afterMove_state] at hwr
  exact ⟨hwr.cmdbuf, hwr.owner, hwr.waiting, hwr.initPending, hwr.enc, hwr.buffers, hwr.status, hwr.done, hwr.lock,
    hwr.idx, hwr.txb, hwr.rxb, hwr.pollcnt, hwr.xstat, hwr.csn, hwr.inited, hwr.faultHang, hwr.answer⟩

/-! ### The platform's bits of CTRL (R41, R122) -/

@[simp] theorem contractHolds_afterMove (s : State) : contractHolds (afterMove s) = contractHolds s := by
  simp [contractHolds, ctlVoid, ctlAutocs, modeHolds, frameCovered]

/-- CFG_CTRL is the one phase that writes CTRL, with `ctrlUpdate` of what it has read (R154). -/
theorem PhaseCase.ctrl_cases {s t : State} (hc : PhaseCase s t) :
    t.ctl.ctrl = s.ctl.ctrl ∨ (s.ph = Ph.cfgCtrl ∧ ∃ old, (contractHolds s = true → old = s.ctl.ctrl) ∧
      t.ctl.ctrl = ctrlUpdate s.cfg.lay old s.enc) := by
  cases hc with
  | cfgCtrl old _ hp hv ht => exact .inr ⟨hp, old, fun h => (hv h).1, by rw [ht]; rfl⟩
  | txWrite _ _ ht => exact .inl (by rw [ht]; rfl)
  | _ => subst t; exact .inl (by simp)

/-- Neither the host port nor a submission touches the controller (R15). -/
theorem StepCase.ctl_eq {s t : State} (hc : StepCase s t)
    (hm : ∃ c, nextMove s = .hostPort c ∨ ∃ p, nextMove s = .submit c p) : t.ctl = s.ctl := by
  cases hc with
  | hostPort c _ ht => rw [ht.frame.2]; exact afterMove_ctl s
  | submit c p _ ht => exact ht.submitted.sets.1.trans (afterMove_ctl s)
  | _ => simp_all

/-- Settles O53: `ctrlUpdate` keeps the bits of what CFG_CTRL has read, which is CTRL while the contract holds. -/
theorem platformBitsOfCtrlAreKept : Obligations.PlatformBitsOfCtrlAreKept := by
  intro s t h hm
  obtain ⟨hw, hc⟩ := step_cases h
  have hctrl : t.ctl.ctrl = s.ctl.ctrl ∨ (nextMove s = .sequencer ∧ s.ph = Ph.cfgCtrl ∧
      ∃ old e, (contractHolds s = true → old = s.ctl.ctrl) ∧ t.ctl.ctrl = ctrlUpdate s.cfg.lay old e) := by
    obtain hm | hm := hm
    · obtain ⟨-, hp⟩ | ⟨hr, -⟩ | ⟨hn, -⟩ := hc.phase_or_kept
      · obtain he | ⟨hph, old, hold, he⟩ := hp.ctrl_cases
        · exact .inl (by simpa using he)
        · exact .inr ⟨hm, by simpa using hph, old, (afterMove s).enc, by simpa using hold, by simpa using he⟩
      · simp [hm] at hr
      · exact absurd hm hn
    · exact .inl (congrArg _ (hc.ctl_eq hm))
  obtain he | ⟨hm, hp, old, e, hold, he⟩ := hctrl
  · exact ⟨fun hne => absurd he hne, fun _ k _ _ => by rw [he]⟩
  · refine ⟨fun _ => ⟨hm, hp⟩, fun hcon k h1 h2 => ?_⟩
    rw [he, ctrlUpdate_getLsbD (Config.wf_parts hw).2.2.2, if_neg h1, if_neg h2, hold hcon]

/-! ### Before INIT (R35, R369) -/

theorem whenInited_refused {s : State} (h : s.inited = false) (t : State) :
    whenInited s t = .refused .notInitialised := by
  simp [whenInited, h]

theorem execTransceive_refused {s : State} (h : s.inited = false) (cnt : BitVec 4) (d : BitVec 24)
    (tp tl rp rl : Word) : execTransceive cnt d tp tl rp rl s = .refused .notInitialised := by
  simp [execTransceive, h]

/-- Before INIT the submission of another packet runs into a refusal, in the command or at the host port (R369, U1). -/
theorem submittedTurn_refused {s : State} (h : s.inited = false) (c : Nat) {p : Packet} (hp : p.w0 ≠ 0x10000000#32) :
    (∃ i s', submittedTurn c p s = .run i s' ∧ exec i s' = .refused .notInitialised) ∨
    submittedTurn c p s = .done (.refused .notInitialised) := by
  have hheld : holdPacket c p s = .refused .notInitialised := whenInited_refused h _
  unfold submittedTurn
  cases hd : decodePacket p with
  | reject r => simp [hheld]
  | instr i =>
    cases hq : forSequencer i s with
    | false => simp [hq, hheld]
    | true =>
      obtain rfl | ⟨rfl, -⟩ := (forSequencer_cases hd).mp hq
      · exact absurd (init_of_decodePacket hd) hp
      · exact .inl ⟨.transceive p.cnt p.desc p.w1 p.w2 p.w3 p.w4, { s with portCaller := c }, by simp [hq],
          execTransceive_refused (s := { s with portCaller := c }) h ..⟩

/-- Settles O18: each command tests INITED, and a submission that is no INIT comes to such a test (U1). -/
theorem nothingButInitBeforeInit : Obligations.NothingButInitBeforeInit := by
  intro s h
  refine ⟨fun c p ⟨hw, hm⟩ hc hheld hp => ?_, fun d => whenInited_refused h _,
    fun cnt d tp tl rp rl => execTransceive_refused h cnt d tp tl rp rl, fun _ _ _ _ _ _ => whenInited_refused h _,
    whenInited_refused h _, whenInited_refused h _⟩
  have ho : outstanding c s = false := (outstanding_eq_false_iff c s).mpr hheld
  have hturn : turn s = submittedTurn c p (log (.submit c p.words) (afterMove s)) := by
    simp [turn_of_submit hw hm, submitTurn, ho, Nat.not_le.mpr hc]
  have hi : (log (.submit c p.words) (afterMove s)).inited = false := by simpa using h
  obtain ⟨i, s', hrun, he⟩ | hdone := submittedTurn_refused hi c hp
  · exact (step_of_run (hturn.trans hrun)).trans he
  · exact step_of_done (hturn.trans hdone)

end Sys2Proof.Machine

/-! ### Buffer memory (R71, R74, R75) -/

namespace Sys2Proof.Machine

/-- Settles O16: the guard is free or acquisition blocks, so the packet is not answered BUSY, and `transferFits` fails. -/
theorem wrappingTransferIsNotAdmitted : Obligations.WrappingTransferIsNotAdmitted := by
  intro cnt d tp tl rp rl s hi hfree hwrap
  have hbusy : busyNow s = false := (busyNow_eq_false_iff s).mpr hfree
  have hfit : transferFits tp tl rp rl = false := by
    rw [← Bool.not_eq_true, transferFits_iff]
    omega
  simp [exec, execTransceive, hi, hbusy, hfit]

/-- RX_STORE is the one phase that writes buffer memory, at RXPTR + IDX and below RXLEN (R71, R216). -/
theorem PhaseCase.mem_cases {s t : State} (hc : PhaseCase s t) :
    t.mem = s.mem ∨
    (s.ph = Ph.rxStore ∧ s.idx < s.ctx.rxLen ∧ t.mem = s.mem.write (rxAddr s) s.rxb) := by
  cases hc with
  | rxStore hp hl _ ht => exact .inr ⟨hp, hl, by rw [ht, nextFrame_mem]⟩
  | _ => subst t; exact .inl (by simp)

/-- A step that is no store of another agent leaves buffer memory as it is, or it is RX_STORE (R71, R74). -/
theorem StepCase.mem_cases {s t : State} (hc : StepCase s t) (hs : ∀ x b, nextMove s ≠ .callerStore x b) :
    t.mem = s.mem ∨ (nextMove s = .sequencer ∧ s.ph = Ph.rxStore ∧ s.idx < s.ctx.rxLen ∧
      t.mem = s.mem.write (rxAddr s) s.rxb) := by
  cases hc with
  | sequencer hm i hd ht =>
    have hmem := (phase_cases hd ht).mem_cases
    rw [afterMove_state] at hmem
    exact hmem.imp_right fun hstore => ⟨hm, hstore⟩
  | callerStore a b hm _ => exact absurd hm (hs a b)
  | hostPort c _ ht => rw [ht.frame.2]; exact .inl (afterMove_mem s)
  | submit c p _ ht => exact .inl (ht.submitted.sets.2.1.trans (afterMove_mem s))
  | controller _ ht => rw [ht, completeFrame_state]; exact .inl (afterMove_mem s)
  | platformRead r _ ht =>
    obtain ⟨y, o, hk⟩ := platformRead_state r (afterMove s)
    rw [ht, hk]; exact .inl (afterMove_mem s)
  | platformWrite r v _ ht | platformRestore v _ ht => rw [ht]; exact .inl (afterMove_mem s)
  | reset _ ht => rw [ht, resetEvent_state]; exact .inl (afterMove_mem s)

/-- Settles O50: a changed byte makes the step an RX_STORE, and a write changes no byte but the one it writes. -/
theorem memoryChangesOnlyInRxStore : Obligations.MemoryChangesOnlyInRxStore := by
  intro s t a hwf h hs hne
  obtain ⟨-, hc⟩ := step_cases h
  obtain hkept | ⟨hm, hp, hl, hwritten⟩ := hc.mem_cases hs
  · exact absurd (by rw [hkept]) hne
  · have ha : a = rxAddr s := by
      by_contra hother
      exact hne (by rw [hwritten, Memory.read_write_other hother])
    have hb : t.mem.read a = s.rxb := by rw [hwritten, ha, Memory.read_write_same hwf]
    exact ⟨hm, hp, BitVec.lt_def.mp hl, ha, hb⟩

end Sys2Proof.Machine

/-! ### The encoding of packets and phase codes, and the decoder on any words (R101 to R103, R116, R119) -/

namespace Sys2Proof.Machine

/-- The first word of a packet is what its three fields make (R101). -/
theorem w0_eq_firstWord_iff (p : Packet) (op cnt : BitVec 4) (d : BitVec 24) :
    p.w0 = firstWord op cnt d ↔ p.op = op ∧ p.cnt = cnt ∧ p.desc = d := by
  constructor
  · intro h
    rw [Packet.op, Packet.cnt, Packet.desc, h]
    exact firstWord_fields op cnt d
  · rintro ⟨rfl, rfl, rfl⟩
    exact (firstWord_of_fields p.w0).symm

/-- The commands, each with the packets that decode to it: by the whole first word where its other bits must be zero, by
the opcode where every word is legal (R103, R117). -/
theorem decodePacket_eq_instr_iff (p : Packet) (i : Instr) :
    decodePacket p = .instr i ↔
      (p.w0 = firstWord 0x1#4 0#4 0#24 ∧ i = .init) ∨ (p.w0 = firstWord 0x5#4 0#4 0#24 ∧ i = .canRelease) ∨
      (p.w0 = firstWord 0x2#4 0#4 p.desc ∧ i = .validate p.desc) ∨
      (p.op = 0x3#4 ∧ i = .transceive p.cnt p.desc p.w1 p.w2 p.w3 p.w4) ∨
      (p.op = 0x4#4 ∧ i = .transceiveAsync p.cnt p.desc p.w1 p.w2 p.w3 p.w4) := by
  have hzero : p.w0.extractLsb' 0 28 = 0#28 ↔ p.cnt = 0#4 ∧ p.desc = 0#24 := low28_eq_zero_iff p.w0
  simp only [decodePacket, hzero, w0_eq_firstWord_iff, @eq_comm _ i]
  split_ifs <;> simp_all

/-- A packet has five words exactly when its opcode is that of a transfer (R102). -/
theorem isLong_eq_true_iff (p : Packet) : p.isLong = true ↔ p.op = 0x3#4 ∨ p.op = 0x4#4 := by
  simp [Packet.isLong]

theorem wf_of_op {p : Packet} (h : p.op = 0x3#4 ∨ p.op = 0x4#4) : p.wf = true := by
  simp [Packet.wf, Packet.isLong, h]

/-- A well-formed packet is taken back from its words, whatever follows them (R102). -/
theorem takePacketWords_words {p : Packet} (hw : p.wf = true) (rest : List Word) :
    takePacketWords (p.words ++ rest) = some (p, rest) := by
  obtain ⟨w0, w1, w2, w3, w4⟩ := p
  by_cases hl : w0.extractLsb' 28 4 = 0x3#4 ∨ w0.extractLsb' 28 4 = 0x4#4
  · simp [Packet.words, takePacketWords, isLong_eq_true_iff, Packet.op, hl]
  · simp_all [Packet.words, Packet.wf, takePacketWords, isLong_eq_true_iff, Packet.op]

/-- What is taken at the front of a stream is a well-formed packet, its words followed by the rest (R102). -/
theorem takePacketWords_some {ws rest : List Word} {p : Packet} (h : takePacketWords ws = some (p, rest)) :
    p.wf = true ∧ ws = p.words ++ rest := by
  unfold takePacketWords at h
  split at h
  · simp at h
  · split at h
    · split at h
      · obtain ⟨rfl, rfl⟩ := by simpa using h
        simp_all [Packet.words, Packet.wf, isLong_eq_true_iff, Packet.op]
      · simp at h
    · obtain ⟨rfl, rfl⟩ := by simpa using h
      simp_all [Packet.words, Packet.wf, isLong_eq_true_iff, Packet.op]

/-- A well-formed packet is decoded alone, and at the front of a stream, as that packet (R119). -/
theorem decode_words {p : Packet} (hw : p.wf = true) : decode (.packet p.words) = decodePacket p := by
  have h := takePacketWords_words hw []
  rw [List.append_nil] at h
  simp only [decode, h]

theorem decodeWords_words {p : Packet} (hw : p.wf = true) (rest : List Word) :
    decodeWords (p.words ++ rest) = (decodePacket p, rest) := by
  simp only [decodeWords, takePacketWords_words hw]

/-- Words that decode to an instruction are those of a well-formed packet that does (R102, R119). -/
theorem packet_of_decode {ws : List Word} {i : Instr} (h : decode (.packet ws) = .instr i) :
    ∃ p : Packet, p.wf = true ∧ ws = p.words ∧ decodePacket p = .instr i := by
  simp only [decode] at h
  split at h
  · simp at h
  · rename_i p ht
    obtain ⟨hw, hws⟩ := takePacketWords_some ht
    exact ⟨p, hw, by rw [hws, List.append_nil], h⟩
  · simp at h

/-! The packets the encoder makes (R100, R101, R103). -/

@[simp] theorem transferPacket_op (op cnt : BitVec 4) (d : BitVec 24) (tp tl rp rl : Word) :
    (transferPacket op cnt d tp tl rp rl).op = op := (firstWord_fields op cnt d).1
@[simp] theorem transferPacket_cnt (op cnt : BitVec 4) (d : BitVec 24) (tp tl rp rl : Word) :
    (transferPacket op cnt d tp tl rp rl).cnt = cnt := (firstWord_fields op cnt d).2.1
@[simp] theorem transferPacket_desc (op cnt : BitVec 4) (d : BitVec 24) (tp tl rp rl : Word) :
    (transferPacket op cnt d tp tl rp rl).desc = d := (firstWord_fields op cnt d).2.2
@[simp] theorem transferPacket_w1 (op cnt : BitVec 4) (d : BitVec 24) (tp tl rp rl : Word) :
    (transferPacket op cnt d tp tl rp rl).w1 = tp := rfl
@[simp] theorem transferPacket_w2 (op cnt : BitVec 4) (d : BitVec 24) (tp tl rp rl : Word) :
    (transferPacket op cnt d tp tl rp rl).w2 = tl := rfl
@[simp] theorem transferPacket_w3 (op cnt : BitVec 4) (d : BitVec 24) (tp tl rp rl : Word) :
    (transferPacket op cnt d tp tl rp rl).w3 = rp := rfl
@[simp] theorem transferPacket_w4 (op cnt : BitVec 4) (d : BitVec 24) (tp tl rp rl : Word) :
    (transferPacket op cnt d tp tl rp rl).w4 = rl := rfl

@[simp] theorem shortPacket_op (op : BitVec 4) (d : BitVec 24) : (shortPacket op d).op = op :=
  (firstWord_fields op _ d).1
@[simp] theorem shortPacket_cnt (op : BitVec 4) (d : BitVec 24) : (shortPacket op d).cnt = 0#4 :=
  (firstWord_fields op _ d).2.1
@[simp] theorem shortPacket_desc (op : BitVec 4) (d : BitVec 24) : (shortPacket op d).desc = d :=
  (firstWord_fields op _ d).2.2

theorem shortPacket_wf (op : BitVec 4) (d : BitVec 24) : (shortPacket op d).wf = true := by
  simp [Packet.wf, shortPacket]

/-- A packet with the first word of a packet of one word is that packet. -/
theorem eq_shortPacket {p : Packet} {op : BitVec 4} {d : BitVec 24} (hw : p.wf = true) (h3 : op ≠ 0x3#4)
    (h4 : op ≠ 0x4#4) (h : p.w0 = firstWord op 0#4 d) : p = shortPacket op d := by
  obtain ⟨hop, -⟩ := (w0_eq_firstWord_iff ..).mp h
  obtain ⟨w0, w1, w2, w3, w4⟩ := p
  simp_all [Packet.wf, Packet.isLong, shortPacket]

/-- Any packet is made of its fields (R101, R107). -/
theorem transferPacket_of_fields (p : Packet) : transferPacket p.op p.cnt p.desc p.w1 p.w2 p.w3 p.w4 = p := by
  rw [transferPacket, Packet.op, Packet.cnt, Packet.desc, firstWord_of_fields]

/-- Settles O1: the words of a packet are taken back as that packet, and its opcode and fields are those the encoder put
in; a phase code names its phase. -/
theorem decodeOfEncodeGivesTheInstruction : Obligations.DecodeOfEncodeGivesTheInstruction := by
  intro i _
  cases i with
  | init | validate | canRelease =>
    refine (decode_words (shortPacket_wf _ _)).trans ((decodePacket_eq_instr_iff _ _).mpr ?_)
    simp [w0_eq_firstWord_iff]
  | transceive | transceiveAsync =>
    refine (decode_words (wf_of_op (by simp))).trans ((decodePacket_eq_instr_iff _ _).mpr ?_)
    simp [w0_eq_firstWord_iff]
  | _ => rfl

/-- The encoder makes a packet again from the command it decodes to. -/
theorem encode_of_decodePacket {p : Packet} {i : Instr} (hw : p.wf = true) (h : decodePacket p = .instr i) :
    encode i = .packet p.words := by
  rcases (decodePacket_eq_instr_iff p i).mp h with ⟨h0, rfl⟩ | ⟨h0, rfl⟩ | ⟨h0, rfl⟩ | ⟨hop, rfl⟩ | ⟨hop, rfl⟩
  · rw [encode, ← eq_shortPacket hw (by decide) (by decide) h0]
  · rw [encode, ← eq_shortPacket hw (by decide) (by decide) h0]
  · rw [encode, ← eq_shortPacket hw (by decide) (by decide) h0]
  · rw [encode, ← hop, transferPacket_of_fields]
  · rw [encode, ← hop, transferPacket_of_fields]

/-- Each phase has the code of its row in R116. -/
theorem encode_of_decodePhase {c : BitVec 5} {i : Instr} (h : decodePhase c = .instr i) : encode i = .phase c := by
  have hc := decodePhase_cases h
  cases i with
  | init | validate | transceive | transceiveAsync | canRelease => simp at hc
  | _ => simpa [encode, @eq_comm _ c] using hc

/-- Settles O2: words that decode are a packet's, and the encoder makes that packet again from its fields; a phase code is
that of its row. -/
theorem encodeOfDecodeGivesTheCode : Obligations.EncodeOfDecodeGivesTheCode := by
  intro c i h
  cases c with
  | phase c => exact encode_of_decodePhase h
  | packet ws =>
    obtain ⟨p, hw, rfl, hd⟩ := packet_of_decode h
    exact encode_of_decodePacket hw hd

/-! The decoder on a stream, in the numbers of R119. -/

theorem cnt_eq_ofNat (p : Packet) : p.cnt = BitVec.ofNat 4 (p.w0.toNat / 2 ^ 24) := by
  rw [Packet.cnt, BitVec.extractLsb', Nat.shiftRight_eq_div_pow]

theorem desc_eq_ofNat (p : Packet) : p.desc = BitVec.ofNat 24 p.w0.toNat := rfl

/-- A stream that begins with opcode 3 or 4 begins with a packet of five words (R102). -/
theorem decodeWords_of_long {w0 w1 w2 w3 w4 : Word}
    (h : (Packet.mk w0 w1 w2 w3 w4).op = 0x3#4 ∨ (Packet.mk w0 w1 w2 w3 w4).op = 0x4#4) (rest : List Word) :
    decodeWords (w0 :: w1 :: w2 :: w3 :: w4 :: rest) = (decodePacket ⟨w0, w1, w2, w3, w4⟩, rest) := by
  have hread := decodeWords_words (wf_of_op h) rest
  rwa [Packet.words, if_pos ((isLong_eq_true_iff _).mpr h)] at hread

/-- A stream that begins with another opcode begins with a packet of one word (R102). -/
theorem decodeWords_of_short {w0 : Word} (h3 : w0.toNat / 2 ^ 28 ≠ 3) (h4 : w0.toNat / 2 ^ 28 ≠ 4) (rest : List Word) :
    decodeWords (w0 :: rest) = (decodePacket ⟨w0, 0, 0, 0, 0⟩, rest) := by
  have hl : ¬ (Packet.mk w0 0 0 0 0).isLong = true := by
    rw [isLong_eq_true_iff, op_eq_iff, op_eq_iff]
    exact not_or.mpr ⟨h3, h4⟩
  have hread := decodeWords_words (p := ⟨w0, 0, 0, 0, 0⟩) (by simp [Packet.wf]) rest
  rwa [Packet.words, if_neg hl] at hread

/-- The first words of VALIDATE are those with 0x20 above DESC (R119). -/
theorem eq_validateWord_iff (w : Word) :
    w = firstWord 0x2#4 0#4 (BitVec.ofNat 24 w.toNat) ↔ w.toNat / 2 ^ 24 = 0x20 := by
  rw [← BitVec.toNat_inj, firstWord_toNat]
  simp only [BitVec.toNat_ofNat]
  omega

/-- Settles O3: the opcode gives the length of the packet at the front, and its command is the one its first word has in
the table; a packet of one word with none of the three first words is no command. -/
theorem decoderIsTotalAsRule119Says : Obligations.DecoderIsTotalAsRule119Says := by
  intro w0 w1 w2 w3 w4 rest
  refine ⟨fun h => ?_, fun h => ?_, fun h => ?_, fun h => ?_, fun h => ?_, fun h3 h4 hi hr hv => ?_⟩
  · have hop := (op_eq_iff ⟨w0, w1, w2, w3, w4⟩ 0x3#4).mpr h
    have hd := (decodePacket_eq_instr_iff ⟨w0, w1, w2, w3, w4⟩ _).mpr (.inr (.inr (.inr (.inl ⟨hop, rfl⟩))))
    rw [decodeWords_of_long (.inl hop), hd, cnt_eq_ofNat, desc_eq_ofNat]
  · have hop := (op_eq_iff ⟨w0, w1, w2, w3, w4⟩ 0x4#4).mpr h
    have hd := (decodePacket_eq_instr_iff ⟨w0, w1, w2, w3, w4⟩ _).mpr (.inr (.inr (.inr (.inr ⟨hop, rfl⟩))))
    rw [decodeWords_of_long (.inr hop), hd, cnt_eq_ofNat, desc_eq_ofNat]
  · subst h
    rw [decodeWords_of_short (by decide) (by decide), (decodePacket_eq_instr_iff _ _).mpr (.inl ⟨rfl, rfl⟩)]
  · subst h
    rw [decodeWords_of_short (by decide) (by decide), (decodePacket_eq_instr_iff _ _).mpr (.inr (.inl ⟨rfl, rfl⟩))]
  · have hw0 := (eq_validateWord_iff w0).mpr h
    have hd := (decodePacket_eq_instr_iff ⟨w0, 0, 0, 0, 0⟩ _).mpr (.inr (.inr (.inl ⟨hw0, rfl⟩)))
    rw [decodeWords_of_short (by omega) (by omega), hd, desc_eq_ofNat]
  · rw [decodeWords_of_short h3 h4]
    cases hd : decodePacket ⟨w0, 0, 0, 0, 0⟩ with
    | reject r => exact ⟨r, rfl⟩
    | instr i =>
      rw [decodePacket_eq_instr_iff, op_eq_iff, op_eq_iff, desc_eq_ofNat, eq_validateWord_iff] at hd
      obtain ⟨h, -⟩ | ⟨h, -⟩ | ⟨h, -⟩ | ⟨h, -⟩ | ⟨h, -⟩ := hd
      exacts [absurd h hi, absurd h hr, absurd h hv, absurd h h3, absurd h h4]

/-- Settles O4: the decoder run on each of the words. -/
theorem wordsOfTheTablesDecode : Obligations.WordsOfTheTablesDecode := by
  unfold Obligations.WordsOfTheTablesDecode
  decide

/-- The phase codes from 20 on name no phase (R116, U3). -/
theorem decodePhase_of_ge {p : BitVec 5} (h : 20 ≤ p.toNat) : decodePhase p = .reject .reservedPhase := by
  have hlt := p.isLt
  unfold decodePhase
  interval_cases p.toNat <;> rfl

/-- Settles O8: the Sequencer's turn is a refusal when PH names no phase. -/
theorem reservedPhaseHasNoMeaning : Obligations.ReservedPhaseHasNoMeaning := by
  intro s ⟨hw, hm⟩ h
  have hturn : turn s = .done (.refused .reservedPhase) := by
    rw [turn_of_sequencer hw hm, sequencerTurn, afterMove_ph, decodePhase_of_ge h]
  exact step_of_done hturn

end Sys2Proof.Machine

/-! ### The supported descriptors (R106, R149) -/

namespace Sys2Proof.Machine

/-- A descriptor passes the eight checks of `validate` (R141 to R148). -/
def passesChecks (d : BitVec 24) : Bool :=
  checkCsIndex d && (checkWordSize d && (checkCsPolarity d && (checkLockOn d && (checkLineMode d && (checkBitOrder d &&
    (checkClockMode d && checkRole d))))))

theorem exists_ite_eq_ok_iff {b : Bool} {k : Cause} {v : Validated} :
    (∃ e, (if !b then .err k else v) = Validated.ok e) ↔ b = true ∧ ∃ e, v = .ok e := by
  cases b <;> simp

/-- `validate` accepts a descriptor exactly when all checks pass (R151). -/
theorem exists_validate_eq_ok_iff (l : RegLayout) (d : BitVec 24) :
    (∃ e, validate l d = .ok e) ↔ passesChecks d = true := by
  simp only [validate, passesChecks, exists_ite_eq_ok_iff, Bool.and_eq_true, Validated.ok.injEq, exists_eq', and_true]

/-- A descriptor is the sum of its fields, each at its place (R104). -/
theorem toNat_eq_sum_of_fields (d : BitVec 24) :
    d.toNat = (descRole d).toNat + 2 * (descCpol d).toNat + 4 * (descCpha d).toNat + 8 * (descLoop d).toNat +
      16 * (descLsbf d).toNat + 32 * (descWsize d).toNat + 4096 * (descLines d).toNat +
      16384 * (descLockon d).toNat + 32768 * (descCshigh d).toNat + 65536 * (descCsidx d).toNat := by
  simp only [descRole, descCpol, descCpha, descLoop, descLsbf, descWsize, descLines, descLockon, descCshigh, descCsidx,
    BitVec.extractLsb'_toNat, Nat.shiftRight_eq_div_pow]
  omega

/-- The checks leave the loopback bit and one of three chip-select lines open (R106). -/
theorem passesChecks_iff (d : BitVec 24) :
    passesChecks d = true ↔
      d ∈ [0x000100#24, 0x000108#24, 0x010100#24, 0x010108#24, 0x020100#24, 0x020108#24] := by
  simp only [List.mem_cons, List.not_mem_nil, or_false]
  constructor
  · intro h
    simp only [passesChecks, checkWordSize, checkCsPolarity, checkLockOn, checkLineMode, checkBitOrder,
      checkClockMode, checkRole, Bool.and_eq_true, beq_iff_eq, frameBits] at h
    obtain ⟨hidx, hsize, hpol, hlock, hlines, horder, ⟨hcpol, hcpha⟩, hrole⟩ := h
    have hidx : (descCsidx d).toNat < 3 := of_decide_eq_true hidx
    have hsum := toNat_eq_sum_of_fields d
    rw [hsize, hpol, hlock, hlines, horder, hcpol, hcpha, hrole] at hsum
    have hloop := (descLoop d).isLt
    simp only [← BitVec.toNat_inj, BitVec.toNat_ofNat] at hsum ⊢
    omega
  · rintro (rfl | rfl | rfl | rfl | rfl | rfl) <;> decide

/-- A field of a descriptor that does not hold bit 3 is as before when LOOP is turned over (R104). -/
theorem extractLsb'_flip_loop {lo n : Nat} (h : (0x000008#24).extractLsb' lo n = 0#n) (d : BitVec 24) :
    (d ^^^ 0x000008#24).extractLsb' lo n = d.extractLsb' lo n := by
  rw [BitVec.extractLsb'_xor, h, BitVec.xor_zero]

/-- No check looks at LOOP (R149). -/
theorem checks_flip_loop (d : BitVec 24) :
    checkCsIndex (d ^^^ 0x000008#24) = checkCsIndex d ∧ checkWordSize (d ^^^ 0x000008#24) = checkWordSize d ∧
    checkCsPolarity (d ^^^ 0x000008#24) = checkCsPolarity d ∧ checkLockOn (d ^^^ 0x000008#24) = checkLockOn d ∧
    checkLineMode (d ^^^ 0x000008#24) = checkLineMode d ∧ checkBitOrder (d ^^^ 0x000008#24) = checkBitOrder d ∧
    checkClockMode (d ^^^ 0x000008#24) = checkClockMode d ∧ checkRole (d ^^^ 0x000008#24) = checkRole d := by
  have h : ∀ {lo n}, (0x000008#24).extractLsb' lo n = 0#n →
      (d ^^^ 0x000008#24).extractLsb' lo n = d.extractLsb' lo n := fun h => extractLsb'_flip_loop h d
  refine ⟨?_, ?_, ?_, ?_, ?_, ?_, ?_, ?_⟩
  · rw [checkCsIndex, descCsidx, h (by decide)]; rfl
  · rw [checkWordSize, descWsize, h (by decide)]; rfl
  · rw [checkCsPolarity, descCshigh, h (by decide)]; rfl
  · rw [checkLockOn, descLockon, h (by decide)]; rfl
  · rw [checkLineMode, descLines, h (by decide)]; rfl
  · rw [checkBitOrder, descLsbf, h (by decide)]; rfl
  · rw [checkClockMode, descCpol, descCpha, h (by decide), h (by decide)]; rfl
  · rw [checkRole, descRole, h (by decide)]; rfl

theorem ite_eq_err_congr {b : Bool} {k c : Cause} {v w : Validated} (h : v = .err c ↔ w = .err c) :
    (if b then .err k else v) = .err c ↔ (if b then .err k else w) = .err c := by
  split
  · rfl
  · exact h

/-- Two descriptors that differ in loopback fail alike (R149). -/
theorem validate_eq_err_flip_loop (l : RegLayout) (d : BitVec 24) (c : Cause) :
    validate l d = .err c ↔ validate l (d ^^^ 0x000008#24) = .err c := by
  obtain ⟨h1, h2, h3, h4, h5, h6, h7, h8⟩ := checks_flip_loop d
  simp only [validate, h1, h2, h3, h4, h5, h6, h7, h8]
  iterate 8 refine ite_eq_err_congr ?_
  simp

/-- Settles O10: `validate` accepts what passes the checks, which is six descriptors, and no check looks at LOOP. -/
theorem exactlySixDescriptorsAreSupported : Obligations.ExactlySixDescriptorsAreSupported := fun l d =>
  ⟨(exists_validate_eq_ok_iff l d).trans (passesChecks_iff d), validate_eq_err_flip_loop l d⟩

end Sys2Proof.Machine

/-! ### The status words of responses (R114, R316) -/

namespace Sys2Proof.Machine

theorem statusR0_mem (c : Cause) : statusR0 c ∈ statusWords := by
  cases c <;> decide

theorem completeR0_mem (x : Byte) : completeR0 x ∈ statusWords := by
  unfold completeR0
  split <;> exact statusR0_mem _

theorem respondsLawfully_cons (e : Event) (h : List Event) :
    respondsLawfully (e :: h) ↔ (∀ c r0 r1, e = .resp c r0 r1 → r0 ∈ statusWords) ∧ respondsLawfully h := by
  simp [respondsLawfully, forall_and, or_imp, eq_comm]

/-- The phases answer by `raise`, in COMPLETE and in INIT_CONTEXT, each time with a status word (R197, R283, R318). -/
theorem PhaseCase.respondsLawfully {s t : State} (hc : PhaseCase s t) (h : respondsLawfully s.history) :
    respondsLawfully t.history := by
  cases hc with
  | rejected _ _ _ ht | badCount _ _ ht | initContext _ ht =>
    subst ht; simp [respondsLawfully_cons, statusR0_mem, h]
  | complete _ ht => subst ht; simp [respondsLawfully_cons, completeR0_mem, h]
  | _ => subst t; simp [respondsLawfully_cons, h]

theorem respondsLawfully_hostAnswer {s : State} (h : respondsLawfully s.history) (k : Cause) (r1 : Word) :
    respondsLawfully (hostAnswer k r1 s).history := by
  simp [respondsLawfully_cons, h, statusR0_mem]

/-- A command answers with a status word, or leaves the responses as they are (R284, R287, R288, R290). -/
theorem respondsLawfully_command {p : Packet} {i : Instr} {s t : State} (hd : decodePacket p = .instr i)
    (h : respondsLawfully s.history) (ht : exec i s = .next t) : respondsLawfully t.history := by
  rcases decodePacket_cases hd with rfl | rfl | rfl | rfl | rfl
  · -- INIT
    obtain ⟨-, -, -, rfl⟩ := execInit_next ht
    exact h
  · -- CANRELEASE
    obtain ⟨-, rfl⟩ := whenInited_next ht
    have hread : respondsLawfully (readStatus s).2.history := by simp [respondsLawfully_cons, h]
    split <;> exact respondsLawfully_hostAnswer hread _ _
  · -- VALIDATE
    obtain ⟨-, rfl⟩ := whenInited_next ht
    split <;> exact respondsLawfully_hostAnswer h _ _
  · -- TRANSCEIVE
    obtain ⟨-, ⟨-, rfl⟩ | ⟨-, -, ⟨-, rfl⟩ | ⟨-, rfl⟩⟩⟩ := execTransceive_next ht
    · exact respondsLawfully_hostAnswer h _ _
    · exact h
    · exact h
  · -- TRANSCEIVE_ASYNC
    obtain ⟨-, rfl⟩ := whenInited_next ht
    exact respondsLawfully_hostAnswer h _ _

theorem HostPortStep.respondsLawfully {c : Nat} {s t : State} (hc : HostPortStep c s t)
    (h : respondsLawfully s.history) : respondsLawfully t.history := by
  cases hc with
  | nothing ht => exact ht ▸ h
  | command e i _ hd _ ht => exact respondsLawfully_command (s := takePacket c s) hd h ht
  | illegal e r _ _ ht =>
    obtain ⟨-, rfl⟩ := whenInited_next ht
    exact respondsLawfully_hostAnswer (s := takePacket c s) h _ _

theorem Submitted.respondsLawfully {c : Nat} {p : Packet} {s t : State} (hc : Submitted c p s t)
    (h : respondsLawfully s.history) : respondsLawfully t.history := by
  cases hc with
  | nobody ht => exact ht ▸ h
  | held ht | init _ ht | waits _ _ _ ht | offered _ _ _ ht => subst ht; simp [respondsLawfully_cons, h]

/-- The controller's own step records the frame it ends, or nothing (R252, R263). -/
theorem completeFrame_history (s : State) :
    (completeFrame s).history = s.history ∨
    ∃ csn mosi miso route, (completeFrame s).history = .frame csn mosi miso route :: s.history := by
  unfold completeFrame
  split_ifs
  · exact .inr ⟨_, _, _, _, congrArg (_ :: ·) (drawWord_history s)⟩
  · exact .inl rfl
  · exact .inr ⟨_, _, _, _, rfl⟩
  · exact .inr ⟨_, _, _, _, congrArg (_ :: ·) (drawByte_history s)⟩

/-- Settles O46: the phases and the host port answer with status words, and no other agent sends a response. -/
theorem onlyFifteenStatusWordsAreSent : Obligations.OnlyFifteenStatusWordsAreSent := by
  intro s t h hst
  obtain ⟨-, hc⟩ := step_cases hst
  rw [← afterMove_history] at h
  cases hc with
  | sequencer _ i hd ht => exact (phase_cases hd ht).respondsLawfully h
  | hostPort c _ ht => exact ht.respondsLawfully h
  | submit c p _ ht => exact ht.submitted.respondsLawfully h
  | controller _ ht =>
    obtain he | ⟨csn, mosi, miso, route, he⟩ := completeFrame_history (afterMove s) <;> rw [ht, he]
    · exact h
    · exact (respondsLawfully_cons ..).mpr ⟨by simp, h⟩
  | callerStore a b _ ht | platformWrite r v _ ht | platformRestore v _ ht => exact ht ▸ h
  | platformRead r _ ht =>
    obtain ⟨y, o, hk⟩ := platformRead_state r (afterMove s)
    rw [ht, hk]
    exact h
  | reset _ ht =>
    rw [ht, resetEvent_state]
    dsimp only
    split
    · exact h
    · exact (respondsLawfully_cons ..).mpr ⟨by simp, h⟩

end Sys2Proof.Machine

/-! ### The validator and its phases (R104, R141 to R155) -/

namespace Sys2Proof.Machine

/-! The fields of a descriptor and the checks on them, read off its number (R104, R141 to R148). -/

theorem extractLsb'_eq_iff_div_mod {lo n : Nat} (d : BitVec 24) (v : BitVec n) :
    d.extractLsb' lo n = v ↔ d.toNat / 2 ^ lo % 2 ^ n = v.toNat := by
  rw [← BitVec.toNat_inj, BitVec.extractLsb'_toNat, Nat.shiftRight_eq_div_pow]

/-- A one-bit field that is not 0 is 1. -/
theorem extractLsb'_one_eq_zero_iff (lo : Nat) (d : BitVec 24) :
    d.extractLsb' lo 1 = 0#1 ↔ ¬ d.toNat / 2 ^ lo % 2 = 1 := by
  rw [extractLsb'_eq_iff_div_mod, BitVec.toNat_ofNat]
  omega

theorem checkCsIndex_iff (d : BitVec 24) : checkCsIndex d = true ↔ ¬ 2 < d.toNat / 2 ^ 16 := by
  simp only [checkCsIndex, descCsidx, csCount, decide_eq_true_eq, BitVec.extractLsb'_toNat, Nat.shiftRight_eq_div_pow]
  omega

theorem checkWordSize_iff (d : BitVec 24) : checkWordSize d = true ↔ d.toNat / 2 ^ 5 % 2 ^ 7 = 8 := by
  rw [checkWordSize, beq_iff_eq, descWsize, extractLsb'_eq_iff_div_mod]; rfl

theorem checkCsPolarity_iff (d : BitVec 24) : checkCsPolarity d = true ↔ ¬ d.toNat / 2 ^ 15 % 2 = 1 := by
  rw [checkCsPolarity, beq_iff_eq, descCshigh, extractLsb'_one_eq_zero_iff]

theorem checkLockOn_iff (d : BitVec 24) : checkLockOn d = true ↔ ¬ d.toNat / 2 ^ 14 % 2 = 1 := by
  rw [checkLockOn, beq_iff_eq, descLockon, extractLsb'_one_eq_zero_iff]

theorem checkLineMode_iff (d : BitVec 24) : checkLineMode d = true ↔ d.toNat / 2 ^ 12 % 2 ^ 2 = 0 := by
  rw [checkLineMode, beq_iff_eq, descLines, extractLsb'_eq_iff_div_mod]; rfl

theorem checkBitOrder_iff (d : BitVec 24) : checkBitOrder d = true ↔ ¬ d.toNat / 2 ^ 4 % 2 = 1 := by
  rw [checkBitOrder, beq_iff_eq, descLsbf, extractLsb'_one_eq_zero_iff]

theorem checkClockMode_iff (d : BitVec 24) :
    checkClockMode d = true ↔ ¬ (d.toNat / 2 % 2 = 1 ∨ d.toNat / 2 ^ 2 % 2 = 1) := by
  rw [checkClockMode, Bool.and_eq_true, beq_iff_eq, beq_iff_eq, descCpol, descCpha, extractLsb'_one_eq_zero_iff,
    extractLsb'_one_eq_zero_iff, pow_one, not_or]

theorem checkRole_iff (d : BitVec 24) : checkRole d = true ↔ ¬ d.toNat % 2 = 1 := by
  rw [checkRole, beq_iff_eq, descRole, extractLsb'_one_eq_zero_iff, pow_zero, Nat.div_one]

theorem encodingOf_eq (l : RegLayout) (d : BitVec 24) :
    encodingOf l d = { frame := l.frameValue, loopbk := decide (d.toNat / 2 ^ 3 % 2 = 1), autocs := false } := by
  rw [encodingOf, descLoop, beq_eq_decide, decide_eq_decide.mpr (extractLsb'_eq_iff_div_mod d 1#1)]; rfl

/-! The causes `validate` reports (R151). -/

/-- The causes of the eight checks, in the order of the checks (R141 to R148). -/
def checkCauses : List Cause :=
  [.csIndex, .wordSize, .csPolarity, .lockOn, .lineMode, .bitOrder, .clockMode, .role]

/-- A check in front of a chain adds its own cause to those the chain reports. -/
theorem mem_cons_of_ite_eq_err {b : Bool} {k c : Cause} {v : Validated} {ks : List Cause} (h : v = .err c → c ∈ ks)
    (he : (if b then .err k else v) = Validated.err c) : c ∈ k :: ks := by
  split at he
  · obtain rfl := Validated.err.inj he
    exact List.mem_cons_self
  · exact List.mem_cons_of_mem k (h he)

theorem mem_checkCauses_of_validate {l : RegLayout} {d : BitVec 24} {c : Cause} :
    validate l d = .err c → c ∈ checkCauses := by
  unfold validate
  iterate 8 refine mem_cons_of_ite_eq_err ?_
  exact nofun

theorem causeClass_of_mem_checkCauses :
    ∀ c ∈ checkCauses, causeClass c = if c = .csIndex then .range else .config := by decide

/-- Settles O9: each check of the chain read off the number, and the class of each cause in it. -/
theorem validateReportsTheFirstFailure : Obligations.ValidateReportsTheFirstFailure := by
  refine fun l d => ⟨?_, fun c h => causeClass_of_mem_checkCauses c (mem_checkCauses_of_validate h)⟩
  simp only [validate, Bool.not_eq_true', ← Bool.not_eq_true, checkCsIndex_iff, checkWordSize_iff, checkCsPolarity_iff,
    checkLockOn_iff, checkLineMode_iff, checkBitOrder_iff, checkClockMode_iff, checkRole_iff, not_not, encodingOf_eq,
    ne_eq]

/-! Phase VALIDATE (R153). -/

theorem execValidatePh_of_ok {s : State} {e : Enc} (h : validate s.cfg.lay (desc s) = .ok e) :
    execValidatePh s = .next (goto Ph.cfgCtrl { s with enc := e }) := by
  simp only [execValidatePh, h]

theorem execValidatePh_of_err {s : State} {c : Cause} (h : validate s.cfg.lay (desc s) = .err c) :
    execValidatePh s = .next (raise c s) := by
  simp only [execValidatePh, h]

/-- The status word is made of the class and the cause (R112). -/
theorem statusR0_toNat (c : Cause) :
    (statusR0 c).toNat = (classCode (causeClass c)).toNat * 2 ^ 8 + (causeCode c).toNat := by
  cases c <;> rfl

/-- Settles O23: the two ways `validate` can answer, an error being raised (R318). -/
theorem validatePhaseEncodesOrRaises : Obligations.ValidatePhaseEncodesOrRaises := fun _ =>
  ⟨fun _ h => execValidatePh_of_ok h, fun c h => ⟨statusR0 c, statusR0_toNat c, execValidatePh_of_err h⟩⟩

/-! Phases CFG_CTRL and CFG_FRAME (R154, R155). -/

/-- CFG_CTRL as one update of the state, the value read being `readCtrl`'s (R154). -/
theorem execCfgCtrl_eq (s : State) :
    execCfgCtrl s = .next (voidUnlessMode { s with
      ctl := { s.ctl with ctrl := ctrlUpdate s.cfg.lay (readCtrl s).1 s.enc }, ph := Ph.cfgFrame
      oracle := (readCtrl s).2.oracle
      history := .regWrite .ctrl (regAddr s.cfg .ctrl) (ctrlUpdate s.cfg.lay (readCtrl s).1 s.enc) ::
        .regRead .ctrl (regAddr s.cfg .ctrl) (readCtrl s).1 :: s.history }) := by
  simp only [execCfgCtrl]
  conv_lhs => rw [readCtrl_state]
  rfl

/-- The flag of a transaction is set where a platform's bit of CTRL is not as R355 (b) asks for (log 9). -/
theorem voidUnlessMode_txnVoid_iff {s : State} (h : s.cfg.lay.wf = true) :
    (voidUnlessMode s).ctl.txnVoid = true ↔ s.ctl.txnVoid = true ∨
      ∃ k, k ≠ s.cfg.lay.loopbkBit ∧ k ≠ s.cfg.lay.autocsBit ∧ s.ctl.ctrl.getLsbD k ≠ s.ctl.mode.getLsbD k := by
  rw [voidUnlessMode_ctl, Bool.or_eq_true, Bool.not_eq_true', ← Bool.not_eq_true, modeHolds_iff h]
  simp only [not_forall, exists_prop, ne_eq]

/-- What CFG_CTRL writes over CTRL's own value leaves the platform's bits, and so R355 (b), as they were (R122). -/
theorem modeHolds_ctrlUpdate {s t : State} (h : s.cfg.lay.wf = true) (hm : modeHolds s = true) {e : Enc}
    (hcfg : t.cfg = s.cfg) (hmode : t.ctl.mode = s.ctl.mode) (hctrl : t.ctl.ctrl = ctrlUpdate s.cfg.lay s.ctl.ctrl e) :
    modeHolds t = true := by
  rw [modeHolds_iff (hcfg ▸ h), hcfg, hmode, hctrl]
  intro k h1 h2
  rw [ctrlUpdate_getLsbD h, if_neg h1, if_neg h2]
  exact (modeHolds_iff h).mp hm k h1 h2

/-- Settles O24: the bits of `ctrlUpdate`, the value a read gives where the contract holds, and the test of R355 (b)
after the write. -/
theorem cfgCtrlWritesTwoBits : Obligations.CfgCtrlWritesTwoBits := by
  intro s hw
  have hl : s.cfg.lay.wf = true := (Config.wf_parts hw).2.2.2
  refine ⟨_, (readCtrl s).1, ctrlUpdate s.cfg.lay (readCtrl s).1 s.enc, execCfgCtrl_eq s, ctrlUpdate_getLsbD hl _ _,
    fun hc => ?_, rfl, voidUnlessMode_txnVoid_iff hl, rfl, rfl, rfl⟩
  obtain ⟨-, htxn, -, -, -, hmode, -⟩ := (contractHolds_iff s).mp hc
  have hold : (readCtrl s).1 = s.ctl.ctrl := by rw [readCtrl_of_contract hc]
  refine ⟨hold, by rw [voidUnlessMode_oracle, readCtrl_of_contract hc]; rfl, ?_⟩
  rw [voidUnlessMode_ctl, Bool.or_eq_false_iff, Bool.not_eq_false']
  exact ⟨htxn, modeHolds_ctrlUpdate hl hmode rfl rfl (congrArg (ctrlUpdate s.cfg.lay · s.enc) hold)⟩

/-- Settles O25: zero extension keeps the number of ENC.FRAME, and the write is the one to FRAME. -/
theorem cfgFrameWritesTheFrameFormat : Obligations.CfgFrameWritesTheFrameFormat := fun s =>
  ⟨s.enc.frame.setWidth 32, BitVec.toNat_setWidth_of_le (by decide), rfl⟩

end Sys2Proof.Machine

/-! ### The routing order (R175) -/

namespace Sys2Proof.Machine

/-! R175 speaks of the writes of the three routing registers only, so a step that makes none of them keeps it. -/

/-- A write of ROUTEPEN, ROUTELOC0 or ROUTELOC1. -/
@[simp] def isRouteWrite : Event → Bool
  | .regWrite .routepen _ _ | .regWrite .routeloc0 _ _ | .regWrite .routeloc1 _ _ => true
  | _ => false

/-- The writes of the routing registers in a history. -/
abbrev routeWrites (h : List Event) : List Event := h.filter isRouteWrite

theorem lastRoutepen_routeWrites (h : List Event) : lastRoutepen (routeWrites h) = lastRoutepen h := by
  fun_induction lastRoutepen h with
  | case1 => rfl
  | case2 => rfl
  | case3 e rest hne ih =>
    rw [routeWrites, List.filter_cons]
    split
    · exact (lastRoutepen.eq_3 _ _ hne).trans ih
    · exact ih

theorem routesSafely_routeWrites (h : List Event) : routesSafely (routeWrites h) ↔ routesSafely h := by
  fun_induction routesSafely h with
  | case1 => exact Iff.rfl
  | case2 _ _ rest ih | case3 _ _ rest ih =>
    exact and_congr (by rw [lastRoutepen_routeWrites]) ih
  | case4 e rest h0 h1 ih =>
    rw [routeWrites, List.filter_cons]
    split
    · exact (routesSafely.eq_4 _ _ h0 h1).to_iff.trans ih
    · exact ih

/-- A step that writes no routing register and enters neither location phase keeps the routing order. -/
theorem RouteInv.of_same_writes {s t : State} (h : RouteInv s) (hw : routeWrites t.history = routeWrites s.history)
    (hp : inPhases 16 17 t → inPhases 16 17 s) : RouteInv t where
  order := by rw [← routesSafely_routeWrites, hw, routesSafely_routeWrites]; exact h.order
  disabled ht := by rw [← lastRoutepen_routeWrites, hw, lastRoutepen_routeWrites]; exact h.disabled (hp ht)

/-- ROUTE_DISABLE makes ready for the two location phases, ROUTE_ENABLE comes after them, and no other phase writes a
routing register or leads into a location phase (R171 to R174, R286). -/
theorem PhaseCase.routeInv {s t : State} (hc : PhaseCase s t) (h : RouteInv s) : RouteInv t := by
  cases hc with
  | routeDisable _ ht => subst ht; exact ⟨h.order, fun _ => rfl⟩
  | routeLoc0 hp ht | routeLoc1 hp ht =>
    have hoff := h.disabled (by simp [inPhases, hp])
    subst ht
    exact ⟨⟨hoff, h.order⟩, fun _ => hoff⟩
  | routeEnable _ ht => subst ht; exact ⟨h.order, by simp [inPhases]⟩
  | setup p _ _ hn ht =>
    subst ht
    refine h.of_same_writes rfl fun hp => ?_
    split at hn <;> simp [inPhases, hn] at hp
  | rxStore _ _ _ ht | rxSkip _ _ ht =>
    subst ht
    refine h.of_same_writes (by simp) fun hp => ?_
    rw [inPhases, nextFrame_ph] at hp
    split at hp <;> simp at hp
  | _ => subst t; exact h.of_same_writes (by simp) (by simp [inPhases])

/-- A command writes no register of the controller (R284, R285, R287, R288). -/
theorem routeWrites_command {p : Packet} {i : Instr} {s t : State} (hd : decodePacket p = .instr i)
    (ht : exec i s = .next t) : routeWrites t.history = routeWrites s.history := by
  rcases decodePacket_cases hd with rfl | rfl | rfl | rfl | rfl
  · -- INIT
    obtain ⟨-, -, -, rfl⟩ := execInit_next ht
    rfl
  · -- CANRELEASE
    obtain ⟨-, rfl⟩ := execCanRelease_next ht
    rfl
  · -- VALIDATE
    obtain ⟨-, rfl⟩ := whenInited_next ht
    split <;> rfl
  · -- TRANSCEIVE
    obtain ⟨-, ⟨-, rfl⟩ | ⟨-, -, ⟨-, rfl⟩ | ⟨-, rfl⟩⟩⟩ := execTransceive_next ht <;> rfl
  · -- TRANSCEIVE_ASYNC
    obtain ⟨-, rfl⟩ := whenInited_next ht
    rfl

theorem HostPortStep.routeWrites_eq {c : Nat} {s t : State} (hc : HostPortStep c s t) :
    routeWrites t.history = routeWrites s.history := by
  cases hc with
  | nothing ht => rw [ht]
  | command e i _ hd _ ht => exact routeWrites_command (s := takePacket c s) hd ht
  | illegal e r _ _ ht =>
    obtain ⟨-, rfl⟩ := whenInited_next ht
    rfl

theorem Submitted.routeWrites_eq {c : Nat} {p : Packet} {s t : State} (hc : Submitted c p s t) :
    routeWrites t.history = routeWrites s.history := by
  cases hc <;> subst t <;> rfl

/-- Only the Sequencer writes a routing register in the history (R175; the accesses of other agents are not in it,
log 10). -/
theorem StepCase.routeWrites_eq {s t : State} (hc : StepCase s t) (hm : nextMove s ≠ .sequencer) :
    routeWrites t.history = routeWrites (afterMove s).history := by
  cases hc with
  | sequencer h _ _ _ => exact absurd h hm
  | hostPort c _ ht => exact ht.routeWrites_eq
  | submit c p _ ht => exact ht.submitted.routeWrites_eq
  | controller _ ht =>
    obtain he | ⟨csn, mosi, miso, route, he⟩ := completeFrame_history (afterMove s) <;> rw [ht, he]
    rfl
  | callerStore a b _ ht | platformWrite r v _ ht | platformRestore v _ ht => rw [ht]; rfl
  | platformRead r _ ht =>
    obtain ⟨y, o, hk⟩ := platformRead_state r (afterMove s)
    rw [ht, hk]
  | reset _ ht =>
    rw [ht, resetEvent_state]
    dsimp only
    split <;> rfl

/-- Settles O45: the phases keep the order one by one, a reset leaves the location phases, and the other agents neither
write a routing register in the history nor move PH. -/
theorem everyStepKeepsTheRoutingOrder : Obligations.EveryStepKeepsTheRoutingOrder := by
  intro s t h hst
  obtain ⟨-, hc⟩ := step_cases hst
  replace h : RouteInv (afterMove s) := h.of_same_writes (by simp) (by simp [inPhases])
  rcases hc.phase_or_kept with ⟨-, hp⟩ | ⟨hm, ht⟩ | ⟨hm, hk⟩
  · exact hp.routeInv h
  · exact h.of_same_writes (hc.routeWrites_eq (by simp [hm]))
      (by simp [inPhases, ht, resetEvent_state, State.resetWith])
  · have hph : t.ph = (afterMove s).ph := by rw [hk]
    exact h.of_same_writes (hc.routeWrites_eq hm) (by simp [inPhases, hph])

end Sys2Proof.Machine

/-! ### What the routing phases write and connect (R171 to R174, R46, R47, R259) -/

namespace Sys2Proof.Machine

/-! A byte put in a location field, and what the eight bits of that field and of one apart from it hold (R120). -/

theorem extractLsb'_byte_same {lo : Nat} (h : lo + 8 ≤ 32) (b : Byte) :
    (b.setWidth 32 <<< lo).extractLsb' lo 8 = b := by
  ext i hi
  simp [hi, show lo + i < 32 by omega]

theorem extractLsb'_byte_apart {lo k : Nat} (h : k + 8 ≤ lo ∨ lo + 8 ≤ k) (b : Byte) :
    (b.setWidth 32 <<< lo).extractLsb' k 8 = 0#8 := by
  ext i hi
  rcases h with h | h
  · simp [show k + i < lo by omega]
  · simp [BitVec.getLsbD_of_ge b (k + i - lo) (by omega)]

theorem BitRange.isByteField_iff (r : BitRange) : r.isByteField = true ↔ r.hi = r.lo + 7 ∧ r.hi < 32 := by
  simp [BitRange.isByteField]

theorem BitRange.apart_iff (r q : BitRange) : r.apart q = true ↔ r.hi < q.lo ∨ q.hi < r.lo := by
  simp [BitRange.apart]

/-- What an admitted layout says of the routing registers (R52, R121). -/
theorem RegLayout.wf_routing {l : RegLayout} (h : l.wf = true) :
    (∀ b ∈ l.penBits, b < 32) ∧
    l.routepenAll = 1#32 <<< l.rxpenBit ||| 1#32 <<< l.txpenBit ||| 1#32 <<< l.cspenBit ||| 1#32 <<< l.clkpenBit ∧
    (∀ r ∈ l.locFields, r.hi = r.lo + 7 ∧ r.hi < 32) ∧ l.locFields.Pairwise (fun r q => r.hi < q.lo ∨ q.hi < r.lo) := by
  simp only [RegLayout.wf, Bool.and_eq_true, decide_eq_true_eq, List.all_eq_true, BitRange.isByteField_iff,
    BitRange.apart_iff] at h
  obtain ⟨⟨⟨⟨-, hbits⟩, hall⟩, hbyte⟩, hapart⟩ := h
  exact ⟨hbits, hall, hbyte, hapart⟩

/-- Each role's field of the route-location value holds the code of that role (R120, R172). -/
theorem routeloc0Value_fields {c : Config} (h : c.lay.wf = true) :
    (routeloc0Value c).extractLsb' c.lay.rxLoc.lo 8 = c.pins.din.loc ∧
    (routeloc0Value c).extractLsb' c.lay.txLoc.lo 8 = c.pins.dout.loc ∧
    (routeloc0Value c).extractLsb' c.lay.csLoc.lo 8 = c.pins.cs.loc ∧
    (routeloc0Value c).extractLsb' c.lay.clkLoc.lo 8 = c.pins.clk.loc := by
  obtain ⟨-, -, hbyte, hapart⟩ := RegLayout.wf_routing h
  simp only [RegLayout.locFields, List.forall_mem_cons, List.pairwise_cons] at hbyte hapart
  obtain ⟨hrx, htx, hcs, hclk, -⟩ := hbyte
  obtain ⟨⟨hrt, hrc, hrk, -⟩, ⟨htc, htk, -⟩, ⟨hck, -⟩, -⟩ := hapart
  refine ⟨?_, ?_, ?_, ?_⟩ <;>
    simp (disch := omega) only [routeloc0Value, BitVec.extractLsb'_or, extractLsb'_byte_same, extractLsb'_byte_apart,
      BitVec.or_zero, BitVec.zero_or]

/-- The enable value sets the four enable bits and no other (R121). -/
theorem routepenAll_getLsbD {l : RegLayout} (h : l.wf = true) (k : Nat) :
    l.routepenAll.getLsbD k = decide (k ∈ l.penBits) := by
  obtain ⟨hbits, hall, -⟩ := RegLayout.wf_routing h
  simp only [RegLayout.penBits, List.forall_mem_cons] at hbits
  obtain ⟨hrx, htx, hcs, hclk, -⟩ := hbits
  simp [hall, RegLayout.penBits, getLsbD_one_shift _ _ hrx, getLsbD_one_shift _ _ htx, getLsbD_one_shift _ _ hcs,
    getLsbD_one_shift _ _ hclk, Bool.or_assoc]

/-- Settles O22: each phase is its one register write, and the two values are read bit by bit and field by field. -/
theorem routingPhasesWriteTheRoute : Obligations.RoutingPhasesWriteTheRoute := by
  intro s hw
  obtain ⟨-, -, -, hl⟩ := Config.wf_parts hw
  exact ⟨rfl, ⟨routeloc0Value s.cfg, rfl, routeloc0Value_fields hl⟩, rfl, rfl, routepenAll_getLsbD hl⟩

/-! Where the signals are connected, and what shows on the pins (R46, R47, R259). -/

/-- With ROUTEPEN = 0 every role is disconnected (R46). -/
theorem routeOf_of_disabled (l : RegLayout) {k : Controller} (h : k.routepen = 0#32) :
    routeOf l k = { clk := none, dout := none, din := none, cs := none } := by
  simp [routeOf, connection, h]

/-- With all enable bits set and the route-location value written, each role is connected at its code (R47, R120). -/
theorem routeOf_of_enabled {c : Config} (hl : c.lay.wf = true) {k : Controller} (hpen : k.routepen = c.lay.routepenAll)
    (hloc : k.routeloc0 = routeloc0Value c) :
    routeOf c.lay k = { clk := some c.pins.clk.loc, dout := some c.pins.dout.loc, din := some c.pins.din.loc
                        cs := some c.pins.cs.loc } := by
  obtain ⟨hrx, htx, hcs, hclk⟩ := routeloc0Value_fields hl
  simp [routeOf, connection, hpen, hloc, routepenAll_getLsbD hl, RegLayout.penBits, hrx, htx, hcs, hclk]

/-- With clock and data-out disconnected no edge shows on a pin (R259). -/
theorem pinEdges_of_disconnected {r : Route} (hd : r.dout = none) (hc : r.clk = none) (l : List Edge) :
    pinEdges r l = [] :=
  List.flatMap_eq_nil_iff.mpr fun e _ => by cases e <;> simp [pinsOf, hd, hc]

/-- With clock and data-out connected each edge shows once, at the code of its signal (R259). -/
theorem pinEdges_of_connected {r : Route} {d c : Byte} (hd : r.dout = some d) (hc : r.clk = some c) (l : List Edge) :
    pinEdges r l = l.map (fun e => match e with
      | .mosi x => (d, x)
      | .rise _ => (c, true)
      | .fall => (c, false)) := by
  rw [List.map_eq_flatMap]
  exact List.flatMap_congr fun e _ => by cases e <;> simp [pinsOf, hd, hc]

/-- The routing registers along the routing sequence (R171 to R174). -/
theorem routing_registers {s t1 t2 t3 t4 : State} (h1 : exec .routeDisable s = .next t1)
    (h2 : exec .routeLoc0 t1 = .next t2) (h3 : exec .routeLoc1 t2 = .next t3) (h4 : exec .routeEnable t3 = .next t4) :
    (∀ t ∈ [t1, t2, t3], t.ctl.routepen = 0#32) ∧ t4.cfg = s.cfg ∧ t4.ctl.routepen = s.cfg.lay.routepenAll ∧
    t4.ctl.routeloc0 = routeloc0Value s.cfg := by
  obtain rfl := Host.Outcome.next.inj h1
  obtain rfl := Host.Outcome.next.inj h2
  obtain rfl := Host.Outcome.next.inj h3
  obtain rfl := Host.Outcome.next.inj h4
  simp [ctlWrite]

/-- Settles O58: ROUTEPEN is 0 from ROUTE_DISABLE on, and ROUTE_ENABLE sets its four bits over the codes ROUTE_LOC0
wrote. -/
theorem routingConnectsTheRoles : Obligations.RoutingConnectsTheRoles := by
  intro s t1 t2 t3 t4 hw h1 h2 h3 h4
  obtain ⟨-, -, -, hl⟩ := Config.wf_parts hw
  obtain ⟨hoff, hcfg, hpen, hloc⟩ := routing_registers h1 h2 h3 h4
  have hon := routeOf_of_enabled hl hpen hloc
  rw [← hcfg] at hon ⊢
  refine ⟨fun t ht => ?_, hon, fun b miso => ?_⟩
  · rw [routeOf_of_disabled t.cfg.lay (hoff t ht)]
    exact ⟨rfl, fun b miso => pinEdges_of_disconnected rfl rfl _⟩
  · rw [hon]
    exact pinEdges_of_connected rfl rfl _

end Sys2Proof.Machine

/-! ### SETUP, COMPLETE, and the guard with NONBLOCKING = 1 (R191, R193, R195, R197) -/

namespace Sys2Proof.Machine

/-! Phase SETUP (R195). -/

/-- CNT read off the number of the first packet word (R104). -/
theorem cnt_eq_pairCount_iff (p : Packet) : p.cnt = pairCount ↔ p.w0.toNat / 2 ^ 24 % 16 = 1 := by
  rw [Packet.cnt, pairCount, ← BitVec.toNat_inj, BitVec.extractLsb'_toNat, Nat.shiftRight_eq_div_pow]
  rfl

theorem execSetup_of_badCount {s : State} (h : s.cmdbuf.cnt ≠ pairCount) : execSetup s = .next (raise .pairCount s) := by
  rw [execSetup, if_pos h]

theorem execSetup_of_pairCount {s : State} (h : s.cmdbuf.cnt = pairCount) :
    execSetup s = .next { s with
      ctx := { s.ctx with txPtr := s.cmdbuf.w1, txLen := s.cmdbuf.w2, rxPtr := s.cmdbuf.w3, rxLen := s.cmdbuf.w4
                          done := false }
      xstat := 0x00#8, idx := 0#32
      ph := if maxLen s.cmdbuf.w2 s.cmdbuf.w4 = 0#32 then Ph.complete else Ph.csAssert } := by
  rw [execSetup, if_neg (not_not.mpr h)]
  rfl

theorem maxLen_eq_zero_iff (a b : Word) : maxLen a b = 0#32 ↔ max a.toNat b.toNat = 0 := by
  rw [← BitVec.toNat_inj, maxLen_toNat]
  rfl

/-- Settles O26: the count decides between `raise` (R318) and the record of the buffers, the longest length between the
two phases that can follow. -/
theorem setupRecordsTheBuffers : Obligations.SetupRecordsTheBuffers := by
  intro s
  rw [ne_eq, ← cnt_eq_pairCount_iff]
  refine ⟨fun h => execSetup_of_badCount h, fun h => ⟨_, execSetup_of_pairCount h, rfl, rfl, rfl, ?_, ?_, rfl⟩⟩
  · exact fun hz => if_pos ((maxLen_eq_zero_iff _ _).mpr hz)
  · exact fun hpos => if_neg fun hz => hpos.ne' ((maxLen_eq_zero_iff _ _).mp hz)

/-- Settles O34: RESULT and the response carry the one word `completeR0` makes of XSTAT. -/
theorem completeReportsAndReleases : Obligations.CompleteReportsAndReleases := fun s => ⟨completeR0 s.xstat, rfl, rfl⟩

/-! Command TRANSCEIVE while the guard is held (R193). -/

theorem execTransceive_of_busy {s : State} (hi : s.inited = true) (hb : busyNow s = true) (cnt : BitVec 4)
    (d : BitVec 24) (tp tl rp rl : Word) :
    execTransceive cnt d tp tl rp rl s = .next (hostAnswer .contextEngaged 0#32 s) := by
  simp [execTransceive, hi, hb]

/-- Settles O14: the two hypotheses on the guard are the BUSY test (R193), whose answer is (0x30A, 0). -/
theorem transceiveIsAnsweredBusy : Obligations.TransceiveIsAnsweredBusy := by
  intro cnt d tp tl rp rl s hi hl hn
  have hb : busyNow s = true := by rw [busyNow, hl, hn]; rfl
  exact execTransceive_of_busy hi hb cnt d tp tl rp rl

/-! What an acceptance says of the contract (R265, R355, R366). -/

theorem noneAccepted_iff (s : State) : noneAccepted s = true ↔ s.cmdbuf.w0.toNat / 2 ^ 28 ≠ 3 := by
  rw [noneAccepted, bne_iff_ne, ne_eq, op_eq_iff]
  rfl

/-- R355 (c) fails by one of its bits, TXC counting before the first TRANSCEIVE only. -/
theorem readyToAccept_eq_false_iff (s : State) :
    readyToAccept s = false ↔ s.ctl.txidle = false ∨ s.ctl.inflight = true ∨ s.ctl.rxready = true ∨
      (noneAccepted s = true ∧ s.ctl.txc = true) := by
  cases hn : noneAccepted s <;> simp [readyToAccept, hn, readyForFirst, idleAndEmpty, imp_iff_not_or, or_assoc]

/-- The model's test at an acceptance is what the statements call having no contract. -/
theorem voidAtAcceptance_iff (p : Packet) (s : State) : voidAtAcceptance p s = true ↔ NoContractWith p s := by
  simp only [voidAtAcceptance, packetOverlaps, Bool.or_eq_true, Bool.not_eq_true', readyToAccept_eq_false_iff,
    noneAccepted_iff, NoContractWith, or_assoc]
  rfl

/-- An acceptance tests the contract, whatever the supply (R366). -/
theorem contractTested_acquire (w : Pending) (s : State) (o : Oracle) :
    ContractTested w.packet s (acquire w { s with oracle := o }) := by
  have htxn : (acquire w { s with oracle := o }).ctl.txnVoid = true ↔ NoContractWith w.packet s :=
    voidAtAcceptance_iff w.packet s
  have hvoid : (acquire w { s with oracle := o }).ctl.isVoid = true ↔
      s.ctl.isVoid = true ∨ (s.cmdbuf.w0.toNat / 2 ^ 28 ≠ 3 ∧ NoContractWith w.packet s) := by
    rw [← noneAccepted_iff, ← voidAtAcceptance_iff, ← Bool.and_eq_true, ← Bool.or_eq_true]
    rfl
  have hhang : s.faultHang = true → NoContractWith w.packet s := .inl
  refine ⟨rfl, htxn, hvoid, ?_⟩
  rw [ctlVoid, Bool.or_eq_true, Bool.or_eq_true, htxn, hvoid, acquire_faultHang]
  tauto

/-! Whom an IDLE step accepts (R291). -/

/-- The model's test of an unanswered packet in the words of the statements (R75, R290). -/
theorem unanswered_iff (e : Pending) :
    unanswered e = true ↔ e.packet.w0.toNat / 2 ^ 28 = 3 ∧ BuffersFit e.packet := by
  rw [unanswered, Bool.and_eq_true, beq_iff_eq, op_eq_iff, buffersFit_iff]
  rfl

/-- With NONBLOCKING = 1 the candidates are the acceptable ones (R193, R290). -/
theorem mem_candidates_iff_acceptable {s : State} (h : s.cfg.nonblocking = true) (w : Pending) :
    w ∈ candidates s ↔ Acceptable w s := by
  rw [candidates_of_nonblocking h, List.mem_append, List.mem_filter, unanswered_iff]
  rfl

/-- With the guard free an IDLE step is the acceptance (R291). -/
theorem execIdle_of_free {s : State} (hi : s.inited = true) (hl : s.ctx.lock = false) :
    execIdle s = .next (acceptWaiter s) := by
  simp [execIdle, hi, hl]

/-- If there is a candidate, one is accepted, and but for the supply nothing else changes (R191, R194). -/
theorem acceptWaiter_of_mem {s : State} {w : Pending} (hw : w ∈ candidates s) :
    ∃ v ∈ candidates s, ∃ o, acceptWaiter s = acquire v { s with oracle := o } := by
  obtain ⟨hnone, -⟩ | ⟨v, hv, he | he⟩ := acceptWaiter_cases s
  · exact absurd hw (hnone ▸ List.not_mem_nil)
  · exact ⟨v, hv, s.oracle, he⟩
  · exact ⟨v, hv, (drawPick s).2.oracle, by rw [he, ← drawPick_state]⟩

/-- Without a candidate it stays in IDLE. -/
theorem acceptWaiter_of_not_mem {s : State} (h : ∀ w, w ∉ candidates s) : acceptWaiter s = goto Ph.idle s := by
  obtain ⟨-, he⟩ | ⟨w, hw, -⟩ := acceptWaiter_cases s
  · exact he
  · exact absurd hw (h w)

/-- With NONBLOCKING = 1 the accepted caller's entry leaves both places it may stand in, and no other entry does (R191;
log 12). -/
theorem findPending_acquire_of_nonblocking {s : State} (hn : s.cfg.nonblocking = true) (w : Pending) :
    findPending w.caller (acquire w s).offered = none ∧ findPending w.caller (acquire w s).pending = none ∧
    ∀ c, c ≠ w.caller → findPending c (acquire w s).offered = findPending c s.offered ∧
      findPending c (acquire w s).pending = findPending c s.pending := by
  rw [acquire_offered, acquire_pending, if_pos hn, if_pos hn]
  exact ⟨findPending_erase_same _ _, findPending_erase_same _ _,
    fun c hc => ⟨findPending_erase_other hc _, findPending_erase_other hc _⟩⟩

/-- WAITERS being empty, an acceptance leaves it so. -/
theorem acquire_of_waiters_nil {s : State} (h : s.waiters = []) (w : Pending) :
    acquire w s = { acquire w s with waiters := s.waiters } := by
  have hw : (acquire w s).waiters = s.waiters := by rw [acquire_waiters, h]; rfl
  exact congrArg (fun l => { acquire w s with waiters := l }) hw

/-- Settles O56: an IDLE step with the guard free is an acceptance, its candidates are the acceptable ones, and the supply
can pick any of them (R194). -/
theorem idleAcceptsAnOfferedPacket : Obligations.IdleAcceptsAnOfferedPacket := by
  intro s hi hl hn hempty
  simp only [← mem_candidates_iff_acceptable hn]
  refine ⟨fun ⟨w, hw⟩ => ⟨?_, fun v hv => ?_⟩, fun hnone => ?_⟩
  · obtain ⟨v, hv, o, he⟩ := acceptWaiter_of_mem hw
    obtain ⟨hoff, hpend, hothers⟩ := findPending_acquire_of_nonblocking (s := { s with oracle := o }) hn v
    exact ⟨acquire v { s with oracle := o }, v, hv, (execIdle_of_free hi hl).trans (congrArg _ he), rfl, rfl, rfl, rfl,
      hoff, hpend, hothers, contractTested_acquire v s o, acquire_of_waiters_nil (s := { s with oracle := o }) hempty v⟩
  · obtain ⟨o, o', he⟩ := acceptWaiter_any hv
    exact ⟨o, _, (execIdle_of_free (s := { s with oracle := o }) hi hl).trans (congrArg _ he), rfl, rfl⟩
  · exact (execIdle_of_free hi hl).trans (congrArg _ (acceptWaiter_of_not_mem (not_exists.mp hnone)))

end Sys2Proof.Machine

/-! ### The frame loop: chip select, the five phases of a frame, and the hang path (R211 to R217) -/

namespace Sys2Proof.Machine

/-! Phases CS_ASSERT and CS_DEASSERT (R211, R217). -/

/-- CSIDX read off the number of the first packet word (R22, R104). -/
theorem descCsidx_toNat (s : State) : (descCsidx (desc s)).toNat = s.cmdbuf.w0.toNat / 2 ^ 16 % 2 ^ 8 := by
  rw [descCsidx, desc, desc_eq_ofNat, BitVec.extractLsb'_toNat, BitVec.toNat_ofNat, Nat.shiftRight_eq_div_pow]
  omega

/-- Settles O27: the line `csnFor` pulls low is the one CSIDX numbers, and CS_DEASSERT writes the same value
whatever the state. -/
theorem chipSelectPhasesDriveOneLine : Obligations.ChipSelectPhasesDriveOneLine := fun s =>
  ⟨fun _ => ⟨csnFor (descCsidx (desc s)), fun k hk => descCsidx_toNat s ▸ csnFor_getLsbD _ k hk, rfl⟩, rfl⟩

/-! Phase TX_FETCH (R212). -/

/-- A byte of a buffer that fits the address space has an address there (R71, R75). -/
theorem bufferByte_lt_addrSpace {p i l : Nat} (hi : i < l) (hfit : p + l ≤ 2 ^ 32) : p + i < addrSpace := by
  rw [addrSpace]
  omega

theorem execTxFetch_of_read {s s' : State} {b : Byte} (hl : s.idx.toNat < s.ctx.txLen.toNat)
    (hr : memRead (txAddr s) s = some (b, s')) : execTxFetch s = .next (goto Ph.txWrite { s' with txb := b }) := by
  rw [execTxFetch, if_pos (BitVec.lt_def.mpr hl), hr]

theorem execTxFetch_of_exhausted {s : State} (hl : s.ctx.txLen.toNat ≤ s.idx.toNat) :
    execTxFetch s = .next (goto Ph.txWrite { s with txb := dummyByte }) := by
  rw [execTxFetch, if_neg (BitVec.not_lt.mpr (BitVec.le_def.mpr hl))]

/-- Settles O28: a byte of the buffer has an address, so MemRead answers, with memory's byte or inside the window with
some byte; past TXLEN nothing is read. -/
theorem txFetchReadsOrPads : Obligations.TxFetchReadsOrPads := by
  refine fun s => ⟨fun hl hfit hw => ?_, fun hl hfit hw => ?_, fun hl => execTxFetch_of_exhausted hl⟩
  · exact execTxFetch_of_read hl (memRead_of_lt s (bufferByte_lt_addrSpace hl hfit) hw)
  · obtain ⟨b, o, hr⟩ := memRead_of_window s (bufferByte_lt_addrSpace hl hfit) hw
    exact ⟨b, o, execTxFetch_of_read hl hr⟩

/-! Phase TX_WRITE (R213, R251). -/

/-- A byte written to TXDATA starts a frame that carries it (R251). -/
theorem ctlWrite_txdata (b : Byte) (k : Controller) :
    ctlWrite .txdata (b.setWidth 32) k =
      { k with txframe := b, srOut := b, inflight := true, txc := false, txidle := false } := by
  rw [ctlWrite, BitVec.setWidth_setWidth_of_le b (by decide), BitVec.setWidth_eq]

/-- TX_WRITE starts a frame unless R251 gives the write no meaning (R213). -/
theorem execTxWrite_of_allowed {s : State} (h : (contractHolds s && s.ctl.inflight) = false) :
    execTxWrite s = .next { s with
      ctl := { s.ctl with txframe := s.txb, srOut := s.txb, inflight := true, txc := false, txidle := false }
      pollcnt := 0, ph := Ph.pollTxc
      history := .regWrite .txdata (regAddr s.cfg .txdata) (s.txb.setWidth 32) :: s.history } := by
  rw [execTxWrite, h, ← ctlWrite_txdata]
  rfl

/-- Settles O29: with no frame in flight the write has its meaning. -/
theorem txWriteStartsAFrame : Obligations.TxWriteStartsAFrame := fun s hq =>
  ⟨_, execTxWrite_of_allowed (by rw [hq, Bool.and_false]), rfl, rfl, rfl,
    ⟨s.txb.setWidth 32, BitVec.toNat_setWidth_of_le (by decide), rfl⟩, rfl⟩

/-- Settles O57: without the contract the write is made whether or not a frame is in flight. -/
theorem txWriteWithoutAContract : Obligations.TxWriteWithoutAContract := fun s hc _ =>
  ⟨_, execTxWrite_of_allowed (by rw [hc, Bool.false_and]), rfl, rfl, rfl,
    ⟨s.txb.setWidth 32, BitVec.toNat_setWidth_of_le (by decide), rfl⟩, rfl⟩

/-! Phase POLL_TXC (R214). -/

/-- The state after POLL_TXC. -/
def afterPoll (s : State) : State :=
  if (readStatus s).1.txc then goto Ph.rxRead (readStatus s).2
  else if pollLimitReached s.cfg s.pollcnt then hang (readStatus s).2
  else goto Ph.pollTxc { (readStatus s).2 with pollcnt := pollCountNext s.cfg s.pollcnt }

theorem execPollTxc_eq (s : State) : execPollTxc s = .next (afterPoll s) := rfl

/-- However it ends, POLL_TXC makes one access, the read of STATUS. -/
theorem afterPoll_history (s : State) :
    (afterPoll s).history = .regRead .status (regAddr s.cfg .status) (readStatus s).1.word :: s.history := by
  rw [← readStatus_history, afterPoll]
  split
  · rfl
  · split <;> rfl

theorem afterPoll_of_seen {s : State} (hr : (readStatus s).1.txc = true) :
    afterPoll s = { s with ph := Ph.rxRead, history := (afterPoll s).history, oracle := (afterPoll s).oracle } := by
  rw [afterPoll, if_pos hr, readStatus_state]
  rfl

theorem afterPoll_of_limit {s : State} (hr : (readStatus s).1.txc = false)
    (hl : pollLimitReached s.cfg s.pollcnt = true) :
    afterPoll s = { s with
      ph := Ph.csDeassert, xstat := causeCode .txcTimeout, faultHang := true, ctl := { s.ctl with isVoid := true }
      history := (afterPoll s).history, oracle := (afterPoll s).oracle } := by
  rw [afterPoll, if_neg (Bool.eq_false_iff.mp hr), if_pos hl, readStatus_state]
  rfl

theorem afterPoll_of_again {s : State} (hr : (readStatus s).1.txc = false)
    (hl : pollLimitReached s.cfg s.pollcnt = false) :
    afterPoll s = { s with
      ph := Ph.pollTxc, pollcnt := pollCountNext s.cfg s.pollcnt
      history := (afterPoll s).history, oracle := (afterPoll s).oracle } := by
  rw [afterPoll, if_neg (Bool.eq_false_iff.mp hr), if_neg (Bool.eq_false_iff.mp hl), readStatus_state]
  rfl

/-- With POLL_LIMIT = INFINITE no read is the last and none is counted (R214). -/
theorem pollLimit_of_none {c : Config} (h : c.pollLimit = none) (k : Nat) :
    pollLimitReached c k = false ∧ pollCountNext c k = k := by
  rw [pollLimitReached, pollCountNext, h]
  exact ⟨rfl, rfl⟩

/-- With a finite POLL_LIMIT the reads are counted up to it (R214). -/
theorem pollLimit_of_some {c : Config} {n : Nat} (h : c.pollLimit = some n) (k : Nat) :
    pollLimitReached c k = decide (n ≤ k + 1) ∧ pollCountNext c k = k + 1 := by
  rw [pollLimitReached, pollCountNext, h]
  exact ⟨rfl, rfl⟩

/-- Settles O31: the bits of the word read are those POLL_TXC tests, and POLL_LIMIT decides whether an unset TXC is
polled again or is the hang. -/
theorem pollTxcReadsStatusOnce : Obligations.PollTxcReadsStatusOnce := by
  intro s hw
  obtain ⟨htxc, hidle, hctl⟩ := readStatus_bits s hw
  refine ⟨afterPoll s, (readStatus s).1.word, execPollTxc_eq s, afterPoll_history s, ?_, ?_⟩
  · rw [htxc, hidle]; exact hctl
  rw [htxc]
  refine ⟨afterPoll_of_seen, fun hr hn => ?_, fun n hr hn hlt => ?_, fun n hr hn hle => ?_⟩
  · obtain ⟨hreached, hcount⟩ := pollLimit_of_none hn s.pollcnt
    have hagain := afterPoll_of_again hr hreached
    rwa [hcount] at hagain
  · obtain ⟨hreached, hcount⟩ := pollLimit_of_some hn s.pollcnt
    have hagain := afterPoll_of_again hr (hreached.trans (decide_eq_false (by omega)))
    rwa [hcount] at hagain
  · exact afterPoll_of_limit hr ((pollLimit_of_some hn s.pollcnt).1.trans (decide_eq_true hle))

/-! Phase RX_READ (R215, R254). -/

theorem readRxdata_state (s : State) :
    (readRxdata s).2 = { s with
      ctl := { s.ctl with rxready := rxreadyAfterRead s (drawWord s).1 }, oracle := (readRxdata s).2.oracle
      history := .regRead .rxdata (regAddr s.cfg .rxdata) ((readRxdata s).1.setWidth 32) :: s.history } := by
  simp only [readRxdata]
  split
  · rfl
  · rw [drawWord_state]; rfl

/-- Settles O32: RX_READ is the read of RXDATA, of which the contract says what it returns and that RXREADY is cleared. -/
theorem rxReadTakesTheReceivedByte : Obligations.RxReadTakesTheReceivedByte := by
  refine fun s => ⟨goto Ph.rxStore { (readRxdata s).2 with rxb := (readRxdata s).1 }, (readRxdata s).1.setWidth 32, rfl,
    BitVec.toNat_setWidth_of_le (by decide), readRxdata_of_ready, readRxdata_history s, fun hc => ?_, ?_⟩
  · rw [goto_ctl, readRxdata_ctl]
    exact rxreadyAfterRead_of_contract hc _
  · rw [readRxdata_state]
    rfl

/-! Phase RX_STORE (R216). -/

theorem execRxStore_of_lt {s : State} (hl : s.idx.toNat < s.ctx.rxLen.toNat) (ha : rxAddr s < addrSpace) :
    execRxStore s = .next (nextFrame { s with
      mem := s.mem.write (rxAddr s) s.rxb, history := .memWrite (rxAddr s) s.rxb :: s.history }) := by
  rw [execRxStore, if_pos (BitVec.lt_def.mpr hl), memWrite_of_lt _ _ ha]

theorem execRxStore_of_le {s : State} (hl : s.ctx.rxLen.toNat ≤ s.idx.toNat) : execRxStore s = .next (nextFrame s) := by
  rw [execRxStore, if_neg (BitVec.not_lt.mpr (BitVec.le_def.mpr hl))]

/-- The loop test (R216): a further frame below the longer of the two lengths, else the end of the loop. -/
theorem nextFrame_loop (s : State) :
    (s.idx.toNat + 1 < max s.ctx.txLen.toNat s.ctx.rxLen.toNat → (nextFrame s).ph = Ph.txFetch) ∧
    (max s.ctx.txLen.toNat s.ctx.rxLen.toNat ≤ s.idx.toNat + 1 → (nextFrame s).ph = Ph.csDeassert) := by
  rw [nextFrame_ph, longest, maxLen_toNat]
  exact ⟨fun h => if_pos h, fun h => if_neg h.not_gt⟩

/-- Settles O33: below RXLEN the store is one write of memory, past it nothing is stored, and `nextFrame` counts the frame
in either case. -/
theorem rxStoreStoresWithinTheBuffer : Obligations.RxStoreStoresWithinTheBuffer := by
  intro s hwf hfit
  obtain ⟨hmore, hend⟩ := nextFrame_loop s
  obtain hl | hl := Nat.lt_or_ge s.idx.toNat s.ctx.rxLen.toNat
  · exact ⟨_, execRxStore_of_lt hl (bufferByte_lt_addrSpace hl hfit),
      fun _ => ⟨Memory.read_write_same hwf, fun _ hother => Memory.read_write_other hother, rfl, rfl⟩,
      fun hle => absurd hl hle.not_gt, rfl, hmore, hend, rfl⟩
  · exact ⟨_, execRxStore_of_le hl, fun hlt => absurd hl hlt.not_ge, fun _ => ⟨rfl, fun _ => rfl, rfl⟩,
      rfl, hmore, hend, rfl⟩

end Sys2Proof.Machine

/-! ### The release query (files 44 and 46) -/

namespace Sys2Proof.Machine

theorem whenInited_of_inited {s : State} (h : s.inited = true) (t : State) : whenInited s t = .next t := if_pos h

/-- Settles O13: CANRELEASE answers by the TXIDLE bit of the one STATUS word it reads (R240), and where the contract
holds that word shows the controller's bits (R255). -/
theorem canReleaseAnswersByTxidle : Obligations.CanReleaseAnswersByTxidle := by
  intro s hi hw
  obtain ⟨t, ht⟩ : ∃ t, execCanRelease s = .next t := ⟨_, whenInited_of_inited hi _⟩
  obtain ⟨htxc, hidle, hctl⟩ := readStatus_bits s hw
  obtain ⟨-, rfl⟩ := execCanRelease_next ht
  refine ⟨_, (readStatus s).1.word, ht, rfl, ?_, ?_⟩
  · rw [hidle]; rfl
  · rw [htxc, hidle]; exact fun hc => (hctl hc).symm

end Sys2Proof.Machine

/-! ### The serial controller (file 45) -/

namespace Sys2Proof.Machine

/-! A TXDATA write during a frame (R251). -/

/-- Settles O30: the contract and a frame in flight are the two conditions of the refusal of `execTxWrite`. -/
theorem txWriteInFlightHasNoMeaning : Obligations.TxWriteInFlightHasNoMeaning := fun _ hc hi =>
  if_pos (Bool.and_eq_true_iff.mpr ⟨hc, hi⟩)

/-! The controller's own step (R252, R256, R262). -/

theorem step_of_controller {s : State} (hw : s.cfg.wf = true) (hm : nextMove s = .controller) :
    step s = .next (completeFrame (afterMove s)) :=
  step_of_done (by simp [turn, hw, hm])

/-- The byte a frame in flight delivers: in loopback the byte sent (R256), else the slave's (R262). -/
def receivedByte (s : State) : Byte := if ctlLoopbk s then s.ctl.txframe else (drawByte s).1

theorem receivedByte_of_loopback {s : State} (h : ctlLoopbk s = true) : receivedByte s = s.ctl.txframe := if_pos h

theorem receivedByte_of_slave {s : State} (h : ctlLoopbk s = false) : receivedByte s = (drawByte s).1 :=
  if_neg (Bool.eq_false_iff.mp h)

@[simp] theorem ctlLoopbk_afterMove (s : State) : ctlLoopbk (afterMove s) = ctlLoopbk s := by
  rw [ctlLoopbk, afterMove_ctl, afterMove_cfg, ctlLoopbk]

theorem completeFrame_of_inflight {s : State} (hc : contractHolds s = true) (hi : s.ctl.inflight = true) :
    completeFrame s =
      finishFrame (receivedByte s) s.ctl.txframe (receivedByte s) { s with oracle := (completeFrame s).oracle } := by
  cases hl : ctlLoopbk s with
  | true => simp [completeFrame, receivedByte_of_loopback hl, hc, hi, hl]
  | false =>
    simp only [completeFrame, receivedByte_of_slave hl, hc, hi, hl, Bool.not_true, Bool.false_eq_true, if_false,
      finishFrame_oracle]
    rw [← drawByte_state]

theorem completeFrame_of_idle {s : State} (hc : contractHolds s = true) (hi : s.ctl.inflight = false) :
    completeFrame s = s := by
  simp [completeFrame, hc, hi]

/-- Settles O36: with no frame in flight `completeFrame` leaves the state with the move taken off as it is. -/
theorem noFrameNoCompletion : Obligations.NoFrameNoCompletion := by
  intro s ⟨hw, hm⟩ hc hi
  rw [step_of_controller hw hm, completeFrame_of_idle (by rwa [contractHolds_afterMove]) (by rwa [afterMove_ctl])]

/-- Settles O35: the step is `finishFrame` with the byte received, and taking the move off the agenda touches nothing the
frame depends on. -/
theorem frameCompletionDeliversAByte : Obligations.FrameCompletionDeliversAByte := by
  intro s ⟨hw, hm⟩ hc hi
  have hframe := completeFrame_of_inflight (s := afterMove s) (by rwa [contractHolds_afterMove]) (by rwa [afterMove_ctl])
  refine ⟨_, receivedByte (afterMove s), step_of_controller hw hm, fun hl => ?_, fun hl => ?_, ?_, ?_, ?_⟩
  · rw [receivedByte_of_loopback (by rwa [ctlLoopbk_afterMove]), afterMove_ctl]
  · exact receivedByte_of_slave (by rwa [ctlLoopbk_afterMove])
  · rw [hframe]; simp
  · rw [hframe]; simp
  · rw [completeFrame_state, afterMove_state]

/-! The edges of a frame (R260, R261). -/

/-- The last `n` pulses of a frame, those of bits `n - 1` down to 0. -/
def lastPulses (loopbk : Bool) (b miso : Byte) : Nat → List Edge
  | 0 => []
  | n + 1 => pulse loopbk b miso n ++ lastPulses loopbk b miso n

theorem frameEdges_eq_lastPulses (loopbk : Bool) (b miso : Byte) : frameEdges loopbk b miso = lastPulses loopbk b miso 8 := rfl

/-- One pulse shifts in one bit, in loopback the one sent, else the one at data-in. -/
theorem shiftIn_pulse (loopbk : Bool) (b miso : Byte) (k : Nat) (rest : List Edge) (r : Byte) :
    shiftIn (pulse loopbk b miso k ++ rest) r =
      shiftIn rest (r <<< 1 ||| (if (if loopbk then b else miso).getLsbD k then 1#8 else 0#8)) := by
  cases loopbk <;> rfl

/-- A bit shifted in is bit 0, and the bits held move up by one. -/
theorem getLsbD_shiftedIn (r : Byte) (x : Bool) {j : Nat} (hj : j < 8) :
    (r <<< 1 ||| (if x then 1#8 else 0#8)).getLsbD j = if j = 0 then x else r.getLsbD (j - 1) := by
  cases j with
  | zero => cases x <;> simp
  | succ j => cases x <;> simp [hj, BitVec.getLsbD_eq_getElem (Nat.lt_of_succ_lt hj)]

/-- After the pulses of bits `n - 1` to 0 the register's low `n` bits are those sampled, and what it held has moved up by
`n`. -/
theorem getLsbD_shiftIn_lastPulses (loopbk : Bool) (b miso : Byte) {j : Nat} (hj : j < 8) :
    ∀ (n : Nat) (r : Byte), (shiftIn (lastPulses loopbk b miso n) r).getLsbD j =
      if j < n then (if loopbk then b else miso).getLsbD j else r.getLsbD (j - n)
  | 0, r => rfl
  | n + 1, r => by
    rw [lastPulses, shiftIn_pulse, getLsbD_shiftIn_lastPulses loopbk b miso hj n, getLsbD_shiftedIn _ _ (by omega)]
    obtain hlt | rfl | hgt := Nat.lt_trichotomy j n
    · rw [if_pos hlt, if_pos (Nat.lt_succ_of_lt hlt)]
    · simp
    · rw [if_neg (by omega), if_neg (by omega), if_neg (by omega), Nat.sub_sub]

/-- Settles O37: eight pulses replace every bit the register held, and the edges of the clock and the bits at data-out can
be read off the list. -/
theorem edgesOfAFrameMakeTheByte : Obligations.EdgesOfAFrameMakeTheByte := by
  refine fun loopbk b miso r0 => ⟨BitVec.eq_of_getLsbD_eq fun j hj => ?_, rfl, rfl⟩
  rw [frameEdges_eq_lastPulses, getLsbD_shiftIn_lastPulses loopbk b miso hj, if_pos hj]

end Sys2Proof.Machine

/-! ### Every packet gets one response (R292, R350, R371) -/

namespace Sys2Proof.Machine

/-! The balance speaks of the submissions and the responses in a history only. -/

/-- A submission or a response. -/
@[simp] def isExchange : Event → Bool
  | .submit _ _ | .resp _ _ _ => true
  | _ => false

/-- The submissions and the responses in a history. -/
def exchanges (h : List Event) : List Event := h.filter isExchange

@[simp] theorem exchanges_cons (e : Event) (h : List Event) :
    exchanges (e :: h) = if isExchange e then e :: exchanges h else exchanges h := List.filter_cons

theorem submitsOf_exchanges (c : Nat) (h : List Event) : submitsOf c (exchanges h) = submitsOf c h := by
  induction h with
  | nil => rfl
  | cons e rest ih => cases e <;> simp [submitsOf, ih]

theorem responsesTo_exchanges (c : Nat) (h : List Event) : responsesTo c (exchanges h) = responsesTo c h := by
  induction h with
  | nil => rfl
  | cons e rest ih => cases e <;> simp [responsesTo, ih]

theorem responseSent_exchanges (c : Nat) (h : List Event) : responseSent c (exchanges h) = responseSent c h := by
  induction h with
  | nil => rfl
  | cons e rest ih => cases e <;> simp [responseSent, ih]

/-- What a step does to the packets and the responses of the callers: nothing, or one caller's packet is submitted and
held from then on, or one caller's held packet is answered (R292). -/
inductive PacketMove (s t : State) : Prop where
  | nothing (hh : exchanges t.history = exchanges s.history) (hp : ∀ d, heldPackets d t = heldPackets d s)
  | submitted (c : Nat) (ws : List Word) (hh : exchanges t.history = .submit c ws :: exchanges s.history)
      (hc : heldPackets c s = 0) (hp : ∀ d, heldPackets d t = heldPackets d s + (d == c).toNat)
  | answered (c : Nat) (r0 r1 : Word) (hh : exchanges t.history = .resp c r0 r1 :: exchanges s.history)
      (hp : ∀ d, heldPackets d s = heldPackets d t + (d == c).toNat)

theorem Balanced.heldPackets_le_one {s : State} (h : Balanced s) (c : Nat) : heldPackets c s ≤ 1 :=
  let ⟨_, hone, _⟩ := h c
  hone

/-- Each of the three keeps the balance. -/
theorem PacketMove.balanced {s t : State} (hm : PacketMove s t) (h : Balanced s) : Balanced t := by
  intro d
  have hd := h d
  rw [Machine.answered, ← responseSent_exchanges, ← submitsOf_exchanges, ← responsesTo_exchanges] at hd ⊢
  cases hm with
  | nothing hh hp => rwa [hh, hp]
  | submitted c ws hh hc hp =>
    rw [hh, hp]
    obtain rfl | hne := eq_or_ne d c
    · simp [hc, submitsOf, responsesTo, responseSent]; omega
    · simpa [beq_false_of_ne hne, submitsOf, responsesTo, responseSent, hne.symm] using hd
  | answered c r0 r1 hh hp =>
    rw [hp] at hd
    rw [hh]
    obtain rfl | hne := eq_or_ne d c
    · simp [submitsOf, responsesTo, responseSent] at hd ⊢; omega
    · simpa [beq_false_of_ne hne, submitsOf, responsesTo, responseSent, hne.symm] using hd

/-! The places a packet is held in (R292). -/

/-- The count of the places, with the tests `outstanding` makes. -/
theorem heldPackets_eq_sum (c : Nat) (s : State) :
    heldPackets c s = (findPending c s.pending).isSome.toNat + (findPending c s.waiters).isSome.toNat +
      (findPending c s.offered).isSome.toNat + (s.initPending == some c).toNat +
      (s.ph != Ph.idle && s.owner == c).toNat := by
  simp [heldPackets, Bool.toNat, Bool.cond_eq_ite]

theorem findPending_isSome_of_mem {w : Pending} {l : List Pending} (h : w ∈ l) :
    (findPending w.caller l).isSome = true :=
  List.find?_isSome.mpr ⟨w, h, beq_self_eq_true _⟩

/-- A caller with no entry in a set of packets has one more once its entry is added, and no other caller has. -/
theorem isSome_findPending_insert {c : Nat} {l : List Pending} (h : findPending c l = none) (p : Packet) (d : Nat) :
    (findPending d (insertPending { caller := c, packet := p } l)).isSome.toNat =
      (findPending d l).isSome.toNat + (d == c).toNat := by
  obtain rfl | hd := eq_or_ne d c
  · rw [findPending_insert_same { caller := d, packet := p } l h, h]; simp
  · rw [findPending_insert_other hd.symm]; simp [beq_false_of_ne hd]

/-- A caller with an entry in a set of packets has one less once it is taken out, and no other caller has. -/
theorem isSome_findPending_erase {c : Nat} {l : List Pending} (h : (findPending c l).isSome = true) (d : Nat) :
    (findPending d l).isSome.toNat = (findPending d (erasePending c l)).isSome.toNat + (d == c).toNat := by
  obtain rfl | hd := eq_or_ne d c
  · rw [findPending_erase_same, h]; simp
  · rw [findPending_erase_other hd]; simp [beq_false_of_ne hd]

/-- The places a packet is held in are as before, but for what PH says of the Sequencer's. -/
structure SamePlaces (s t : State) : Prop where
  pending : t.pending = s.pending := by simp
  waiters : t.waiters = s.waiters := by simp
  offered : t.offered = s.offered := by simp
  initPending : t.initPending = s.initPending := by simp
  owner : t.owner = s.owner := by simp

/-- Packets stay where they are if the Sequencer neither begins nor ends its work. -/
theorem SamePlaces.held {s t : State} (h : SamePlaces s t) (hp : t.ph.toNat = 0 ↔ s.ph.toNat = 0) (d : Nat) :
    heldPackets d t = heldPackets d s := by
  have hidle : t.ph = Ph.idle ↔ s.ph = Ph.idle := by
    rwa [← BitVec.toNat_inj, ← BitVec.toNat_inj]
  simp only [heldPackets, h.pending, h.waiters, h.offered, h.initPending, h.owner, ne_eq, hidle]

/-- When the Sequencer goes to IDLE, the packet it has worked on is held no more, and no other packet moves. -/
theorem SamePlaces.answers {s t : State} (h : SamePlaces s t) (hs : s.ph ≠ Ph.idle) (ht : t.ph = Ph.idle) {r0 r1 : Word}
    (hh : exchanges t.history = .resp s.owner r0 r1 :: exchanges s.history) : PacketMove s t := by
  refine .answered s.owner r0 r1 hh fun d => ?_
  simp [heldPackets_eq_sum, h.pending, h.waiters, h.offered, h.initPending, h.owner, ht, bne_iff_ne.mpr hs,
    Bool.beq_comm (a := d)]

/-- An acceptance takes the caller's packet from the one place it stands in, and the Sequencer works on it (R191). -/
theorem heldPackets_acquire {s : State} {w : Pending} (hw : w ∈ candidates s) (hp : s.ph = Ph.idle)
    (hone : heldPackets w.caller s ≤ 1) (d : Nat) : heldPackets d (acquire w s) = heldPackets d s := by
  have hwork : (Ph.validate != Ph.idle) = true := rfl
  rw [heldPackets_eq_sum] at hone
  rw [heldPackets_eq_sum, heldPackets_eq_sum]
  obtain rfl | hd := eq_or_ne d w.caller
  · obtain ⟨hn, hin⟩ | ⟨hn, hin | ⟨hin, -⟩⟩ := mem_candidates hw <;>
      simp [hn, hp, hwork, findPending_erase_same, findPending_isSome_of_mem hin] at hone ⊢ <;> omega
  · cases hn : s.cfg.nonblocking <;> simp [hn, hp, findPending_erase_other hd, hd.symm]

/-! What the phases do with the packets (R191, R197, R283, R318). -/

/-- The phases answer by `raise`, in COMPLETE and in INIT_CONTEXT, each time the caller they work for, and IDLE takes a
held packet to work on; between IDLE and the answer the packet stays the Sequencer's (R286). -/
theorem PhaseCase.packetMove {s t : State} (hc : PhaseCase s t) (hone : ∀ c, heldPackets c s ≤ 1) : PacketMove s t := by
  cases hc with
  | acceptInit c hp _ hi ht =>
    subst ht
    have hwork : (Ph.initClock != Ph.idle) = true := rfl
    exact .nothing rfl fun d => by simp [heldPackets_eq_sum, hp, hi, hwork]
  | acceptWaiter w o hp _ _ hw ht =>
    subst ht
    exact .nothing rfl (heldPackets_acquire (s := { s with oracle := o }) hw hp (hone w.caller))
  | rejected _ hp _ ht | badCount hp _ ht | complete hp ht | initContext hp ht =>
    subst ht
    exact SamePlaces.answers {} (by rw [hp]; decide) rfl rfl
  | setup p hp _ hn ht =>
    subst ht
    refine .nothing rfl (SamePlaces.held {} ?_)
    split at hn <;> simp [hp, hn]
  | rxStore hp _ _ ht | rxSkip hp _ ht =>
    subst ht
    refine .nothing (by simp) (SamePlaces.held {} ?_)
    rw [nextFrame_ph]
    split <;> simp [hp]
  | _ => subst t; exact .nothing (by simp) (SamePlaces.held {} (by simp [*]))

/-! What the host port and a submission do with them (R290, R292). -/

/-- The host port's answer goes to the caller whose packet it is (R290). -/
theorem exec_answers_portCaller {p : Packet} {i : Instr} {s t : State} (hd : decodePacket p = .instr i)
    (hq : forSequencer i s = false) (ht : exec i s = .next t) :
    ∃ r0 r1, exchanges t.history = .resp s.portCaller r0 r1 :: exchanges s.history := by
  rcases decodePacket_cases hd with rfl | rfl | rfl | rfl | rfl
  · -- INIT is the Sequencer's.
    simp [forSequencer] at hq
  · -- CANRELEASE
    obtain ⟨-, rfl⟩ := execCanRelease_next ht
    exact ⟨_, _, rfl⟩
  · -- VALIDATE
    obtain ⟨-, rfl⟩ := whenInited_next ht
    split <;> exact ⟨_, _, rfl⟩
  · -- TRANSCEIVE is answered BUSY, or it is the Sequencer's.
    obtain ⟨-, ⟨-, rfl⟩ | ⟨hb, hfit, -⟩⟩ := execTransceive_next ht
    · exact ⟨_, _, rfl⟩
    · simp [forSequencer, hb, hfit] at hq
  · -- TRANSCEIVE_ASYNC
    obtain ⟨-, rfl⟩ := whenInited_next ht
    exact ⟨_, _, rfl⟩

/-- A packet that the host port takes and answers is held no more. -/
theorem packetMove_of_answer {c : Nat} {s t : State} {e : Pending} (hf : findPending c s.pending = some e)
    (ht : OnlyAnswers (takePacket c s) t) {r0 r1 : Word}
    (hh : exchanges t.history = .resp c r0 r1 :: exchanges s.history) : PacketMove s t := by
  refine .answered c r0 r1 hh fun d => ?_
  have hheld : heldPackets d t = heldPackets d (takePacket c s) := by rw [ht]; rfl
  rw [hheld, heldPackets_eq_sum, heldPackets_eq_sum, isSome_findPending_erase (Option.isSome_of_eq_some hf)]
  simp; omega

theorem HostPortStep.packetMove {c : Nat} {s t : State} (hc : HostPortStep c s t) : PacketMove s t := by
  cases hc with
  | nothing ht => subst ht; exact .nothing rfl fun _ => rfl
  | command e i hf hd hq ht =>
    rw [← forSequencer_takePacket i c s] at hq
    obtain ⟨r0, r1, hh⟩ := exec_answers_portCaller hd hq ht
    exact packetMove_of_answer hf (exec_onlyAnswers hd hq ht) hh
  | illegal e r hf _ ht =>
    obtain ⟨-, rfl⟩ := whenInited_next ht
    exact packetMove_of_answer hf (onlyAnswers_hostAnswer _ _ _) rfl

/-- A caller with no packet outstanding is found in none of the places. -/
theorem not_found_of_not_outstanding {c : Nat} {s : State} (h : outstanding c s = false) :
    findPending c s.pending = none ∧ findPending c s.waiters = none ∧ findPending c s.offered = none := by
  simp only [outstanding, Bool.or_eq_false_iff, Option.isSome_eq_false_iff, Option.isNone_iff_eq_none] at h
  obtain ⟨⟨⟨⟨hpend, hwait⟩, hoff⟩, -⟩, -⟩ := h
  exact ⟨hpend, hwait, hoff⟩

/-- A submission puts the packet in the one place its command gives it (R38, R285, R290, R291). -/
theorem SubmitStep.packetMove {c : Nat} {p : Packet} {s t : State} (hc : SubmitStep c p s t) : PacketMove s t := by
  cases hc with
  | nobody _ ht => subst ht; exact .nothing rfl fun _ => rfl
  | held _ ho _ _ ht =>
    obtain ⟨hpend, -, -⟩ := not_found_of_not_outstanding ho
    subst ht
    refine .submitted c p.words rfl ((outstanding_eq_false_iff c s).mp ho) fun d => ?_
    simp only [heldPackets_eq_sum, isSome_findPending_insert hpend]; omega
  | command i _ ho hd hq ht =>
    have hnone := (outstanding_eq_false_iff c s).mp ho
    obtain ⟨-, hwait, hoff⟩ := not_found_of_not_outstanding ho
    obtain rfl | ⟨rfl, hb, -⟩ := (forSequencer_cases hd).mp hq
    · obtain ⟨-, hi, -, rfl⟩ := execInit_next ht
      refine .submitted c p.words rfl hnone fun d => ?_
      simp [heldPackets_eq_sum, show s.initPending = none from hi, Bool.beq_comm (a := d)]; omega
    · obtain ⟨-, ⟨hb', -⟩ | ⟨-, -, ⟨-, rfl⟩ | ⟨-, rfl⟩⟩⟩ := execTransceive_next ht
      · exact absurd hb (Bool.not_eq_false _ ▸ hb')
      · refine .submitted c p.words rfl hnone fun d => ?_
        simp [heldPackets_eq_sum, isSome_findPending_insert hwait]; omega
      · refine .submitted c p.words rfl hnone fun d => ?_
        simp [heldPackets_eq_sum, isSome_findPending_insert hoff]; omega

/-- A step that answers moves at most one packet, unless it is a reset; the other agents move none (R15). -/
theorem StepCase.packetMove {s t : State} (hc : StepCase s t) (hr : nextMove s ≠ .reset)
    (hone : ∀ c, heldPackets c (afterMove s) ≤ 1) : PacketMove (afterMove s) t := by
  cases hc with
  | sequencer _ i hd ht => exact (phase_cases hd ht).packetMove hone
  | hostPort c _ ht => exact ht.packetMove
  | submit c p _ ht => exact ht.packetMove
  | controller _ ht =>
    have hheld : ∀ d, heldPackets d t = heldPackets d (afterMove s) := fun d => by rw [ht, completeFrame_state]; rfl
    obtain he | ⟨csn, mosi, miso, route, he⟩ := completeFrame_history (afterMove s)
    · exact .nothing (by rw [ht, he]) hheld
    · exact .nothing (by rw [ht, he]; rfl) hheld
  | callerStore a b _ ht | platformWrite r v _ ht | platformRestore v _ ht => subst ht; exact .nothing rfl fun _ => rfl
  | platformRead r _ ht =>
    obtain ⟨y, o, hk⟩ := platformRead_state r (afterMove s)
    rw [ht, hk]
    exact .nothing rfl fun _ => rfl
  | reset h _ => exact absurd h hr

/-- Settles O47: a step that is no reset moves at most one packet, and a submission and an answer each keep the
balance. -/
theorem everyPacketGetsOneResponse : Obligations.EveryPacketGetsOneResponse := by
  intro s t h hr hst
  obtain ⟨-, hc⟩ := step_cases hst
  have hafter : Balanced (afterMove s) := by rw [afterMove_state]; exact h
  exact (hc.packetMove hr hafter.heldPackets_le_one).balanced hafter

end Sys2Proof.Machine

/-! ### The table of phase transitions (R286) -/

namespace Sys2Proof.Machine

/-- The edges of R286, as pairs of phase codes. -/
def phaseEdges : List (Nat × Nat) :=
  [(0, 13), (0, 1), (0, 0), (13, 14), (14, 15), (15, 16), (16, 17), (17, 18), (18, 19), (19, 0), (1, 2), (1, 0), (2, 3),
   (3, 4), (4, 0), (4, 12), (4, 5), (5, 6), (6, 7), (7, 8), (8, 9), (8, 8), (8, 11), (9, 10), (10, 6), (10, 11), (11, 12),
   (12, 0)]

/-- SETUP and RX_STORE choose between two phases, each other way a phase can end names the next one. -/
theorem PhaseCase.edge {s t : State} (hc : PhaseCase s t) : (s.ph.toNat, t.ph.toNat) ∈ phaseEdges := by
  cases hc with
  | setup p hp _ hn ht =>
    subst ht
    split at hn <;> simp [phaseEdges, hp, hn]
  | rxStore hp _ _ ht | rxSkip hp _ ht =>
    subst ht
    rw [hp, nextFrame_ph]
    split <;> simp [phaseEdges]
  | _ => subst t; simp [phaseEdges, *]

/-- Settles O49: the Sequencer's step is one of the ways its phase can end, and no other agent but a reset writes PH
(R29). -/
theorem phasesChangeOnlyAlongTheTable : Obligations.PhasesChangeOnlyAlongTheTable := by
  intro s t h hr
  obtain ⟨-, hc⟩ := step_cases h
  obtain ⟨hm, hp⟩ | ⟨hm, -⟩ | ⟨hm, hk⟩ := hc.phase_or_kept
  · have hedge := hp.edge
    rw [afterMove_ph] at hedge
    exact ⟨fun hn => absurd hm hn, fun _ => hedge⟩
  · exact absurd hm hr
  · exact ⟨fun _ => by rw [hk, afterMove_ph], fun hs => absurd hs hm⟩

end Sys2Proof.Machine

/-! ### The host commands: what they answer, and whom an IDLE step accepts (R280 to R292) -/

namespace Sys2Proof.Machine

/-! Command INIT and the phases it runs (R280 to R283). -/

theorem execInit_of_first {s : State} (hi : s.inited = false) (hn : s.initPending = none) (hp : s.ph = Ph.idle) :
    execInit s = .next { s with initPending := some s.portCaller } := by
  simp [execInit, hi, hn, hp]

theorem execInit_refused {s : State} (h : s.inited = true ∨ s.initPending ≠ none ∨ s.ph ≠ Ph.idle) :
    execInit s = .refused .initAgain :=
  if_pos (by simpa [Option.isSome_iff_ne_none, or_assoc] using h)

/-- Settles O17: the three conditions are those of the refusal of `execInit` (U1, R369). -/
theorem initWaitsForIdleAndIsOnce : Obligations.InitWaitsForIdleAndIsOnce := fun _ => ⟨execInit_of_first, execInit_refused⟩

/-- Settles O21: each of these phases is its listed calls and writes, logged in their order. -/
theorem initPhasesCallTheCollaborators : Obligations.InitPhasesCallTheCollaborators := fun s =>
  ⟨rfl, by simp only [exec, execInitPins, goto, log], rfl⟩

/-! Commands TRANSCEIVE_ASYNC and VALIDATE (R284, R287). -/

/-- Settles O12: after INIT the command is one answer, which reads no operand. -/
theorem asyncIsAnsweredNotSupported : Obligations.AsyncIsAnsweredNotSupported := fun _ _ _ _ _ _ s hi =>
  whenInited_of_inited hi (hostAnswer .asyncUnimplemented 0#32 s)

/-- The packed encoding as a number: the two flags stand above the 16 bits of the frame format (R109). -/
theorem packEnc_toNat (e : Enc) :
    (packEnc e).toNat = e.frame.toNat + (if e.loopbk then 2 ^ 16 else 0) + (if e.autocs then 2 ^ 17 else 0) := by
  have habove (k : Nat) : e.frame.toNat ||| 2 ^ 16 * k = e.frame.toNat + 2 ^ 16 * k := by
    rw [Nat.or_comm, ← Nat.two_pow_add_eq_or_of_lt e.frame.isLt, Nat.add_comm]
  have hmod : e.frame.toNat % 2 ^ 32 = e.frame.toNat := by omega
  rw [packEnc, BitVec.toNat_or, BitVec.toNat_or, BitVec.toNat_setWidth, hmod, Nat.or_assoc, Nat.add_assoc]
  cases e.loopbk <;> cases e.autocs
  · exact habove 0
  · exact habove 2
  · exact habove 1
  · exact habove 3

/-- A word is that of its number. -/
theorem eq_ofNat_of_toNat {w : Word} {n : Nat} (h : w.toNat = n) : w = BitVec.ofNat 32 n := by
  rw [← h, BitVec.ofNat_toNat, BitVec.setWidth_eq]

theorem execValidate_of_ok {s : State} {d : BitVec 24} {e : Enc} (hi : s.inited = true)
    (h : validate s.cfg.lay d = .ok e) : execValidate d s = .next (hostAnswer .none (packEnc e) s) := by
  rw [execValidate, whenInited_of_inited hi, h]

theorem execValidate_of_err {s : State} {d : BitVec 24} {c : Cause} (hi : s.inited = true)
    (h : validate s.cfg.lay d = .err c) : execValidate d s = .next (hostAnswer c 0#32 s) := by
  rw [execValidate, whenInited_of_inited hi, h]

/-- Settles O11: the answer is the one `validate` gives, with its words read as numbers (R109, R112). -/
theorem validateCommandAnswers : Obligations.ValidateCommandAnswers := by
  intro d s hi
  cases hv : validate s.cfg.lay d with
  | ok e =>
    refine ⟨_, execValidate_of_ok hi hv, fun e' he => ?_, fun _ he => by simp at he, rfl⟩
    obtain rfl : e = e' := by simpa using he
    rw [← eq_ofNat_of_toNat (packEnc_toNat e)]
    rfl
  | err c =>
    refine ⟨_, execValidate_of_err hi hv, fun _ he => by simp at he, fun c' he => ?_, rfl⟩
    obtain rfl : c = c' := by simpa using he
    rw [← eq_ofNat_of_toNat (statusR0_toNat c)]
    rfl

/-! Command TRANSCEIVE where it is not answered BUSY (R192, R193, R285). -/

theorem execTransceive_of_waits {s : State} (hi : s.inited = true) (hb : busyNow s = false) {tp tl rp rl : Word}
    (hf : transferFits tp tl rp rl = true) (cnt : BitVec 4) (d : BitVec 24) :
    execTransceive cnt d tp tl rp rl s = .next
      (if s.cfg.nonblocking then joinOffered s.portCaller (transferPacket 0x3#4 cnt d tp tl rp rl) s
       else joinWaiters s.portCaller (transferPacket 0x3#4 cnt d tp tl rp rl) s) := by
  simp [execTransceive, hi, hb, hf]

/-- An entry added to a set of packets that has none of its caller is found there, and the others' entries are as
before. -/
theorem findPending_insert {c : Nat} {l : List Pending} (h : findPending c l = none) (p : Packet) :
    findPending c (insertPending { caller := c, packet := p } l) = some { caller := c, packet := p } ∧
    ∀ d, d ≠ c → findPending d (insertPending { caller := c, packet := p } l) = findPending d l :=
  ⟨findPending_insert_same { caller := c, packet := p } l h, fun _ hd => findPending_insert_other hd.symm l⟩

/-- Settles O15: the packet is put together from the operands, and joins WAITERS or, with NONBLOCKING = 1, its place (log
12). -/
theorem transceiveJoinsTheWaiters : Obligations.TransceiveJoinsTheWaiters := by
  intro cnt d tp tl rp rl s hi hq htx hrx hwait hoff
  have hexec := execTransceive_of_waits hi ((busyNow_eq_false_iff s).mpr hq)
    ((transferFits_iff tp tl rp rl).mpr ⟨htx, hrx⟩) cnt d
  refine ⟨_, transferPacket 0x3#4 cnt d tp tl rp rl, hexec, firstWord_toNat 0x3#4 cnt d, rfl, rfl, rfl, rfl,
    fun hn => ?_, fun hn => ?_⟩
  · rw [if_neg (Bool.eq_false_iff.mp hn)]
    exact ⟨rfl, findPending_insert hwait _⟩
  · rw [if_pos hn]
    exact ⟨rfl, findPending_insert hoff _⟩

/-! The host port's answer to an illegal packet (R289). -/

theorem hostPortTurn_of_illegal {c : Nat} {s : State} {e : Pending} {r : Reject} (hf : findPending c s.pending = some e)
    (hd : decodePacket e.packet = .reject r) : hostPortTurn c s = .done (answerIllegal (takePacket c s)) := by
  simp [hostPortTurn, hf, hd]

theorem answerIllegal_of_inited {s : State} (h : s.inited = true) :
    answerIllegal s = .next (hostAnswer .illegalCmd 0#32 s) :=
  whenInited_of_inited h _

/-- Settles O7: the host port takes the packet and answers its caller, and writes nothing else. -/
theorem illegalPacketIsAnswered : Obligations.IllegalPacketIsAnswered := by
  intro s c e r ⟨hw, hm⟩ hi hf hd
  have hturn := (turn_of_hostPort hw hm).trans (hostPortTurn_of_illegal (by rwa [afterMove_pending]) hd)
  rw [answerIllegal_of_inited (by rwa [takePacket_inited, afterMove_inited])] at hturn
  refine ⟨_, step_of_done hturn, ?_, ?_, fun d hcd => ?_, fun ha => ?_, ?_⟩
  · rw [hostAnswer_history, takePacket_history, afterMove_history]; rfl
  · exact findPending_erase_same c _
  · rw [hostAnswer_pending, takePacket_pending, afterMove_pending, findPending_erase_other hcd]
  · rw [hostAnswer_oracle, takePacket_oracle, afterMove_oracle_of_agenda ha]
  · rw [afterMove_state]; rfl

/-! The submission of a packet for the host port, and a second one (R73, R290, R292). -/

theorem submitTurn_of_outstanding {c : Nat} {s : State} (hc : c < s.cfg.nCallers) (ho : outstanding c s = true)
    (p : Packet) : submitTurn c p s = .done (.refused .secondPacket) := by
  simp [submitTurn, Nat.not_le.mpr hc, ho]

theorem submitTurn_of_held {c : Nat} {p : Packet} {s : State} (hc : c < s.cfg.nCallers)
    (ho : outstanding c s = false) (hq : ∀ i, decodePacket p = .instr i → forSequencer i s = false) :
    submitTurn c p s = .done (holdPacket c p (log (.submit c p.words) s)) := by
  simp only [submitTurn, submittedTurn, Nat.not_le.mpr hc, ho, if_false, Bool.false_eq_true]
  split
  · rw [forSequencer_log, hq _ ‹_›]; rfl
  · rfl

/-- Settles O19: with no packet outstanding the submission is held for the host port, with one it is refused (U18). -/
theorem callerSubmitsOnePacketAtATime : Obligations.CallerSubmitsOnePacketAtATime := by
  intro s c p ⟨hw, hm⟩ hc
  have hturn := turn_of_submit hw hm
  refine ⟨fun hheld hi hq => ?_, fun hheld => ?_⟩
  · have ho : outstanding c (afterMove s) = false := by rwa [outstanding_afterMove, outstanding_eq_false_iff]
    have hport (i : Instr) (hd : decodePacket p = .instr i) : forSequencer i (afterMove s) = false := by
      rw [forSequencer_afterMove, ← Bool.not_eq_true, forSequencer_iff hd]
      exact hq i hd
    obtain ⟨hpend, -, -⟩ := not_found_of_not_outstanding ho
    obtain ⟨hsame, hother⟩ := findPending_insert hpend p
    rw [submitTurn_of_held (by rwa [afterMove_cfg]) ho hport] at hturn
    refine ⟨_, (step_of_done hturn).trans (whenInited_of_inited (by rwa [log_inited, afterMove_inited]) _), ?_, hsame,
      fun d hd => (hother d hd).trans (by rw [afterMove_pending]), ?_⟩
    · rw [log_history, afterMove_history]
    · rw [afterMove_state]; rfl
  · have ho : outstanding c (afterMove s) = true := by
      rwa [outstanding_afterMove, ← Bool.not_eq_false, outstanding_eq_false_iff]
    exact step_of_done (hturn.trans (submitTurn_of_outstanding (by rwa [afterMove_cfg]) ho p))

/-! Phase IDLE with NONBLOCKING = 0 (R191, R194, R291). -/

theorem execIdle_of_pending {s : State} {c : Nat} (hi : s.inited = false) (h : s.initPending = some c) :
    execIdle s = .next (acceptInit c s) := by
  simp [execIdle, hi, h]

/-- With no INIT pending, or after INIT with the guard held or no candidate, the Sequencer stays in IDLE. -/
theorem execIdle_of_nothing {s : State} (h : (s.inited = false ∧ s.initPending = none) ∨
    (s.inited = true ∧ (s.ctx.lock = true ∨ candidates s = []))) : execIdle s = .next (goto Ph.idle s) := by
  obtain ⟨hi, hn⟩ | ⟨hi, hl | hc⟩ := h
  · simp [execIdle, hi, hn]
  · simp [execIdle, hi, hl]
  · cases hl : s.ctx.lock <;> simp [execIdle, hi, hl, acceptWaiter, hc]

/-- With NONBLOCKING = 0 an acceptance looks at WAITERS only (R38). -/
theorem acquire_of_blocking {s : State} (hn : s.cfg.nonblocking = false) (w : Pending) :
    acquire w s = { s with
      ctx := { s.ctx with lock := true }, owner := w.caller, cmdbuf := w.packet, ph := Ph.validate
      waiters := erasePending w.caller s.waiters, ctl := (acquire w s).ctl } := by
  simp [acquire, hn]

/-- Settles O20: with the guard free an IDLE step is an acceptance, its candidates are the members of WAITERS, and the
supply can pick any of them (R194). -/
theorem idleAcceptsInitOrSomeWaiter : Obligations.IdleAcceptsInitOrSomeWaiter := by
  intro s
  refine ⟨fun c hi hp => execIdle_of_pending hi hp, fun hi hl hn hne => ?_, fun h => execIdle_of_nothing ?_⟩
  · have hcand {w : Pending} : w ∈ s.waiters ↔ w ∈ candidates s := by rw [candidates_of_blocking hn]
    obtain ⟨v, hv⟩ := List.exists_mem_of_ne_nil _ hne
    refine ⟨?_, fun w hw => ?_⟩
    · obtain ⟨w, hw, o, he⟩ := acceptWaiter_of_mem (hcand.mp hv)
      exact ⟨acquire w { s with oracle := o }, w, hcand.mpr hw, (execIdle_of_free hi hl).trans (congrArg _ he), rfl, rfl,
        rfl, rfl, findPending_erase_same _ _, fun c hc => findPending_erase_other hc _, contractTested_acquire w s o,
        acquire_of_blocking (s := { s with oracle := o }) hn w⟩
    · obtain ⟨o, o', he⟩ := acceptWaiter_any (hcand.mp hw)
      exact ⟨o, _, (execIdle_of_free (s := { s with oracle := o }) hi hl).trans (congrArg _ he), rfl, rfl⟩
  · refine h.imp_right fun ⟨hi, hfree⟩ => ⟨hi, hfree.imp_right fun ⟨hn, hempty⟩ => ?_⟩
    rw [candidates_of_blocking hn, hempty]

end Sys2Proof.Machine

/-! ### The end of a transaction: all its frames, or a hang (R197, R218, R332) -/

namespace Sys2Proof.Machine

theorem longest_toNat (s : State) : (longest s).toNat = max s.ctx.txLen.toNat s.ctx.rxLen.toNat := maxLen_toNat _ _

/-- Settles O54: the two responses of COMPLETE are the two outcomes a safe state leaves a transfer at its end. -/
theorem noTransferIsCutShortSilently : Obligations.NoTransferIsCutShortSilently := by
  intro s h hnext hp
  have hd : decodePhase s.ph = .instr .complete := by rw [hp]; rfl
  obtain ⟨hstep, -, -⟩ := sequencerStepRunsThePhase s .complete hnext hd
  refine ⟨_, completeR0 s.xstat, s.idx, hstep.trans rfl, by simp, ?_⟩
  rw [← longest_toNat]
  obtain ⟨hx, hidx⟩ | ⟨hx, hlt, hhang⟩ := h.transfer.outcome (by simp [inPhases, hp])
  · exact .inl ⟨by rw [hx]; rfl, by rw [hidx]⟩
  · exact .inr ⟨by rw [hx]; rfl, hlt, hhang⟩

end Sys2Proof.Machine

/-! ### Reset as an event, and the recovery by restoration and reset (R350, R352, R365) -/

namespace Sys2Proof.Machine

theorem step_of_reset {s : State} (hw : s.cfg.wf = true) (hm : nextMove s = .reset) :
    step s = .next (resetEvent (afterMove s)) :=
  step_of_done (by simp [turn, hw, hm])

theorem step_of_platformRestore {s : State} {v : Word} (hw : s.cfg.wf = true) (hm : nextMove s = .platformRestore v) :
    step s = .next (platformRestore v (afterMove s)) :=
  step_of_done (by simp [turn, hw, hm])

theorem nextMove_of_agenda {s : State} {m : Move} {rest : List Move} (h : s.agenda = m :: rest) : nextMove s = m := by
  simp [nextMove, h]

theorem afterMove_agenda (s : State) : (afterMove s).agenda = s.agenda.tail := by
  rw [afterMove_state]

theorem resetEvent_cfg (s : State) : (resetEvent s).cfg = s.cfg := by rw [resetEvent_state]; rfl
theorem resetEvent_agenda (s : State) : (resetEvent s).agenda = s.agenda := by rw [resetEvent_state]
theorem resetEvent_faultHang (s : State) : (resetEvent s).faultHang = false := by rw [resetEvent_state]; rfl
theorem resetEvent_lock (s : State) : (resetEvent s).ctx.lock = false := by rw [resetEvent_state]; rfl

/-! What the event drops, and what it says of the contract. -/

theorem heldPackets_resetEvent (c : Nat) (s : State) : heldPackets c (resetEvent s) = 0 := by
  rw [resetEvent_state]; rfl

/-- The one event a reset may record is no response (R352). -/
theorem answered_resetEvent (c : Nat) (s : State) : answered c (resetEvent s) = answered c s := by
  rw [answered, resetEvent_state]
  split <;> rfl

theorem readyForFirst_eq_false_iff (k : Controller) :
    readyForFirst k = false ↔ k.txidle = false ∨ k.txc = true ∨ k.inflight = true ∨ k.rxready = true := by
  simp only [readyForFirst, idleAndEmpty, Bool.and_eq_false_iff, Bool.not_eq_false']
  tauto

/-- The contract is void after the event if it was, if PH was not IDLE, or if R355 (c) does not hold (R352). -/
theorem ctlVoid_resetEvent (s : State) :
    ctlVoid (resetEvent s) = true ↔
      s.ph ≠ Ph.idle ∨ s.ctl.isVoid = true ∨ s.ctl.txnVoid = true ∨ readyForFirst s.ctl = false := by
  simp only [ctlVoid, resetEvent_state, State.resetWith, Bool.or_eq_true, bne_iff_ne, Bool.not_eq_true',
    Bool.false_eq_true]
  tauto

/-- Settles O39: the event is read off `resetEvent`, around which the step only takes the move off the agenda. -/
theorem resetEventResetsOnlyTheBlock : Obligations.ResetEventResetsOnlyTheBlock := by
  intro s ⟨hw, hm⟩
  have hstate := resetEvent_state (afterMove s)
  refine ⟨_, step_of_reset hw hm, ?_, fun a => ?_, fun c => ⟨heldPackets_resetEvent c _, ?_⟩, ?_, ?_⟩
  · rw [hstate]; simp [afterMove_agenda]
  · rw [hstate]; simp
  · rw [answered_resetEvent, answered, afterMove_history, answered]
  · rw [ctlVoid_resetEvent, readyForFirst_eq_false_iff, afterMove_ph, afterMove_ctl]
  · rw [hstate]; simp

/-! The platform's restoration, before and after a reset. -/

/-- The controller as a restoration between transactions leaves it: as R355 (b) and (c) ask, with `v` in CTRL, and the
contract not void. -/
def Controller.restored (v : Word) (k : Controller) : Controller :=
  { k with
    ctrl := v, mode := v, txc := false, txidle := true, inflight := false, rxready := false
    isVoid := false, txnVoid := false }

theorem platformRestore_of_free {s : State} (h : s.ctx.lock = false) (v : Word) :
    platformRestore v s = { s with ctl := s.ctl.restored v } := by
  simp [platformRestore, Controller.restored, h]

/-- A reset in IDLE leaves a restored controller as it is. -/
theorem resetEvent_ctl_of_restored {s : State} {v : Word} {k : Controller} (hp : s.ph = Ph.idle)
    (hk : s.ctl = k.restored v) : (resetEvent s).ctl = k.restored v := by
  rw [resetEvent_state]
  simp [hp, hk, Controller.restored, readyForFirst, idleAndEmpty]

/-- With the controller restored and FAULT_HANG clear the software's part is done. -/
theorem recovered_of_restored {s : State} {v : Word} {k : Controller} (hf : s.faultHang = false)
    (hk : s.ctl = k.restored v) : Recovered v s where
  noHang := hf
  idle := by rw [hk]; exact ⟨rfl, rfl, rfl, rfl⟩
  written := by rw [hk]; rfl
  inForce := fun hauto => by
    rw [contractHolds_iff]
    simp [hk, Controller.restored, hf, ctlAutocs, modeHolds, hauto]

/-- Settles O59: the restoration between transactions leaves the controller restored, a reset in IDLE keeps it so, and
the reset clears FAULT_HANG and frees the guard. -/
theorem restoreAndResetRecover : Obligations.RestoreAndResetRecover := by
  intro s v hw
  refine ⟨fun hp hl ha => ?_, fun ha => ?_⟩
  · have hrest : platformRestore v (afterMove s) = { afterMove s with ctl := s.ctl.restored v } := by
      rw [platformRestore_of_free (by rwa [afterMove_ctx]), afterMove_ctl]
    have hfirst := step_of_platformRestore hw (nextMove_of_agenda ha)
    rw [hrest] at hfirst
    refine ⟨_, _, hfirst, step_of_reset ?_ (nextMove_of_agenda (rest := []) ?_),
      recovered_of_restored (k := s.ctl) (resetEvent_faultHang _) (resetEvent_ctl_of_restored ?_ (afterMove_ctl _))⟩
    · rwa [afterMove_cfg]
    · rw [afterMove_agenda, ha]; rfl
    · rwa [afterMove_ph, afterMove_ph]
  · have hagenda : (resetEvent (afterMove s)).agenda = [.platformRestore v] := by
      rw [resetEvent_agenda, afterMove_agenda, ha]; rfl
    have hlock : (afterMove (resetEvent (afterMove s))).ctx.lock = false := by rw [afterMove_ctx, resetEvent_lock]
    have hsecond := step_of_platformRestore (by rwa [resetEvent_cfg, afterMove_cfg]) (nextMove_of_agenda hagenda)
    rw [platformRestore_of_free hlock] at hsecond
    refine ⟨_, _, step_of_reset hw (nextMove_of_agenda ha), hsecond, recovered_of_restored ?_ rfl⟩
    rw [afterMove_faultHang, resetEvent_faultHang]

end Sys2Proof.Machine

/-! ### The end of a run (R371) -/

namespace Sys2Proof.Machine

theorem runFinished_iff (s : State) :
    runFinished s = true ↔ s.ph = Ph.idle ∧ s.waiters = [] ∧ s.offered = [] ∧ s.pending = [] ∧ s.initPending = none ∧
      s.ctl.inflight = false := by
  simp [runFinished, and_assoc]

@[simp] theorem runFinished_afterMove (s : State) : runFinished (afterMove s) = runFinished s := by
  simp [runFinished]

@[simp] theorem observe_afterMove (s : State) : observe (afterMove s) = observe s := by
  simp [observe]

theorem heldPackets_of_finished {s : State} (h : runFinished s = true) (c : Nat) : heldPackets c s = 0 := by
  obtain ⟨hp, hwait, hoff, hpend, hinit, -⟩ := (runFinished_iff s).mp h
  simp [heldPackets, hp, hwait, hoff, hpend, hinit, findPending]

/-- What is observed lists as many answers to a caller as the history holds. -/
theorem length_answersTo_observe (c : Nat) (s : State) :
    (answersTo c (observe s)).length = responsesTo c s.history := by
  suffices hcount : ∀ h, ((responses h).filter (fun r => r.1 == c)).length = responsesTo c h by
    rw [answersTo, List.length_map]; exact hcount s.history
  intro h
  induction h with
  | nil => rfl
  | cons e rest ih =>
    cases e with
    | resp d r0 r1 =>
      obtain rfl | hne := eq_or_ne d c
      · simp [responses, responsesTo, ih, Nat.add_comm]
      · simp [responses, responsesTo, ih, hne]
    | _ => exact ih

/-- With nobody to accept, the Sequencer stays in IDLE. -/
theorem execIdle_of_finished {s : State} (h : runFinished s = true) : execIdle s = .next s := by
  obtain ⟨hp, hwait, hoff, hpend, hinit, -⟩ := (runFinished_iff s).mp h
  have hnobody : candidates s = [] := by simp [candidates, hwait, hoff, hpend]
  have hstay : goto Ph.idle s = s := by rw [← hp]; rfl
  rw [execIdle_of_nothing, hstay]
  cases hi : s.inited with
  | false => exact .inl ⟨rfl, hinit⟩
  | true => exact .inr ⟨rfl, .inr hnobody⟩

/-- With no packet held and no frame in flight these agents only take their move off the agenda. -/
theorem step_of_finished {s t : State} (h : runFinished s = true) (hst : step s = .next t)
    (hm : nextMove s = .sequencer ∨ (∃ c, nextMove s = .hostPort c) ∨
      (nextMove s = .controller ∧ contractHolds s = true)) : t = afterMove s := by
  have hafter : runFinished (afterMove s) = true := by rwa [runFinished_afterMove]
  obtain ⟨hp, -, -, hpend, -, hframe⟩ := (runFinished_iff _).mp hafter
  obtain ⟨-, hc⟩ := step_cases hst
  cases hc with
  | sequencer _ i hd ht =>
    rw [hp, show decodePhase Ph.idle = .instr .idle from rfl, Decoded.instr.injEq] at hd
    subst hd
    simpa using ht.symm.trans (execIdle_of_finished hafter)
  | hostPort c _ ht =>
    cases ht with
    | nothing ht => exact ht
    | command e _ hf | illegal e _ hf => rw [hpend] at hf; simp [findPending] at hf
  | controller hmove ht =>
    have hcontract : contractHolds s = true := by simpa [hmove] using hm
    rw [ht, completeFrame_of_idle (by rwa [contractHolds_afterMove]) hframe]
  | _ => simp_all

/-- Settles O60: no place holds a packet, so the balance makes the answers as many as the submissions, and a step of
these agents leaves all that is observed. -/
theorem aFinishedRunStaysAsObserved : Obligations.AFinishedRunStaysAsObserved := by
  intro s h
  have hnone := heldPackets_of_finished h
  refine ⟨hnone, fun hb c => ?_, fun t hst hm => ?_⟩
  · obtain ⟨hcount, -, hanswered⟩ := hb c
    rw [length_answersTo_observe, hcount, hnone]
    exact ⟨rfl, fun hpos => hanswered.mpr ⟨by omega, hnone c⟩⟩
  · rw [step_of_finished h hst hm, runFinished_afterMove, observe_afterMove]
    exact ⟨h, rfl⟩

end Sys2Proof.Machine
